-- ==== Sys2Proof/Word.lean ====
section
/-! DEFINITION. The word types of the H316 core (00_scope.md R10 to R12). -/

namespace Sys2Proof

/-- A 16-bit word: AR, BR, XR and every memory word (00_scope.md R10). -/
abbrev Word := BitVec 16

/-- A 15-bit physical word address (00_scope.md R10, 10_state.md R33). -/
abbrev Addr := BitVec 15

/-- Half of a memory word as the package's memory format keeps it (assumption log 3). -/
abbrev Byte := BitVec 8

/-- A 31-bit double-length value, sign at bit 30 (41_adders.md R161, R163). -/
abbrev Double := BitVec 31

/-- An I/O device number, 0 to 0o77 (30_encoding.md R110). -/
abbrev DevNum := BitVec 6

/-- The CPU's own device number, 0o20 (47_io.md R329). -/
def cpuDevice : DevNum := 0o20#6

end Sys2Proof
end

