-- ==== Sys2Proof/Syntax.lean ====
section
/-! DEFINITION. The instructions: one constructor for each of the 94 rows of spec/opcode_table.json, with the fields
of 30_encoding.md R102 to R109. -/

namespace Sys2Proof

/-- The operand fields I, X, S and D of a memory-reference word (30_encoding.md R102). -/
structure MemOp where
  indirect : Bool
  indexed : Bool
  sector : Bool
  disp : BitVec 9
deriving DecidableEq, Repr

/-- The operand fields I, S and D of STX and LDX, which have no index bit (30_encoding.md R104). -/
structure XferOp where
  indirect : Bool
  sector : Bool
  disp : BitVec 9
deriving DecidableEq, Repr

/-- The operand as `Ea` sees it: bit 14 is treated as 0 (40_effective_address.md R149). -/
def XferOp.toMemOp (op : XferOp) : MemOp :=
  { indirect := op.indirect, indexed := false, sector := op.sector, disp := op.disp }

/-- The instructions of 30_encoding.md R115. A shift carries its count N, not the encoded field (R106). `hlt` and
`controlMicro` carry IR[9:1], `undefinedOperate` IR[9:0], `skip` the sense bit and the nine condition bits. -/
inductive Instr where
  -- memory reference (R103) and its double-precision forms (R188)
  | jmp (op : MemOp)
  | lda (op : MemOp)
  | dld (op : MemOp)
  | ana (op : MemOp)
  | sta (op : MemOp)
  | dst (op : MemOp)
  | era (op : MemOp)
  | add (op : MemOp)
  | dad (op : MemOp)
  | sub (op : MemOp)
  | dsb (op : MemOp)
  | jst (op : MemOp)
  | cas (op : MemOp)
  | irs (op : MemOp)
  | ima (op : MemOp)
  | mpy (op : MemOp)
  | div (op : MemOp)
  | stx (op : XferOp)
  | ldx (op : XferOp)
  -- control (R210)
  | hlt (bits : BitVec 9)
  | controlMicro (bits : BitVec 9)
  | sgl
  | dbl
  | dxa
  | exa
  | rmp
  | sca
  | ink
  | nrm
  | iab
  | enb
  | inh
  -- shift (R106)
  | lrl (n : BitVec 6)
  | lrs (n : BitVec 6)
  | lrr (n : BitVec 6)
  | quirk3 (n : BitVec 6)
  | lgr (n : BitVec 6)
  | ars (n : BitVec 6)
  | arr (n : BitVec 6)
  | quirk7 (n : BitVec 6)
  | lll (n : BitVec 6)
  | lls (n : BitVec 6)
  | llr (n : BitVec 6)
  | quirk13 (n : BitVec 6)
  | lgl (n : BitVec 6)
  | als (n : BitVec 6)
  | alr (n : BitVec 6)
  | quirk17 (n : BitVec 6)
  -- skip (R270 to R293)
  | skip (sense : Bool) (cond : BitVec 9)
  | skp
  | nop
  | ssc
  | src
  | ss1
  | sr1
  | ss2
  | sr2
  | ss3
  | sr3
  | ss4
  | sr4
  | sss
  | ssr
  | snz
  | sze
  | sln
  | slz
  | sps
  | spn
  | smi
  | spl
  -- operate (R297, R314)
  | chs
  | cra
  | ssp
  | rcb
  | csa
  | cma
  | tca
  | ssm
  | scb
  | car
  | cal
  | icl
  | aoa
  | aca
  | icr
  | ica
  | undefinedOperate (bits : BitVec 10)
  -- input and output (R109)
  | ocp (fnc : BitVec 4) (dev : DevNum)
  | sks (fnc : BitVec 4) (dev : DevNum)
  | ina (clear : Bool) (fnc : BitVec 3) (dev : DevNum)
  | ota (fnc : BitVec 4) (dev : DevNum)
  | smk
  | otk
deriving DecidableEq, Repr

/-- The seven classes of 30_encoding.md R101. -/
inductive InstrClass where
  | control | shift | skip | operate | io | indexTransfer | memoryReference
deriving DecidableEq, Repr

end Sys2Proof
end

