-- ==== Sys2Proof/WellFormed.lean ====
section
/-! DEFINITION. Well-formed instructions. Field widths are in the types; what is left is that a word which has a row
of its own (priority 0 in spec/opcode_table.json, 30_encoding.md R115) is not written as its class row. -/

namespace Sys2Proof

/-- IR[9:0] of the named control words (43_control.md R210). -/
def namedControl : List (BitVec 10) :=
  [0o5, 0o7, 0o11, 0o13, 0o21, 0o41, 0o43, 0o101, 0o201, 0o401, 0o1001]

/-- IR[9:0] of the named skip words (45_skip.md R272 to R293). -/
def namedSkip : List (BitVec 10) :=
  [0o0, 0o1000, 0o1001, 0o1, 0o1020, 0o20, 0o1010, 0o10, 0o1004, 0o4, 0o1002, 0o2, 0o1036, 0o36, 0o1040, 0o40,
   0o1100, 0o100, 0o1200, 0o200, 0o1400, 0o400]

/-- IR[9:0] of the named operate words (46_operate.md R297). -/
def namedOperate : List (BitVec 10) :=
  [0o24, 0o40, 0o100, 0o200, 0o320, 0o401, 0o407, 0o500, 0o600, 0o1044, 0o1050, 0o1140, 0o1206, 0o1216, 0o1240,
   0o1340]

/-- IR[9:0] of the OTA words to the CPU's own device that are SMK and OTK (47_io.md R329). -/
def namedOta : List (BitVec 10) := [0o20, 0o1020]

/-- Every instruction is well formed but the class rows that spell a named word. -/
def Instr.wf : Instr → Bool
  | .controlMicro bits => !namedControl.contains (bits ++ 1#1)
  | .skip sense cond => !namedSkip.contains (BitVec.ofBool sense ++ cond)
  | .undefinedOperate bits => !namedOperate.contains bits
  | .ota fnc dev => !namedOta.contains (fnc ++ dev)
  | .jmp _ | .lda _ | .dld _ | .ana _ | .sta _ | .dst _ | .era _ | .add _ | .dad _ | .sub _ | .dsb _ | .jst _
  | .cas _ | .irs _ | .ima _ | .mpy _ | .div _ | .stx _ | .ldx _ | .hlt _ | .sgl | .dbl | .dxa | .exa | .rmp | .sca
  | .ink | .nrm | .iab | .enb | .inh | .lrl _ | .lrs _ | .lrr _ | .quirk3 _ | .lgr _ | .ars _ | .arr _ | .quirk7 _
  | .lll _ | .lls _ | .llr _ | .quirk13 _ | .lgl _ | .als _ | .alr _ | .quirk17 _ | .skp | .nop | .ssc | .src | .ss1
  | .sr1 | .ss2 | .sr2 | .ss3 | .sr3 | .ss4 | .sr4 | .sss | .ssr | .snz | .sze | .sln | .slz | .sps | .spn | .smi
  | .spl | .chs | .cra | .ssp | .rcb | .csa | .cma | .tca | .ssm | .scb | .car | .cal | .icl | .aoa | .aca | .icr
  | .ica | .ocp _ _ | .sks _ _ | .ina _ _ _ | .smk | .otk => true

/-- The value of the mode flag DP under which the decoder picks this row: the four DP pairs of 30_encoding.md R115
differ by it, every other row is picked under both. -/
def Instr.pickedUnder (dp : Bool) : Instr → Bool
  | .lda _ | .sta _ | .add _ | .sub _ => !dp
  | .dld _ | .dst _ | .dad _ | .dsb _ => dp
  | .jmp _ | .ana _ | .era _ | .jst _ | .cas _ | .irs _ | .ima _ | .mpy _ | .div _ | .stx _ | .ldx _ | .hlt _
  | .controlMicro _ | .sgl | .dbl | .dxa | .exa | .rmp | .sca | .ink | .nrm | .iab | .enb | .inh | .lrl _ | .lrs _
  | .lrr _ | .quirk3 _ | .lgr _ | .ars _ | .arr _ | .quirk7 _ | .lll _ | .lls _ | .llr _ | .quirk13 _ | .lgl _
  | .als _ | .alr _ | .quirk17 _ | .skip _ _ | .skp | .nop | .ssc | .src | .ss1 | .sr1 | .ss2 | .sr2 | .ss3 | .sr3
  | .ss4 | .sr4 | .sss | .ssr | .snz | .sze | .sln | .slz | .sps | .spn | .smi | .spl | .chs | .cra | .ssp | .rcb
  | .csa | .cma | .tca | .ssm | .scb | .car | .cal | .icl | .aoa | .aca | .icr | .ica | .undefinedOperate _
  | .ocp _ _ | .sks _ _ | .ina _ _ _ | .ota _ _ | .smk | .otk => true

end Sys2Proof
end

