-- ==== Sys2Proof/Decode.lean ====
section
/-! DEFINITION. The decoder, total on every word, and the encoder, both written from the tables of 30_encoding.md
(R101 to R109), 43_control.md R210, 45_skip.md R272 to R293 and 46_operate.md R297. -/

namespace Sys2Proof

/-! ## Fields -/

/-- IR[9:0]. -/
def lowTen (w : Word) : BitVec 10 := w.extractLsb' 0 10

/-- OP = IR[13:10] (30_encoding.md R101). -/
def opField (w : Word) : BitVec 4 := w.extractLsb' 10 4

/-- The operand fields of a memory-reference word (30_encoding.md R102). -/
def memOpField (w : Word) : MemOp :=
  { indirect := w.getLsbD 15, indexed := w.getLsbD 14, sector := w.getLsbD 9, disp := w.extractLsb' 0 9 }

/-- The operand fields of STX and LDX (30_encoding.md R104). -/
def xferOpField (w : Word) : XferOp :=
  { indirect := w.getLsbD 15, sector := w.getLsbD 9, disp := w.extractLsb' 0 9 }

/-- The class of a word (30_encoding.md R101), decided on G = IR[15:14] :: OP. -/
def classOf (w : Word) : InstrClass :=
  if opField w = 0#4 then
    if w.extractLsb' 14 2 = 0#2 then .control
    else if w.extractLsb' 14 2 = 1#2 then .shift
    else if w.extractLsb' 14 2 = 2#2 then .skip
    else .operate
  else if opField w = 0o14#4 then .io
  else if opField w = 0o15#4 then .indexTransfer
  else .memoryReference

/-! ## The decoder, class by class -/

/-- Control words by IR[9:0] (43_control.md R210): bit 0 clear is HLT; a word with a name of its own wins over the
micro-operation row. -/
def decodeControl (m : BitVec 10) : Instr :=
  if m.getLsbD 0 = false then .hlt (m.extractLsb' 1 9)
  else if m = 0o5#10 then .sgl
  else if m = 0o7#10 then .dbl
  else if m = 0o11#10 then .dxa
  else if m = 0o13#10 then .exa
  else if m = 0o21#10 then .rmp
  else if m = 0o41#10 then .sca
  else if m = 0o43#10 then .ink
  else if m = 0o101#10 then .nrm
  else if m = 0o201#10 then .iab
  else if m = 0o401#10 then .enb
  else if m = 0o1001#10 then .inh
  else .controlMicro (m.extractLsb' 1 9)

/-- Shift words by the function F = IR[9:6] (30_encoding.md R106); `n` is the count N. -/
def decodeShift (f : BitVec 4) (n : BitVec 6) : Instr :=
  if f = 0o0#4 then .lrl n
  else if f = 0o1#4 then .lrs n
  else if f = 0o2#4 then .lrr n
  else if f = 0o3#4 then .quirk3 n
  else if f = 0o4#4 then .lgr n
  else if f = 0o5#4 then .ars n
  else if f = 0o6#4 then .arr n
  else if f = 0o7#4 then .quirk7 n
  else if f = 0o10#4 then .lll n
  else if f = 0o11#4 then .lls n
  else if f = 0o12#4 then .llr n
  else if f = 0o13#4 then .quirk13 n
  else if f = 0o14#4 then .lgl n
  else if f = 0o15#4 then .als n
  else if f = 0o16#4 then .alr n
  else .quirk17 n

/-- Skip words by IR[9:0] (45_skip.md R270, R272 to R293). -/
def decodeSkip (m : BitVec 10) : Instr :=
  if m = 0o0#10 then .skp
  else if m = 0o1000#10 then .nop
  else if m = 0o1001#10 then .ssc
  else if m = 0o1#10 then .src
  else if m = 0o1020#10 then .ss1
  else if m = 0o20#10 then .sr1
  else if m = 0o1010#10 then .ss2
  else if m = 0o10#10 then .sr2
  else if m = 0o1004#10 then .ss3
  else if m = 0o4#10 then .sr3
  else if m = 0o1002#10 then .ss4
  else if m = 0o2#10 then .sr4
  else if m = 0o1036#10 then .sss
  else if m = 0o36#10 then .ssr
  else if m = 0o1040#10 then .snz
  else if m = 0o40#10 then .sze
  else if m = 0o1100#10 then .sln
  else if m = 0o100#10 then .slz
  else if m = 0o1200#10 then .sps
  else if m = 0o200#10 then .spn
  else if m = 0o1400#10 then .smi
  else if m = 0o400#10 then .spl
  else .skip (m.getLsbD 9) (m.extractLsb' 0 9)

/-- Operate words by IR[9:0] (46_operate.md R296, R297). -/
def decodeOperate (m : BitVec 10) : Instr :=
  if m = 0o24#10 then .chs
  else if m = 0o40#10 then .cra
  else if m = 0o100#10 then .ssp
  else if m = 0o200#10 then .rcb
  else if m = 0o320#10 then .csa
  else if m = 0o401#10 then .cma
  else if m = 0o407#10 then .tca
  else if m = 0o500#10 then .ssm
  else if m = 0o600#10 then .scb
  else if m = 0o1044#10 then .car
  else if m = 0o1050#10 then .cal
  else if m = 0o1140#10 then .icl
  else if m = 0o1206#10 then .aoa
  else if m = 0o1216#10 then .aca
  else if m = 0o1240#10 then .icr
  else if m = 0o1340#10 then .ica
  else .undefinedOperate m

/-- I/O words by the sub-opcode IR[15:14] and IR[9:0] (30_encoding.md R109); SMK and OTK win over OTA (R115). -/
def decodeIo (sub : BitVec 2) (m : BitVec 10) : Instr :=
  if sub = 0#2 then .ocp (m.extractLsb' 6 4) (m.extractLsb' 0 6)
  else if sub = 1#2 then .sks (m.extractLsb' 6 4) (m.extractLsb' 0 6)
  else if sub = 2#2 then .ina (m.getLsbD 9) (m.extractLsb' 6 3) (m.extractLsb' 0 6)
  else if m = 0o20#10 then .smk
  else if m = 0o1020#10 then .otk
  else .ota (m.extractLsb' 6 4) (m.extractLsb' 0 6)

/-- Memory-reference words by OP (30_encoding.md R103); the mode flag picks the row of a DP pair (R113, R115). The
values of OP that belong to other classes (0, 0o14, 0o15) do not come here; they read as the last row. -/
def decodeMemRef (dp : Bool) (opc : BitVec 4) (op : MemOp) : Instr :=
  if opc = 0o1#4 then .jmp op
  else if opc = 0o2#4 then (if dp then .dld op else .lda op)
  else if opc = 0o3#4 then .ana op
  else if opc = 0o4#4 then (if dp then .dst op else .sta op)
  else if opc = 0o5#4 then .era op
  else if opc = 0o6#4 then (if dp then .dad op else .add op)
  else if opc = 0o7#4 then (if dp then .dsb op else .sub op)
  else if opc = 0o10#4 then .jst op
  else if opc = 0o11#4 then .cas op
  else if opc = 0o12#4 then .irs op
  else if opc = 0o13#4 then .ima op
  else if opc = 0o16#4 then .mpy op
  else .div op

/-- The instruction a word stands for while the mode flag DP has the value `dp`. Every word has exactly one
(30_encoding.md R115). -/
def decode (dp : Bool) (w : Word) : Instr :=
  match classOf w with
  | .control => decodeControl (lowTen w)
  | .shift => decodeShift (w.extractLsb' 6 4) (-(w.extractLsb' 0 6))
  | .skip => decodeSkip (lowTen w)
  | .operate => decodeOperate (lowTen w)
  | .io => decodeIo (w.extractLsb' 14 2) (lowTen w)
  | .indexTransfer => if w.getLsbD 14 then .ldx (xferOpField w) else .stx (xferOpField w)
  | .memoryReference => decodeMemRef dp (opField w) (memOpField w)

/-- Why bits are not decoded: an instruction is exactly one 16-bit word (30_encoding.md R100). -/
inductive DecodeReject where
  | notOneWord
deriving DecidableEq, Repr

/-- The decoder on bits of any number: everything but one 16-bit word is rejected by name (30_encoding.md R100). -/
def decodeBits (dp : Bool) (nbits w : Nat) : Except DecodeReject Instr :=
  if nbits = 16 then .ok (decode dp (BitVec.ofNat 16 w)) else .error .notOneWord

/-- The instruction read from the `nbits` bits of `w`, with DP as it is after reset (0, 70_reset_and_hazards.md R450;
assumption log 13). -/
def decodeTableWord (nbits w : Nat) : Option Instr :=
  match decodeBits false nbits w with
  | .ok i => some i
  | .error _ => none

/-! ## The encoder -/

/-- I, X, OP, S, D (30_encoding.md R102). -/
def memRefWord (opc : BitVec 4) (op : MemOp) : Word :=
  BitVec.ofBool op.indirect ++ BitVec.ofBool op.indexed ++ opc ++ BitVec.ofBool op.sector ++ op.disp

/-- I, the opcode bit 14, OP = 0o15, S, D (30_encoding.md R104). -/
def xferWord (load : Bool) (op : XferOp) : Word :=
  BitVec.ofBool op.indirect ++ BitVec.ofBool load ++ 0o15#4 ++ BitVec.ofBool op.sector ++ op.disp

/-- G and IR[9:0] (30_encoding.md R101). -/
def tenWord (g : BitVec 6) (m : BitVec 10) : Word := g ++ m

/-- G = 0o20, F, and the count in two's complement (30_encoding.md R106, 44_shift.md R240). -/
def shiftWord (f : BitVec 4) (n : BitVec 6) : Word := 0o20#6 ++ f ++ -n

/-- Sub-opcode, OP = 0o14, FNC, DEV (30_encoding.md R109). -/
def ioWord (sub : BitVec 2) (fnc : BitVec 4) (dev : DevNum) : Word := sub ++ 0o14#4 ++ fnc ++ dev

/-- The word of an instruction. -/
def encode : Instr → Word
  | .jmp op => memRefWord 0o1#4 op
  | .lda op => memRefWord 0o2#4 op
  | .dld op => memRefWord 0o2#4 op
  | .ana op => memRefWord 0o3#4 op
  | .sta op => memRefWord 0o4#4 op
  | .dst op => memRefWord 0o4#4 op
  | .era op => memRefWord 0o5#4 op
  | .add op => memRefWord 0o6#4 op
  | .dad op => memRefWord 0o6#4 op
  | .sub op => memRefWord 0o7#4 op
  | .dsb op => memRefWord 0o7#4 op
  | .jst op => memRefWord 0o10#4 op
  | .cas op => memRefWord 0o11#4 op
  | .irs op => memRefWord 0o12#4 op
  | .ima op => memRefWord 0o13#4 op
  | .mpy op => memRefWord 0o16#4 op
  | .div op => memRefWord 0o17#4 op
  | .stx op => xferWord false op
  | .ldx op => xferWord true op
  | .hlt bits => tenWord 0o0#6 (bits ++ 0#1)
  | .controlMicro bits => tenWord 0o0#6 (bits ++ 1#1)
  | .sgl => 0o000005#16
  | .dbl => 0o000007#16
  | .dxa => 0o000011#16
  | .exa => 0o000013#16
  | .rmp => 0o000021#16
  | .sca => 0o000041#16
  | .ink => 0o000043#16
  | .nrm => 0o000101#16
  | .iab => 0o000201#16
  | .enb => 0o000401#16
  | .inh => 0o001001#16
  | .lrl n => shiftWord 0o0#4 n
  | .lrs n => shiftWord 0o1#4 n
  | .lrr n => shiftWord 0o2#4 n
  | .quirk3 n => shiftWord 0o3#4 n
  | .lgr n => shiftWord 0o4#4 n
  | .ars n => shiftWord 0o5#4 n
  | .arr n => shiftWord 0o6#4 n
  | .quirk7 n => shiftWord 0o7#4 n
  | .lll n => shiftWord 0o10#4 n
  | .lls n => shiftWord 0o11#4 n
  | .llr n => shiftWord 0o12#4 n
  | .quirk13 n => shiftWord 0o13#4 n
  | .lgl n => shiftWord 0o14#4 n
  | .als n => shiftWord 0o15#4 n
  | .alr n => shiftWord 0o16#4 n
  | .quirk17 n => shiftWord 0o17#4 n
  | .skip sense cond => tenWord 0o40#6 (BitVec.ofBool sense ++ cond)
  | .skp => 0o100000#16
  | .nop => 0o101000#16
  | .ssc => 0o101001#16
  | .src => 0o100001#16
  | .ss1 => 0o101020#16
  | .sr1 => 0o100020#16
  | .ss2 => 0o101010#16
  | .sr2 => 0o100010#16
  | .ss3 => 0o101004#16
  | .sr3 => 0o100004#16
  | .ss4 => 0o101002#16
  | .sr4 => 0o100002#16
  | .sss => 0o101036#16
  | .ssr => 0o100036#16
  | .snz => 0o101040#16
  | .sze => 0o100040#16
  | .sln => 0o101100#16
  | .slz => 0o100100#16
  | .sps => 0o101200#16
  | .spn => 0o100200#16
  | .smi => 0o101400#16
  | .spl => 0o100400#16
  | .chs => 0o140024#16
  | .cra => 0o140040#16
  | .ssp => 0o140100#16
  | .rcb => 0o140200#16
  | .csa => 0o140320#16
  | .cma => 0o140401#16
  | .tca => 0o140407#16
  | .ssm => 0o140500#16
  | .scb => 0o140600#16
  | .car => 0o141044#16
  | .cal => 0o141050#16
  | .icl => 0o141140#16
  | .aoa => 0o141206#16
  | .aca => 0o141216#16
  | .icr => 0o141240#16
  | .ica => 0o141340#16
  | .undefinedOperate bits => tenWord 0o60#6 bits
  | .ocp fnc dev => ioWord 0#2 fnc dev
  | .sks fnc dev => ioWord 1#2 fnc dev
  | .ina clear fnc dev => ioWord 2#2 (BitVec.ofBool clear ++ fnc) dev
  | .ota fnc dev => ioWord 3#2 fnc dev
  | .smk => 0o170020#16
  | .otk => 0o171020#16

/-- The class an instruction belongs to (30_encoding.md R101). -/
def Instr.cls : Instr → InstrClass
  | .jmp _ | .lda _ | .dld _ | .ana _ | .sta _ | .dst _ | .era _ | .add _ | .dad _ | .sub _ | .dsb _ | .jst _
  | .cas _ | .irs _ | .ima _ | .mpy _ | .div _ => .memoryReference
  | .stx _ | .ldx _ => .indexTransfer
  | .hlt _ | .controlMicro _ | .sgl | .dbl | .dxa | .exa | .rmp | .sca | .ink | .nrm | .iab | .enb | .inh => .control
  | .lrl _ | .lrs _ | .lrr _ | .quirk3 _ | .lgr _ | .ars _ | .arr _ | .quirk7 _ | .lll _ | .lls _ | .llr _
  | .quirk13 _ | .lgl _ | .als _ | .alr _ | .quirk17 _ => .shift
  | .skip _ _ | .skp | .nop | .ssc | .src | .ss1 | .sr1 | .ss2 | .sr2 | .ss3 | .sr3 | .ss4 | .sr4 | .sss | .ssr
  | .snz | .sze | .sln | .slz | .sps | .spn | .smi | .spl => .skip
  | .chs | .cra | .ssp | .rcb | .csa | .cma | .tca | .ssm | .scb | .car | .cal | .icl | .aoa | .aca | .icr | .ica
  | .undefinedOperate _ => .operate
  | .ocp _ _ | .sks _ _ | .ina _ _ _ | .ota _ _ | .smk | .otk => .io

end Sys2Proof
end

