-- ==== Sys2Proof/Config.lean ====
section
/-! DEFINITION. What an implementation or the outside world fixes (00_scope.md R9): the configuration, the device
callback's interface (47_io.md R320), and the free values the spec leaves open (00_scope.md R15), each an opaque
constant that no proof can evaluate. -/

namespace Sys2Proof

/-! ## Stop reasons and the device callback's interface -/

/-- The symbolic stop reasons (60_exceptions.md R401). `device` carries a device's own code, which the core passes
on unread. -/
inductive StopReason where
  | rsrv | iodv | halt | ibkpt | ind | dmaer | wbkpt
  | device (code : Nat)
deriving DecidableEq, Repr, Inhabited

/-- The operation of a device callback (47_io.md R320); `fin` is the rule's END, end of range. -/
inductive IoOp where
  | ocp | sks | ina | ota | fin
deriving DecidableEq, Repr, Inhabited

/-- One call of a device callback: `IoCall(op, fnc, data, dev)` (47_io.md R320). -/
structure IoCall where
  op : IoOp
  fnc : BitVec 4
  data : Word
  dev : DevNum
deriving DecidableEq, Repr, Inhabited

/-- What a callback returns: skip, stop reason and data (47_io.md R320). -/
structure IoReply where
  skip : Bool
  stop : Option StopReason
  data : Word
deriving DecidableEq, Repr, Inhabited

/-- Request bits an agent clears and then sets: standard lines, extended lines, channels (10_state.md R55, R56). -/
structure RequestChange where
  intClear : BitVec 16
  intSet : BitVec 16
  xintClear : BitVec 16
  xintSet : BitVec 16
  chanClear : BitVec 20
  chanSet : BitVec 20
deriving DecidableEq, Repr, Inhabited

/-- A device's whole answer to one call: the reply, and what it does to its request bits during the call
(47_io.md R321). -/
structure DeviceAnswer where
  reply : IoReply
  requests : RequestChange
deriving DecidableEq, Repr, Inhabited

/-! ## The configuration -/

/-- `DP_ODD`: a double-precision access at an odd address (42_memory_reference.md R190). -/
inductive DpOdd where
  | fault | pair
deriving DecidableEq, Repr

/-- The configuration (00_scope.md R9). It is kept as plain data in the machine state, where no step changes it
(10_state.md R50, assumption log 1), so that a statement about every state is about every configuration.
`registered` lists the devices, other than the CPU's own, that have a callback (47_io.md R322). `shiftChoice` and
`gateChoice` say which functions `SHIFT_QUIRK` and `OPERATE_GATE` are: the state is plain data and holds no function, so
each is a number in a family of open functions (assumption logs 11 and 12). `OPT_XINT` has no field of its own: the
extended interrupt option is there when `nXint` is above 0 (00_scope.md R3, R9; DESIGN CHOICE, assumption log 24). -/
structure Config where
  memSize : Nat
  optExt : Bool
  optHsa : Bool
  nDma : Nat
  nDmc : Nat
  nXint : Nat
  indMax : Nat
  stopInst : Bool
  stopDev : Bool
  stdVec : Addr
  xintBase : Addr
  dmcBase : Addr
  lineMpe : Fin 16
  dpOdd : DpOdd
  startReq : Bool
  cpu020Skip : Bool
  execBkpt : List Addr
  writeBkpt : List Addr
  chanMap : Vector (Option DevNum) 20
  registered : List DevNum
  shiftChoice : Nat
  gateChoice : Nat
deriving DecidableEq, Repr

/-- The ranges of 00_scope.md R9 and the vector bound of 49_main_loop.md R374. A configuration outside them is one
the spec refuses (93_implementation_defined.md part 2; assumption log 9). -/
def Config.wf (k : Config) : Bool :=
  decide (1 ≤ k.memSize) && decide (k.memSize ≤ 32768) && decide (k.nDma ≤ 4) && decide (k.nDmc ≤ 16)
    && decide (k.nXint ≤ 16) && decide (1 ≤ k.indMax) && decide (k.stdVec.toNat < 0o1000)
    && decide (k.xintBase.toNat + 15 < 0o1000)

/-- The default configuration of 95_test_vectors.md (its conventions) and 00_scope.md R9. Neither gives `N_DMA`, `N_DMC`
and `N_XINT`, for which R9 has ranges alone: 4, 16 and 16, the most each allows, are the model's choice. So are the
absence of registered devices other than the CPU's own and of mapped channels, and the numbers of the two open functions
(DESIGN CHOICE, unsafe for the reset state, assumption log 1). -/
def Config.default : Config where
  memSize := 32768
  optExt := true
  optHsa := true
  nDma := 4
  nDmc := 16
  nXint := 16
  indMax := 8
  stopInst := true
  stopDev := true
  stdVec := 0o63#15
  xintBase := 0o64#15
  dmcBase := 0o20#15
  lineMpe := 1
  dpOdd := .fault
  startReq := false
  cpu020Skip := false
  execBkpt := []
  writeBkpt := []
  chanMap := Vector.replicate 20 none
  registered := []
  shiftChoice := 0
  gateChoice := 0

/-! ## Draws (00_scope.md R15; assumption log 5)

Each is applied to the state's counter of draws, so that every draw is a value of its own. -/

/-- SC after a shift, an IAB or a reset (44_shift.md R241, 43_control.md R221, 70_reset_and_hazards.md R450). -/
opaque Config.freeSc : Nat → BitVec 6

/-- C after a shift by 0 or an MPY (44_shift.md R241, 42_memory_reference.md R186). -/
opaque Config.freeC : Nat → Bool

/-- AR after a quotient overflow of DIV (42_memory_reference.md R187). -/
opaque Config.freeAr : Nat → Word

/-- BR after a quotient overflow of DIV (42_memory_reference.md R187). -/
opaque Config.freeBr : Nat → Word

/-- A device's answer where the state holds none ready (47_io.md R321; assumption log 6). -/
opaque Config.freeAnswer : Nat → IoCall → DeviceAnswer

/-! ## The quirk shifts (44_shift.md R256; assumption log 11) -/

/-- The four quirk shift functions, F = 3, 7, 0o13, 0o17. -/
inductive QuirkFn where
  | f3 | f7 | f13 | f17
deriving DecidableEq, Repr

/-- AR, BR and C as a shift sees them. -/
structure ShiftRegs where
  ar : Word
  br : Word
  c : Bool
deriving DecidableEq, Repr, Inhabited

/-- `SHIFT_QUIRK(F, N, AR, BR, C)`, the OPEN function of 44_shift.md R256, one for each number `shiftChoice` of a
configuration (10_state.md R50). -/
opaque Config.shiftQuirk : Nat → QuirkFn → BitVec 6 → ShiftRegs → ShiftRegs

/-! ## The gate network of the undefined operate words (46_operate.md R315 to R318; assumption log 12)

Each signal is an open function of the mask bits m7 to m16, that is IR[9:0], and of the number `gateChoice` of a
configuration, since the host may change `OPERATE_GATE` (10_state.md R50). -/

/-- The three control signals of the translate phase (46_operate.md R316). -/
structure TranslateSignals where
  jam : Bool
  enableSumLeg : Bool
  carryIn : Bool
deriving DecidableEq, Repr, Inhabited

/-- The nine gate signals of the t4 phase (46_operate.md R318). -/
structure TransferSignals where
  clearA : Bool
  clearSign : Bool
  hiToHi : Bool
  loToLo : Bool
  hiToLo : Bool
  loToHi : Bool
  setC : Bool
  setCovf : Bool
  setCtop : Bool
deriving DecidableEq, Repr, Inhabited

/-- J, E and K of 46_operate.md R316. -/
opaque Config.gateTranslate : Nat → BitVec 10 → TranslateSignals

/-- The forced signals of the repeated translate phase (46_operate.md R317). -/
opaque Config.gateForced : Nat → BitVec 10 → TranslateSignals

/-- The numbers p and q of the two bits that select the repeat phase (46_operate.md R317). -/
opaque Config.gateRepeatBits : Nat → Fin 10 × Fin 10

/-- The gate signals of 46_operate.md R318. -/
opaque Config.gateTransfer : Nat → BitVec 10 → TransferSignals

/-- Whether C is cleared before the three conditions of 46_operate.md R318, which the rule leaves open. -/
opaque Config.gateClearsC : Nat → BitVec 10 → Bool

/-- Whether the last condition of 46_operate.md R318 reads the AR that phase 1 was repeated with, which the rule
leaves open. -/
opaque Config.gateTopAfterPhase1 : Nat → Bool

/-- Whether the t4 phase starts from the AR that phase 1 was repeated with (46_operate.md R317 says both "a new AR"
and AR_in). -/
opaque Config.gateResultFromFedBack : Nat → Bool

end Sys2Proof
end

