-- ==== Sys2Proof/Machine/State.lean ====
section
/-! DEFINITION. The machine's state (10_state.md), as plain data, the reasons a step ends without a next state, and
the state after reset (70_reset_and_hazards.md R450). -/

namespace Sys2Proof.Machine

/-- Main memory (10_state.md R51): byte cells in the package's canonical form. The word at address a is the cells
2a (bits 15:8) and 2a + 1 (bits 7:0); the order of the two is not observable (20_memory.md R82, assumption log 3). -/
abbrev Memory := List Host.Cell

/-- RUN (10_state.md R48). -/
inductive Run where
  | running
  | stopped (reason : StopReason)
deriving DecidableEq, Repr

/-- The registers of one DMA channel (10_state.md R45): `ad` holds the direction in bit 15 and the current address in
bits 14:0. -/
structure DmaChannel where
  ad : Word
  wc : BitVec 15
  eor : Bool
deriving DecidableEq, Repr

/-- Everything the spec gives the machine (10_state.md). XR is not here: it is a view of memory (R32). The last three
fields are the model's own (assumption logs 5 and 6): answers the devices have ready, the calls made to them (latest
first), and the number of free values drawn. -/
structure State where
  /-- AR, the accumulator (R30). -/
  ar : Word
  /-- BR, the B register (R31). -/
  br : Word
  /-- PC (R33). -/
  pc : Addr
  /-- C, the overflow/carry flag (R34). -/
  c : Bool
  /-- EXT, extend mode (R35). -/
  ext : Bool
  /-- EXTOFF, extend-off pending (R36). -/
  extoff : Bool
  /-- PME, the previous extend mode (R37). -/
  pme : Bool
  /-- DP, double-precision mode (R38). -/
  dp : Bool
  /-- SC, the shift counter (R39). -/
  sc : BitVec 6
  /-- SS1, a sense switch (R40). -/
  ss1 : Bool
  /-- SS2, a sense switch (R40). -/
  ss2 : Bool
  /-- SS3, a sense switch (R40). -/
  ss3 : Bool
  /-- SS4, a sense switch (R40). -/
  ss4 : Bool
  /-- INT_REQ, the standard request lines (R41). -/
  intReq : BitVec 16
  /-- INT_ON, interrupts on (R42). -/
  intOn : Bool
  /-- INT_NODEF, interrupts not deferred (R42). -/
  intNodef : Bool
  /-- INT_START, the start button (R42). -/
  intStart : Bool
  /-- INT_ENB, the standard enable mask (R43). -/
  intEnb : BitVec 16
  /-- XINT_REQ, the extended request lines (R44). -/
  xintReq : BitVec 16
  /-- XINT_ENB, the extended enable mask (R44). -/
  xintEnb : BitVec 16
  /-- DMA_AD, DMA_WC and DMA_EOR of the four DMA channels (R45). -/
  dma : Vector DmaChannel 4
  /-- CHAN_REQ, the channel requests (R47). -/
  chanReq : BitVec 20
  /-- RUN (R48). -/
  run : Run
  /-- M, main memory (R51). -/
  mem : Memory
  /-- The configuration (R50; assumption log 1). -/
  cfg : Config
  /-- Answers ready for the coming device calls, oldest first (assumption log 6). -/
  deviceAnswers : List DeviceAnswer
  /-- The device calls made so far, latest first (assumption log 6). -/
  deviceCalls : List IoCall
  /-- How many free values have been drawn (assumption log 5). -/
  draws : Nat
deriving DecidableEq, Repr

/-- The double-precision instruction a fault names (42_memory_reference.md R190). -/
inductive DoubleOp where
  | dld | dst | dad | dsb
deriving DecidableEq, Repr

/-- Why a step ends with no state at all. None of these is an architectural stop: a stop is a next state whose `run`
is `stopped` (60_exceptions.md R400). -/
inductive Fault where
  /-- Raised by DLD, DST, DAD and DSB at an odd address when `DP_ODD` is `fault` (42_memory_reference.md R190). Safe:
  the spec defines no state here. -/
  | oddDoubleAddress (op : DoubleOp) (address : Addr)
  /-- Raised by the channel engine for a request whose channel has no device (48_channels.md R352). Safe: the spec
  defines no state here. -/
  | unmappedChannel (channel : Fin 20)
  /-- Raised by `step` on a stopped CPU, which has no step (10_state.md R48). Safe: nothing runs. -/
  | cpuStopped
deriving DecidableEq, Repr

/-- Why a step is refused. -/
inductive Refusal where
  /-- Raised in `exec`'s arm of an instruction that has no meaning yet. Safe: nothing is claimed of it. -/
  | notModelled (mnemonic : String)
  /-- Raised by `step` where the configuration is outside the ranges of 00_scope.md R9
  (93_implementation_defined.md part 2 refuses it; assumption log 9). Safe: nothing runs. -/
  | badConfiguration
deriving DecidableEq, Repr

/-- The outcome of a meaning or a step. -/
abbrev Result := Host.Outcome State Fault Refusal

/-- The machine right after reset: what `Reset()` of 70_reset_and_hazards.md R450 leaves of an all-zero machine, the
example of R454, with the default configuration and the CPU running. R450 leaves AR, BR, PC, the sense switches and
memory unchanged and SC a draw; their values here are DESIGN CHOICES (assumption logs 1, 2 and 4). -/
def State.reset : State where
  ar := 0
  br := 0
  pc := 0
  c := false
  ext := false
  extoff := false
  pme := false
  dp := false
  sc := 0
  ss1 := false
  ss2 := false
  ss3 := false
  ss4 := false
  intReq := 0
  intOn := false
  intNodef := false
  intStart := false
  intEnb := 0
  xintReq := 0
  xintEnb := 0
  dma := Vector.replicate 4 { ad := 0, wc := 0, eor := false }
  chanReq := 0
  run := .running
  mem := []
  cfg := .default
  deviceAnswers := []
  deviceCalls := []
  draws := 0

end Sys2Proof.Machine
end

