-- ==== Sys2Proof/Machine/Ops.lean ====
section
/-! DEFINITION. The named operations over memory and registers: byte cells, the memory primitives of 20_memory.md,
the bank merge, the XR view, PC updates, stops, draws, and taking an interrupt with its synthesized instruction
(60_exceptions.md R421, R422) and the jump that returns from one (R424). -/

namespace Sys2Proof.Machine

/-! ## Byte cells -/

/-- What a byte that is not listed reads as (DESIGN CHOICE, assumption log 4). -/
def unlistedByte : Byte := 0

/-- The byte at a key. -/
def Memory.readByte : Memory → Nat → Byte
  | [], _ => unlistedByte
  | (k, v) :: m, a => if k = a then v else Memory.readByte m a

/-- The memory with no cell at a key. -/
def Memory.erase : Memory → Nat → Memory
  | [], _ => []
  | (k, v) :: m, a => if k = a then Memory.erase m a else (k, v) :: Memory.erase m a

/-- The memory with a cell put before the first cell of a greater key. -/
def Memory.insert : Memory → Nat → Byte → Memory
  | [], a, v => [(a, v)]
  | (k, w) :: m, a, v => if a < k then (a, v) :: (k, w) :: m else (k, w) :: Memory.insert m a v

/-- The memory after a byte is written. -/
def Memory.writeByte (m : Memory) (a : Nat) (v : Byte) : Memory :=
  if v = unlistedByte then m.erase a else (m.erase a).insert a v

/-- Keys strictly rise from a lower bound, stay inside the 32768 words, and no listed byte is the unlisted one. -/
def Memory.wfFrom : Nat → Memory → Bool
  | _, [] => true
  | lo, (k, v) :: m => decide (lo ≤ k) && decide (k < 65536) && !decide (v = unlistedByte) && Memory.wfFrom (k + 1) m

/-- The canonical form of memory: equal memories are equal lists. -/
def Memory.wf (m : Memory) : Bool := Memory.wfFrom 0 m

/-- The word cell M[a] (10_state.md R51). -/
def Memory.readWord (m : Memory) (a : Addr) : Word := m.readByte (2 * a.toNat) ++ m.readByte (2 * a.toNat + 1)

/-- M[a] <- v. -/
def Memory.writeWord (m : Memory) (a : Addr) (v : Word) : Memory :=
  (m.writeByte (2 * a.toNat) (v.extractLsb' 8 8)).writeByte (2 * a.toNat + 1) (v.extractLsb' 0 8)

/-! ## The memory primitives -/

/-- `MemRead(a)`, and `ChanRead(a)` (20_memory.md R73, R77). -/
def State.memRead (s : State) (a : Addr) : Word := if a.toNat < s.cfg.memSize then s.mem.readWord a else 0

/-- `ChanWrite(a, v)`, and the write of XR's cell by LDX: gated by the memory size alone (20_memory.md R77, R79). -/
def State.setCell (s : State) (a : Addr) (v : Word) : State :=
  { s with mem := if a.toNat < s.cfg.memSize then s.mem.writeWord a v else s.mem }

/-- Whether `MemWrite` performs a write to this address (20_memory.md R74, R75). -/
def State.writable (s : State) (a : Addr) : Bool :=
  (decide (a = 0) || decide (0o20 ≤ a.toNat)) && decide (a.toNat < s.cfg.memSize)

/-- The memory change of `MemWrite(a, v)` (20_memory.md R74). -/
def State.memWrite (s : State) (a : Addr) (v : Word) : State :=
  { s with mem := if s.writable a then s.mem.writeWord a v else s.mem }

/-- `WRITE_BKPT(a)`, the status of `MemWrite`, whether or not the write was performed (20_memory.md R74, R76). -/
def State.writeBreak (s : State) (a : Addr) : Bool := s.cfg.writeBkpt.contains a

/-- `EXEC_BKPT(a)` (60_exceptions.md R403). -/
def State.execBreak (s : State) (a : Addr) : Bool := s.cfg.execBkpt.contains a

/-! ## Addresses and PC -/

/-- `NEWA(x, y)` on words (20_memory.md R80). -/
def newaWord (ext : Bool) (x y : Word) : Word :=
  if ext then y &&& 0o077777#16 else (x &&& 0o140000#16) ||| (y &&& 0o037777#16)

/-- `NEWA(x, y)` where x is PC or an address (20_memory.md R80). -/
def State.newa (s : State) (x : Addr) (y : Word) : Addr := (newaWord s.ext (x.setWidth 16) y).setWidth 15

/-- `PC <- NEWA(PC, y)`. -/
def State.setPc (s : State) (y : Word) : State := { s with pc := s.newa s.pc y }

/-- `PC <- NEWA(PC, PC + 1)`: the fetch increment and `skip` (00_scope.md R14). -/
def State.skip (s : State) : State := s.setPc (s.pc.setWidth 16 + 1)

/-- `PC <- NEWA(PC, PC + 2)` (42_memory_reference.md R180). -/
def State.skip2 (s : State) : State := s.setPc (s.pc.setWidth 16 + 2)

/-- A skip taken on a condition. -/
def State.skipIf (s : State) (cond : Bool) : State := { s with pc := if cond then s.skip.pc else s.pc }

/-! ## XR -/

/-- XA, the shadow address of XR (20_memory.md R78). -/
def State.xrAddr (s : State) : Addr := if s.ext then 0 else s.pc &&& 0o40000#15

/-- XR (20_memory.md R79). -/
def State.xr (s : State) : Word := s.memRead s.xrAddr

/-- `XR <- v` (20_memory.md R79). -/
def State.setXr (s : State) (v : Word) : State := s.setCell s.xrAddr v

/-! ## Stops and draws -/

/-- `raise Stop(reason)`: RUN changes and nothing else (60_exceptions.md R400). -/
def State.stop (s : State) (reason : StopReason) : State := { s with run := .stopped reason }

/-- A stop raised where there is a reason for one. -/
def State.stopOn (s : State) (reason : Option StopReason) : State :=
  { s with run := match reason with | none => s.run | some r => .stopped r }

/-- An illegal instruction: `RSRV` when `STOP_INST` is set (60_exceptions.md R405). -/
def State.illegal (s : State) : State := s.stopOn (if s.cfg.stopInst then some .rsrv else none)

/-- `SC <- draw` (00_scope.md R15; assumption log 5). -/
def State.drawSc (s : State) : State := { s with sc := Config.freeSc s.draws, draws := s.draws + 1 }

/-- `C <- draw` (00_scope.md R15; assumption log 5). -/
def State.drawC (s : State) : State := { s with c := Config.freeC s.draws, draws := s.draws + 1 }

/-- `AR <- draw ; BR <- draw` (42_memory_reference.md R187; assumption log 5). -/
def State.drawArBr (s : State) : State :=
  { s with ar := Config.freeAr s.draws, br := Config.freeBr s.draws, draws := s.draws + 1 }

/-! ## Taking an interrupt, and returning from one -/

/-- `InterruptEntry()` (60_exceptions.md R421). The return address is saved by the synthesized instruction. -/
def State.interruptEntry (s : State) : State :=
  { s with pme := s.ext, ext := s.ext || s.cfg.optExt, extoff := false, intOn := false }

/-- The synthesized instruction word, JST* through the vector (60_exceptions.md R422). -/
def interruptWord (vec : Addr) : Word := 0o120000#16 ||| vec.setWidth 16

/-- The jump of JMP, by which a handler returns (60_exceptions.md R424): PC is merged with the old EXT, then a pending
extend-off takes effect (42_memory_reference.md R171, R179). -/
def State.jump (s : State) (y : Word) : State :=
  { s with pc := s.newa s.pc y, ext := s.ext && !s.extoff, extoff := false }

end Sys2Proof.Machine
end

