-- ==== Sys2Proof/Machine/Control.lean ====
section
/-! DEFINITION. The control class (43_control.md R210 to R224). A control word runs its sub-operations in the order of
R211, each on the state the one before left; `controlWord` is that, and a named word is its own bits (R115). -/

namespace Sys2Proof.Machine

/-- The state while a control word runs, and whether a sub-operation was illegal (43_control.md R211). -/
structure ControlRun where
  state : State
  bad : Bool
deriving DecidableEq, Repr

/-- A sub-operation that needs an option: without it nothing is done and the word is illegal (43_control.md R211). -/
def ControlRun.gated (r : ControlRun) (option : Bool) (body : State → State) : ControlRun :=
  { state := if option then body r.state else r.state, bad := r.bad || !option }

/-- A sub-operation that needs no option. -/
def ControlRun.plain (r : ControlRun) (body : State → State) : ControlRun := { r with state := body r.state }

/-- A sub-operation that runs only where its bit is set. -/
def ControlRun.onBit (r : ControlRun) (bit : Bool) (body : ControlRun → ControlRun) : ControlRun :=
  if bit then body r else r

/-- SGL and DBL: `DP <- IR[1]` (43_control.md R214). -/
def State.setPrecision (bit1 : Bool) (s : State) : State := { s with dp := bit1 }

/-- EXA enters extend mode; DXA leaves it at the next JMP or JST (43_control.md R215). -/
def State.setExtend (bit1 : Bool) (s : State) : State := { s with ext := s.ext || bit1, extoff := !bit1 }

/-- RMP (43_control.md R216). -/
def State.clearParity (s : State) : State := { s with intReq := s.intReq &&& ~~~(1#16 <<< s.cfg.lineMpe.val) }

/-- SCA: the low 5 bits of SC (43_control.md R217). -/
def State.readShiftCount (s : State) : State := { s with ar := (s.sc.extractLsb' 0 5).setWidth 16 }

/-- The readback word of INK: C, DP, PME, zeros, SC[4:0] (43_control.md R218). -/
def State.keys (s : State) : Word :=
  BitVec.ofBool s.c ++ BitVec.ofBool s.dp ++ BitVec.ofBool s.pme ++ 0#8 ++ s.sc.extractLsb' 0 5

/-- INK (43_control.md R218). -/
def State.readKeys (s : State) : State := { s with ar := s.keys }

/-- One step of NRM on AR and BR: A:B[14:0] shifted left, both sign bits kept (43_control.md R219). -/
def normalizeStep (ar br : Word) : Word × Word :=
  ((ar &&& 0o100000#16) ||| ((ar <<< 1) &&& 0o077777#16) ||| (BitVec.ofBool (br.getLsbD 14)).setWidth 16,
   (br &&& 0o100000#16) ||| ((br <<< 1) &&& 0o077777#16))

/-- NRM's loop with `fuel` steps left and `n` done: AR, BR and the number of steps (43_control.md R219). -/
def normalizeLoop : Nat → Nat → Word → Word → Word × Word × Nat
  | 0, n, ar, br => (ar, br, n)
  | fuel + 1, n, ar, br =>
    if ar.getLsbD 15 = ar.getLsbD 14 then
      normalizeLoop fuel (n + 1) (normalizeStep ar br).1 (normalizeStep ar br).2
    else (ar, br, n)

/-- NRM: at most 32 steps, `SC <- n mod 32` (43_control.md R219). -/
def State.normalize (s : State) : State :=
  { s with
    ar := (normalizeLoop 32 0 s.ar s.br).1
    br := (normalizeLoop 32 0 s.ar s.br).2.1
    sc := BitVec.ofNat 6 ((normalizeLoop 32 0 s.ar s.br).2.2 % 32) }

/-- IAB; SC is a draw (43_control.md R220, R221). -/
def State.interchange (s : State) : State := { s.drawSc with ar := s.br, br := s.ar }

/-- ENB: interrupts on, the first one deferred (43_control.md R222). -/
def State.enable (s : State) : State := { s with intOn := true, intNodef := false }

/-- INH (43_control.md R223). -/
def State.inhibit (s : State) : State := { s with intOn := false }

/-- Bit 5 of a control word: INK needs no option, SCA needs the arithmetic option (43_control.md R217, R218). -/
def ControlRun.readback (r : ControlRun) (bit1 : Bool) : ControlRun :=
  if bit1 then r.plain State.readKeys else r.gated r.state.cfg.optHsa State.readShiftCount

/-- Exactly one of bit 5, else bit 6, else bit 7 (43_control.md R211 (4)). -/
def ControlRun.exclusive (r : ControlRun) (m : BitVec 10) : ControlRun :=
  if m.getLsbD 5 then r.readback (m.getLsbD 1)
  else if m.getLsbD 6 then r.gated r.state.cfg.optHsa State.normalize
  else if m.getLsbD 7 then r.plain State.interchange
  else r

/-- The sub-operations of a control word IR[9:0], in the order of 43_control.md R211. -/
def controlOps (m : BitVec 10) (s : State) : ControlRun :=
  let r0 : ControlRun := { state := s, bad := false }
  let r1 := r0.onBit (m.getLsbD 2) fun r => r.gated r.state.cfg.optHsa (State.setPrecision (m.getLsbD 1))
  let r2 := r1.onBit (m.getLsbD 3) fun r => r.gated r.state.cfg.optExt (State.setExtend (m.getLsbD 1))
  let r3 := r2.onBit (m.getLsbD 4) fun r => r.plain State.clearParity
  let r4 := r3.exclusive m
  let r5 := r4.onBit (m.getLsbD 8) fun r => r.plain State.enable
  r5.onBit (m.getLsbD 9) fun r => r.plain State.inhibit

/-- A control word with bit 0 set: its sub-operations, then a stop if one was illegal and `STOP_INST` is set
(43_control.md R211). -/
def controlWord (m : BitVec 10) (s : State) : Result :=
  .next (if (controlOps m s).bad then (controlOps m s).state.illegal else (controlOps m s).state)

/-- HLT; bits 9:1 are ignored (43_control.md R212). -/
def execHlt (_bits : BitVec 9) (s : State) : Result := .next (s.stop .halt)

/-- A control word without a row of its own (43_control.md R211, R213, R224). -/
def execControlMicro (bits : BitVec 9) (s : State) : Result := controlWord (bits ++ 1#1) s

/-- SGL (43_control.md R214). -/
def execSgl (s : State) : Result := controlWord 0o0005#10 s

/-- DBL (43_control.md R214). -/
def execDbl (s : State) : Result := controlWord 0o0007#10 s

/-- DXA (43_control.md R215). -/
def execDxa (s : State) : Result := controlWord 0o0011#10 s

/-- EXA (43_control.md R215). -/
def execExa (s : State) : Result := controlWord 0o0013#10 s

/-- RMP (43_control.md R216). -/
def execRmp (s : State) : Result := controlWord 0o0021#10 s

/-- SCA (43_control.md R217). -/
def execSca (s : State) : Result := controlWord 0o0041#10 s

/-- INK (43_control.md R218). -/
def execInk (s : State) : Result := controlWord 0o0043#10 s

/-- NRM (43_control.md R219). -/
def execNrm (s : State) : Result := controlWord 0o0101#10 s

/-- IAB (43_control.md R220, R221). -/
def execIab (s : State) : Result := controlWord 0o0201#10 s

/-- ENB (43_control.md R222). -/
def execEnb (s : State) : Result := controlWord 0o0401#10 s

/-- INH (43_control.md R223). -/
def execInh (s : State) : Result := controlWord 0o1001#10 s

end Sys2Proof.Machine
end

