-- ==== Sys2Proof/Machine/Flags.lean ====
section
/-! DEFINITION. The adders and the value they give C (41_adders.md). C is the signed-overflow indicator; no carry out
is kept (R164). -/

namespace Sys2Proof.Machine

/-- The overflow condition of a 16-bit addition with a carry in (41_adders.md R160, 46_operate.md R316). -/
def overflow16 (v1 v2 r : Word) : Bool := v1.getLsbD 15 == v2.getLsbD 15 && r.getLsbD 15 != v1.getLsbD 15

/-- The overflow condition of a 31-bit addition (41_adders.md R161). -/
def overflow31 (v1 v2 r : Double) : Bool := v1.getLsbD 30 == v2.getLsbD 30 && r.getLsbD 30 != v1.getLsbD 30

/-- `AR <- Add16(v1, v2)` with its effect on C (41_adders.md R160). -/
def State.add16 (s : State) (v1 v2 : Word) : State := { s with ar := v1 + v2, c := overflow16 v1 v2 (v1 + v2) }

/-- The C of `Add31(v1, v2)` (41_adders.md R161). -/
def State.flag31 (s : State) (v1 v2 : Double) : State := { s with c := overflow31 v1 v2 (v1 + v2) }

end Sys2Proof.Machine
end

