-- ==== Sys2Proof/Machine/Operands.lean ====
section
/-! DEFINITION. The operand forms: the effective-address resolver `Ea` in both modes (40_effective_address.md), the
word pair of a double-precision access (42_memory_reference.md R190), the double-length packing (41_adders.md R163),
and the two ways a memory-reference meaning uses them: after `Ea`, and after a store. -/

namespace Sys2Proof.Machine

/-! ## Effective addresses -/

/-- The page of the instruction's own address, PC - 1, where S = 1 (40_effective_address.md R141). -/
def State.page (s : State) (sector : Bool) : Word :=
  if sector then ((s.pc - 1) &&& 0o77000#15).setWidth 16 else 0

/-- `Y0` (40_effective_address.md R141). -/
def State.initialAddress (s : State) (op : MemOp) : Word :=
  ((BitVec.ofBool op.indirect ++ 0#6) ++ op.disp) ||| s.page op.sector

/-- The indirection of extended mode, with `hops` hops left (40_effective_address.md R142, R144). -/
def State.chaseExtended (s : State) : Nat → Word → Option Word
  | 0, y => if y.getLsbD 15 then none else some y
  | hops + 1, y => if y.getLsbD 15 then s.chaseExtended hops (s.memRead (y.setWidth 15)) else some y

/-- The indirection of non-extended mode, with `hops` hops left: `w` is the word last obtained and `y` the address it
gave (40_effective_address.md R143, R144). -/
def State.chaseBanked (s : State) : Nat → Word → Addr → Option Addr
  | 0, w, y => if w.getLsbD 15 then none else some y
  | hops + 1, w, y =>
    if w.getLsbD 15 then
      s.chaseBanked hops (s.memRead y) (s.newa y (s.memRead y + (if (s.memRead y).getLsbD 14 then s.xr else 0)))
    else some y

/-- `Ea` in extended mode (40_effective_address.md R142). -/
def State.eaExtended (s : State) (op : MemOp) : Option Addr :=
  (s.chaseExtended s.cfg.indMax (s.initialAddress op)).map
    fun y => (y + (if op.indexed then s.xr else 0)).setWidth 15

/-- `Ea` in non-extended mode (40_effective_address.md R143). The first word tested is the instruction, of which only
the indirect bit counts. -/
def State.eaBanked (s : State) (op : MemOp) : Option Addr :=
  s.chaseBanked s.cfg.indMax (BitVec.ofBool op.indirect ++ 0#15)
    (s.newa s.pc (s.initialAddress op + (if op.indexed then s.xr else 0)))

/-- `Ea(IR)`: the effective address, or none for `stop(IND)` (40_effective_address.md R140). -/
def State.ea (s : State) (op : MemOp) : Option Addr := if s.ext then s.eaExtended op else s.eaBanked op

/-- A memory-reference instruction begins with `Ea`; `stop(IND)` ends it with nothing done
(42_memory_reference.md R170). -/
def State.withEa (s : State) (op : MemOp) (body : Addr → Result) : Result :=
  match s.ea op with
  | none => .next (s.stop .ind)
  | some y => body y

/-- `MemWrite`, then a stop with `WBKPT` or the rest of the instruction (42_memory_reference.md R170). -/
def State.storeThen (s : State) (y : Addr) (v : Word) (rest : State → Result) : Result :=
  if s.writeBreak y then .next ((s.memWrite y v).stop .wbkpt) else rest (s.memWrite y v)

/-! ## Double-length operands -/

/-- The first word of the pair at Y: Y with bit 0 cleared (42_memory_reference.md R190). -/
def evenOf (y : Addr) : Addr := y &&& 0o77776#15

/-- The second word of the pair at Y: Y with bit 0 set (42_memory_reference.md R190). -/
def oddOf (y : Addr) : Addr := y ||| 1#15

/-- Whether a double-precision access at Y has a meaning (42_memory_reference.md R190). -/
def State.pairAllowed (s : State) (y : Addr) : Bool :=
  match s.cfg.dpOdd with
  | .fault => !y.getLsbD 0
  | .pair => true

/-- A double-precision instruction after `Ea`: an odd address is governed by `DP_ODD`
(42_memory_reference.md R189, R190). -/
def State.withPair (s : State) (name : DoubleOp) (op : MemOp) (body : Addr → Addr → Result) : Result :=
  s.withEa op fun y =>
    if s.pairAllowed y then body (evenOf y) (oddOf y) else .fault (.oddDoubleAddress name y)

/-- `W31(h, l)` (41_adders.md R163). -/
def w31 (h l : Word) : Double := h ++ l.extractLsb' 0 15

/-- `PUT31(r)`: B's sign bit is kept (41_adders.md R163). -/
def State.put31 (s : State) (r : Double) : State :=
  { s with ar := r.extractLsb' 15 16, br := BitVec.ofBool (s.br.getLsbD 15) ++ r.extractLsb' 0 15 }

/-- `PUT31Z(p)`: B's sign bit is cleared (41_adders.md R163). -/
def State.put31z (s : State) (p : Double) : State :=
  { s with ar := p.extractLsb' 15 16, br := 0#1 ++ p.extractLsb' 0 15 }

end Sys2Proof.Machine
end

