-- ==== Sys2Proof/Machine/DoublePrecision.lean ====
section
/-! DEFINITION. The double-precision forms of LDA, STA, ADD and SUB (42_memory_reference.md R188 to R193). -/

namespace Sys2Proof.Machine

/-- DLD (42_memory_reference.md R189). -/
def execDld (op : MemOp) (s : State) : Result :=
  s.withPair .dld op fun y z => .next { s with ar := s.memRead y, br := s.memRead z, sc := 0 }

/-- DST: a write breakpoint on either word ends it there, SC not cleared (42_memory_reference.md R191). -/
def execDst (op : MemOp) (s : State) : Result :=
  s.withPair .dst op fun y z =>
    s.storeThen y s.ar fun s1 => s1.storeThen z s.br fun s2 => .next { s2 with sc := 0 }

/-- The double-length operand of DAD and DSB (42_memory_reference.md R192). -/
def State.readDouble (s : State) (y z : Addr) : Double := w31 (s.memRead y) (s.memRead z)

/-- `PUT31(Add31(AR:BR, v))`, then SC cleared (42_memory_reference.md R192, R193). -/
def State.addDouble (s : State) (v : Double) : State :=
  { (s.flag31 (w31 s.ar s.br) v).put31 (w31 s.ar s.br + v) with sc := 0 }

/-- DAD (42_memory_reference.md R192). -/
def execDad (op : MemOp) (s : State) : Result :=
  s.withPair .dad op fun y z => .next (s.addDouble (s.readDouble y z))

/-- DSB: addition of the negation modulo 2^31 (42_memory_reference.md R193, 41_adders.md R162). -/
def execDsb (op : MemOp) (s : State) : Result :=
  s.withPair .dsb op fun y z => .next (s.addDouble (-(s.readDouble y z)))

end Sys2Proof.Machine
end

