-- ==== Sys2Proof/Machine/Device.lean ====
section
/-! DEFINITION. The device callback (47_io.md R320 to R322), the CPU's own device 0o20 (R329 to R332), and what a
device does to its request bits during a call (10_state.md R56). -/

namespace Sys2Proof.Machine

/-! ## Request bits -/

/-- The lines below a count. -/
def lineMask (n : Nat) : BitVec 16 := (1#16 <<< n) - 1

/-- The channels that are configured: DMA below `N_DMA`, DMC below `N_DMC` (48_channels.md R350). -/
def channelMask (k : Config) : BitVec 20 :=
  ((1#20 <<< min k.nDma 4) - 1) ||| (((1#20 <<< k.nDmc) - 1) <<< 4)

/-- The channels, in ascending order (48_channels.md R350, R351). -/
def channelOrder : List (Fin 20) := [0, 1, 2, 3, 4, 5, 6, 7, 8, 9, 10, 11, 12, 13, 14, 15, 16, 17, 18, 19]

/-- The channels a device owns (10_state.md R47, 48_channels.md R352). -/
def ownedMask (k : Config) (dev : DevNum) : BitVec 20 :=
  channelOrder.foldl (fun m i => if k.chanMap[i] = some dev then m ||| (1#20 <<< i.val) else m) 0

/-- The effect of a device on its request bits: standard lines, extended lines below `N_XINT`, and its own configured
channels (10_state.md R44, R56; 48_channels.md R350; assumption log 6). -/
def State.changeRequests (s : State) (dev : DevNum) (r : RequestChange) : State :=
  let own := ownedMask s.cfg dev &&& channelMask s.cfg
  { s with
    intReq := (s.intReq &&& ~~~r.intClear) ||| r.intSet
    xintReq := (s.xintReq &&& ~~~r.xintClear) ||| (r.xintSet &&& lineMask s.cfg.nXint)
    chanReq := (s.chanReq &&& ~~~(r.chanClear &&& own)) ||| (r.chanSet &&& own) }

/-! ## The CPU's own device -/

/-- SMK: `INT_ENB <- AR` (47_io.md R330). -/
def State.setMask (s : State) (data : Word) : State := { s with intEnb := data }

/-- OTK: C, and under their options DP and the extend mode, and SC (47_io.md R331). -/
def State.setKeys (s : State) (data : Word) : State :=
  { s with
    c := data.getLsbD 15
    dp := if s.cfg.optHsa then data.getLsbD 14 else s.dp
    ext := if s.cfg.optExt then s.ext || data.getLsbD 13 else s.ext
    extoff := if s.cfg.optExt then !data.getLsbD 13 else s.extoff
    sc := (data.extractLsb' 0 5).setWidth 6 }

/-- The "bad function" result of device 0o20 (47_io.md R329). -/
def State.badFunction (s : State) (data : Word) : IoReply :=
  { skip := false, stop := if s.cfg.stopInst then some .rsrv else none, data := data }

/-- The state after the callback of device 0o20 (47_io.md R329 to R331). The data argument, which an instruction
passes AR in, is what the rules call AR (DEDUCED, assumption log 15). -/
def State.cpuDeviceState (s : State) (c : IoCall) : State :=
  if c.op = .ota ∧ c.fnc = 0#4 then s.setMask c.data
  else if c.op = .ota ∧ c.fnc = 0o10#4 then s.setKeys c.data
  else s

/-- The reply of the callback of device 0o20 (47_io.md R329). -/
def State.cpuDeviceReply (s : State) (c : IoCall) : IoReply :=
  if c.op = .ota ∧ (c.fnc = 0#4 ∨ c.fnc = 0o10#4) then { skip := s.cfg.cpu020Skip, stop := none, data := c.data }
  else s.badFunction c.data

/-! ## The callback -/

/-- The stub of an unregistered device (47_io.md R322). -/
def State.stubReply (s : State) (c : IoCall) : IoReply :=
  { skip := false, stop := if s.cfg.stopDev then some .iodv else none, data := c.data }

/-- A registered device's answer: the oldest one ready, or a free one where none is (47_io.md R321; assumption
log 6). -/
def State.deviceAnswer (s : State) (c : IoCall) : DeviceAnswer :=
  match s.deviceAnswers with
  | a :: _ => a
  | [] => Config.freeAnswer s.draws c

/-- The state after a registered device's answer: the call is recorded and the device's own request bits change
(47_io.md R321). -/
def State.afterAnswer (s : State) (c : IoCall) : State :=
  { s.changeRequests c.dev (s.deviceAnswer c).requests with
    deviceAnswers := s.deviceAnswers.tail
    deviceCalls := c :: s.deviceCalls
    draws := s.draws + 1 }

/-- Whether a device number has a callback of an external device (47_io.md R320, R322, R329). -/
def State.isRegistered (s : State) (dev : DevNum) : Bool := s.cfg.registered.contains dev

/-- What `IoCall(op, fnc, data, dev)` returns (47_io.md R320). -/
def State.ioReply (s : State) (c : IoCall) : IoReply :=
  if c.dev = cpuDevice then s.cpuDeviceReply c
  else if s.isRegistered c.dev then (s.deviceAnswer c).reply
  else s.stubReply c

/-- The state `IoCall(op, fnc, data, dev)` leaves (47_io.md R320, R321). -/
def State.afterIo (s : State) (c : IoCall) : State :=
  if c.dev = cpuDevice then s.cpuDeviceState c
  else if s.isRegistered c.dev then s.afterAnswer c
  else s

end Sys2Proof.Machine
end

