-- ==== Sys2Proof/Machine/Io.lean ====
section
/-! DEFINITION. The I/O class (47_io.md R320 to R333). A result is applied as R323 says: data, then skip, then stop. -/

namespace Sys2Proof.Machine

/-- OCP: the skip and the data of the result are ignored (47_io.md R325). -/
def execOcp (fnc : BitVec 4) (dev : DevNum) (s : State) : Result :=
  let call : IoCall := { op := .ocp, fnc := fnc, data := s.ar, dev := dev }
  .next ((s.afterIo call).stopOn (s.ioReply call).stop)

/-- SKS (47_io.md R326). -/
def execSks (fnc : BitVec 4) (dev : DevNum) (s : State) : Result :=
  let call : IoCall := { op := .sks, fnc := fnc, data := s.ar, dev := dev }
  .next (((s.afterIo call).skipIf (s.ioReply call).skip).stopOn (s.ioReply call).stop)

/-- AR as INA passes it: cleared first where IR[9] is set (47_io.md R324). -/
def State.clearAr (s : State) (clear : Bool) : State := { s with ar := if clear then 0 else s.ar }

/-- INA: bit 3 of the function code is the clear bit and is not passed on (47_io.md R324). -/
def execIna (clear : Bool) (fnc : BitVec 3) (dev : DevNum) (s : State) : Result :=
  let s0 := s.clearAr clear
  let call : IoCall := { op := .ina, fnc := 0#1 ++ fnc, data := s0.ar, dev := dev }
  let s1 : State := { s0.afterIo call with ar := (s0.ioReply call).data }
  .next ((s1.skipIf (s0.ioReply call).skip).stopOn (s0.ioReply call).stop)

/-- An output of AR to a device (47_io.md R327). -/
def outputAr (fnc : BitVec 4) (dev : DevNum) (s : State) : Result :=
  let call : IoCall := { op := .ota, fnc := fnc, data := s.ar, dev := dev }
  .next (((s.afterIo call).skipIf (s.ioReply call).skip).stopOn (s.ioReply call).stop)

/-- OTA (47_io.md R327). -/
def execOta (fnc : BitVec 4) (dev : DevNum) (s : State) : Result := outputAr fnc dev s

/-- SMK: OTA to the CPU's own device, function 0 (47_io.md R330). -/
def execSmk (s : State) : Result := outputAr 0#4 cpuDevice s

/-- OTK: OTA to the CPU's own device, function 0o10 (47_io.md R331). -/
def execOtk (s : State) : Result := outputAr 0o10#4 cpuDevice s

end Sys2Proof.Machine
end

