-- ==== Sys2Proof/Machine/MemRef.lean ====
section
/-! DEFINITION. The memory-reference instructions, STX and LDX, single precision, multiply and divide
(42_memory_reference.md R170 to R187, R194). PC already holds the next sequential address (10_state.md R33). -/

namespace Sys2Proof.Machine

/-- JMP (42_memory_reference.md R171, R179). -/
def execJmp (op : MemOp) (s : State) : Result := s.withEa op fun y => .next (s.jump (y.setWidth 16))

/-- LDA (42_memory_reference.md R172). -/
def execLda (op : MemOp) (s : State) : Result := s.withEa op fun y => .next { s with ar := s.memRead y }

/-- ANA (42_memory_reference.md R173). -/
def execAna (op : MemOp) (s : State) : Result := s.withEa op fun y => .next { s with ar := s.ar &&& s.memRead y }

/-- STA (42_memory_reference.md R174). -/
def execSta (op : MemOp) (s : State) : Result := s.withEa op fun y => s.storeThen y s.ar .next

/-- ERA (42_memory_reference.md R175). -/
def execEra (op : MemOp) (s : State) : Result := s.withEa op fun y => .next { s with ar := s.ar ^^^ s.memRead y }

/-- ADD (42_memory_reference.md R176). -/
def execAdd (op : MemOp) (s : State) : Result := s.withEa op fun y => .next (s.add16 s.ar (s.memRead y))

/-- SUB: addition of the two's-complement negation (42_memory_reference.md R177, 41_adders.md R162). -/
def execSub (op : MemOp) (s : State) : Result := s.withEa op fun y => .next (s.add16 s.ar (-(s.memRead y)))

/-- The link word of JST: the old word's bank bits and PC, by NEWA (42_memory_reference.md R178, 20_memory.md R80). -/
def State.linkWord (s : State) (y : Addr) : Word := newaWord s.ext (s.memRead y) (s.pc.setWidth 16)

/-- JST (42_memory_reference.md R178, R179). -/
def execJst (op : MemOp) (s : State) : Result :=
  s.withEa op fun y => s.storeThen y (s.linkWord y) fun s1 => .next (s1.jump (y.setWidth 16 + 1))

/-- CAS: a signed comparison; equal skips one word, less skips two (42_memory_reference.md R181). -/
def execCas (op : MemOp) (s : State) : Result :=
  s.withEa op fun y =>
    if s.ar = s.memRead y then .next s.skip
    else if s.ar.toInt < (s.memRead y).toInt then .next s.skip2
    else .next s

/-- IRS: the skip depends on the incremented value even when the write was discarded (42_memory_reference.md R182). -/
def execIrs (op : MemOp) (s : State) : Result :=
  s.withEa op fun y =>
    s.storeThen y (s.memRead y + 1) fun s1 => .next (s1.skipIf (decide (s.memRead y + 1 = 0)))

/-- IMA (42_memory_reference.md R183). -/
def execIma (op : MemOp) (s : State) : Result :=
  s.withEa op fun y => s.storeThen y s.ar fun s1 => .next { s1 with ar := s.memRead y }

/-- STX (42_memory_reference.md R184). -/
def execStx (op : XferOp) (s : State) : Result := s.withEa op.toMemOp fun y => s.storeThen y s.xr .next

/-- LDX (42_memory_reference.md R185). -/
def execLdx (op : XferOp) (s : State) : Result := s.withEa op.toMemOp fun y => .next (s.setXr (s.memRead y))

/-- An instruction that needs the high-speed arithmetic option: without it, it is illegal and does nothing; the
check comes before `Ea` (42_memory_reference.md R194). -/
def State.needsHsa (s : State) (body : Result) : Result := if s.cfg.optHsa then body else .next s.illegal

/-- The product of MPY as a 31-bit value (42_memory_reference.md R186). -/
def product (a m : Word) : Double := BitVec.ofInt 31 (a.toInt * m.toInt)

/-- MPY; C is a draw (42_memory_reference.md R186). -/
def execMpy (op : MemOp) (s : State) : Result :=
  s.needsHsa (s.withEa op fun y => .next { (s.put31z (product s.ar (s.memRead y))).drawC with sc := 0 })

/-- Whether a quotient fits AR (42_memory_reference.md R187). -/
def quotientFits (q : Int) : Bool := decide (-32768 ≤ q) && decide (q < 32768)

/-- DIV by a divisor other than 0: the quotient is truncated toward zero and the remainder has the dividend's sign; a
quotient that does not fit sets C and leaves AR and BR draws (42_memory_reference.md R187). -/
def State.divide (s : State) (n d : Int) : State :=
  if quotientFits (n.tdiv d) then
    { s with ar := BitVec.ofInt 16 (n.tdiv d), br := BitVec.ofInt 16 (n - n.tdiv d * d), c := false, sc := 0 }
  else { s.drawArBr with c := true, sc := 0 }

/-- DIV; a divisor of 0 sets C and changes nothing else (42_memory_reference.md R187). -/
def execDiv (op : MemOp) (s : State) : Result :=
  s.needsHsa (s.withEa op fun y =>
    if s.memRead y = 0 then .next { s with c := true }
    else .next (s.divide (w31 s.ar s.br).toInt (s.memRead y).toInt))

end Sys2Proof.Machine
end

