-- ==== Sys2Proof/Machine/Operate.lean ====
section
/-! DEFINITION. The operate class (46_operate.md R296 to R319): sixteen named words, and the gate network of the
undefined ones. -/

namespace Sys2Proof.Machine

/-- CHS (46_operate.md R298). -/
def execChs (s : State) : Result := .next { s with ar := s.ar ^^^ 0o100000#16 }

/-- CRA (46_operate.md R299). -/
def execCra (s : State) : Result := .next { s with ar := 0 }

/-- SSP (46_operate.md R300). -/
def execSsp (s : State) : Result := .next { s with ar := s.ar &&& 0o077777#16 }

/-- RCB (46_operate.md R301). -/
def execRcb (s : State) : Result := .next { s with c := false }

/-- CSA (46_operate.md R302). -/
def execCsa (s : State) : Result := .next { s with c := s.ar.getLsbD 15, ar := s.ar &&& 0o077777#16 }

/-- CMA (46_operate.md R303). -/
def execCma (s : State) : Result := .next { s with ar := ~~~s.ar }

/-- TCA; C is unchanged (46_operate.md R304). -/
def execTca (s : State) : Result := .next { s with ar := -s.ar, sc := 0 }

/-- SSM (46_operate.md R305). -/
def execSsm (s : State) : Result := .next { s with ar := s.ar ||| 0o100000#16 }

/-- SCB (46_operate.md R306). -/
def execScb (s : State) : Result := .next { s with c := true }

/-- CAR (46_operate.md R307). -/
def execCar (s : State) : Result := .next { s with ar := s.ar &&& 0o177400#16 }

/-- CAL (46_operate.md R308). -/
def execCal (s : State) : Result := .next { s with ar := s.ar &&& 0o000377#16 }

/-- ICL (46_operate.md R309). -/
def execIcl (s : State) : Result := .next { s with ar := s.ar >>> 8 }

/-- AOA (46_operate.md R310). -/
def execAoa (s : State) : Result := .next { s.add16 s.ar 1 with sc := 0 }

/-- ACA: the old C is the addend (46_operate.md R311). -/
def execAca (s : State) : Result := .next { s.add16 s.ar ((BitVec.ofBool s.c).setWidth 16) with sc := 0 }

/-- ICR (46_operate.md R312). -/
def execIcr (s : State) : Result := .next { s with ar := s.ar <<< 8 }

/-- ICA (46_operate.md R313). -/
def execIca (s : State) : Result := .next { s with ar := s.ar.extractLsb' 0 8 ++ s.ar.extractLsb' 8 8 }

/-! ## The gate network -/

/-- What the translate phase computes: D and the adder's overflow (46_operate.md R316). -/
structure Translated where
  d : Word
  ovf : Bool
deriving DecidableEq, Repr

/-- The translate phase from an AR, under three control signals (46_operate.md R316). -/
def translate (g : TranslateSignals) (ar : Word) : Translated :=
  let y : Word := if g.enableSumLeg then 0o177777#16 else 0
  let sum : Word := ar + y + (BitVec.ofBool g.carryIn).setWidth 16
  { d := if g.jam then ar ^^^ y else sum, ovf := overflow16 ar y sum }

/-- What phase 1 leaves: D and the overflow, the AR it was last computed from, and whether SC is cleared
(46_operate.md R316, R317). -/
structure Phase1 where
  out : Translated
  arIn : Word
  clrSc : Bool
deriving DecidableEq, Repr

/-- Whether both bits that select the repeat phase are set (46_operate.md R317). -/
def repeats (choice : Nat) (m : BitVec 10) : Bool :=
  m.getLsbD (Config.gateRepeatBits choice).1.val && m.getLsbD (Config.gateRepeatBits choice).2.val

/-- Phase 1: translate, and where the repeat bits are set translate once more from D with the forced signals, with SC
cleared (46_operate.md R316, R317). -/
def phase1 (choice : Nat) (m : BitVec 10) (ar : Word) : Phase1 :=
  let first := translate (Config.gateTranslate choice m) ar
  if repeats choice m then
    { out := translate (Config.gateForced choice m) first.d, arIn := first.d, clrSc := true }
  else { out := first, arIn := ar, clrSc := false }

/-- The result word of the t4 phase from the word it starts with (46_operate.md R318). -/
def transferWord (g : TransferSignals) (start d : Word) : Word :=
  let r0 : Word := if g.clearA then 0 else start
  let r1 : Word := if g.clearSign then r0 &&& 0o077777#16 else r0
  let hi : Byte := r1.extractLsb' 8 8 ||| (if g.hiToHi then d.extractLsb' 8 8 else 0)
    ||| (if g.loToHi then d.extractLsb' 0 8 else 0)
  let lo : Byte := r1.extractLsb' 0 8 ||| (if g.loToLo then d.extractLsb' 0 8 else 0)
    ||| (if g.hiToLo then d.extractLsb' 8 8 else 0)
  hi ++ lo

/-- The C of the t4 phase (46_operate.md R318). -/
def transferC (g : TransferSignals) (c ovf top : Bool) : Bool :=
  c || g.setC || (g.setCovf && ovf) || (g.setCtop && top)

/-- The configured gate network with its effect on the state: AR, C, and SC where it is cleared (46_operate.md R314,
R316 to R318; assumption log 12). -/
def State.gateNetwork (s : State) (m : BitVec 10) : State :=
  let p := phase1 s.cfg.gateChoice m s.ar
  let g := Config.gateTransfer s.cfg.gateChoice m
  { s with
    ar := transferWord g (if Config.gateResultFromFedBack s.cfg.gateChoice then p.arIn else s.ar) p.out.d
    c := transferC g (s.c && !Config.gateClearsC s.cfg.gateChoice m) p.out.ovf
      ((if Config.gateTopAfterPhase1 s.cfg.gateChoice then p.arIn else s.ar).getLsbD 15)
    sc := if p.clrSc then 0 else s.sc }

/-- The table of the named words: mask bits and meaning (46_operate.md R297). -/
def namedTable : List (BitVec 10 × (State → Result)) :=
  [(0o0024#10, execChs), (0o0040#10, execCra), (0o0100#10, execSsp), (0o0200#10, execRcb),
   (0o0320#10, execCsa), (0o0401#10, execCma), (0o0407#10, execTca), (0o0500#10, execSsm),
   (0o0600#10, execScb), (0o1044#10, execCar), (0o1050#10, execCal), (0o1140#10, execIcl),
   (0o1206#10, execAoa), (0o1216#10, execAca), (0o1240#10, execIcr), (0o1340#10, execIca)]

/-- The meaning of the named word with these mask bits, if there is one. -/
def namedMeaning (m : BitVec 10) : Option (State → Result) := (namedTable.find? fun row => row.1 == m).map (·.2)

/-- `OPERATE_GATE` with its effect on the state: on the bits of a named word that word's result (46_operate.md R315, law
(c)), on all others the gate network (laws (a) and (b)). -/
def State.operateGate (s : State) (m : BitVec 10) : Result :=
  match namedMeaning m with
  | some named => named s
  | none => .next (s.gateNetwork m)

/-- An undefined operate word: a stop before any change where `STOP_INST` is set, else `OPERATE_GATE`
(46_operate.md R314). -/
def execUndefinedOperate (bits : BitVec 10) (s : State) : Result :=
  if s.cfg.stopInst then .next (s.stop .rsrv) else s.operateGate bits

end Sys2Proof.Machine
end

