-- ==== Sys2Proof/Machine/Shift.lean ====
section
/-! DEFINITION. The shift class (44_shift.md R240 to R256): a one-bit step for each of the twelve regular functions,
the step repeated N times, and the four quirk functions. -/

namespace Sys2Proof.Machine

/-- A step repeated. -/
def repeatStep (step : ShiftRegs → ShiftRegs) : Nat → ShiftRegs → ShiftRegs
  | 0, r => r
  | n + 1, r => repeatStep step n (step r)

/-- `L31 = AR :: BR[14:0]` (44_shift.md, notation). -/
def long31 (r : ShiftRegs) : BitVec 31 := r.ar ++ r.br.extractLsb' 0 15

/-- AR and BR from a 32-bit pattern. -/
def put32 (v : BitVec 32) (c : Bool) : ShiftRegs :=
  { ar := v.extractLsb' 16 16, br := v.extractLsb' 0 16, c := c }

/-- AR and BR[14:0] from a 31-bit pattern; BR[15] is kept (44_shift.md, notation). -/
def putLong31 (r : ShiftRegs) (v : BitVec 31) (c : Bool) : ShiftRegs :=
  { ar := v.extractLsb' 15 16, br := BitVec.ofBool (r.br.getLsbD 15) ++ v.extractLsb' 0 15, c := c }

/-- LRL's step (44_shift.md R242). -/
def stepLrl (r : ShiftRegs) : ShiftRegs := put32 ((r.ar ++ r.br) >>> 1) (r.br.getLsbD 0)

/-- LRS's step (44_shift.md R243). -/
def stepLrs (r : ShiftRegs) : ShiftRegs :=
  putLong31 r (BitVec.ofBool (r.ar.getLsbD 15) ++ (long31 r).extractLsb' 1 30) (r.br.getLsbD 0)

/-- LRR's step (44_shift.md R244). -/
def stepLrr (r : ShiftRegs) : ShiftRegs :=
  put32 (BitVec.ofBool (r.br.getLsbD 0) ++ (r.ar ++ r.br).extractLsb' 1 31) (r.br.getLsbD 0)

/-- LGR's step (44_shift.md R245). -/
def stepLgr (r : ShiftRegs) : ShiftRegs := { r with ar := r.ar >>> 1, c := r.ar.getLsbD 0 }

/-- ARS's step (44_shift.md R246). -/
def stepArs (r : ShiftRegs) : ShiftRegs :=
  { r with ar := BitVec.ofBool (r.ar.getLsbD 15) ++ r.ar.extractLsb' 1 15, c := r.ar.getLsbD 0 }

/-- ARR's step (44_shift.md R247). -/
def stepArr (r : ShiftRegs) : ShiftRegs :=
  { r with ar := BitVec.ofBool (r.ar.getLsbD 0) ++ r.ar.extractLsb' 1 15, c := r.ar.getLsbD 0 }

/-- LLL's step (44_shift.md R248). -/
def stepLll (r : ShiftRegs) : ShiftRegs := put32 ((r.ar ++ r.br) <<< 1) (r.ar.getLsbD 15)

/-- LLS's step: C is set where the sign changes and kept elsewhere (44_shift.md R249). -/
def stepLls (r : ShiftRegs) : ShiftRegs :=
  putLong31 r (long31 r <<< 1) (r.c || (long31 r <<< 1).getLsbD 30 != r.ar.getLsbD 15)

/-- LLR's step (44_shift.md R250). -/
def stepLlr (r : ShiftRegs) : ShiftRegs :=
  put32 ((r.ar ++ r.br).extractLsb' 0 31 ++ BitVec.ofBool (r.ar.getLsbD 15)) (r.ar.getLsbD 15)

/-- LGL's step (44_shift.md R251). -/
def stepLgl (r : ShiftRegs) : ShiftRegs := { r with ar := r.ar <<< 1, c := r.ar.getLsbD 15 }

/-- ALS's step: C is set where the sign changes and kept elsewhere (44_shift.md R252). -/
def stepAls (r : ShiftRegs) : ShiftRegs :=
  { r with ar := r.ar <<< 1, c := r.c || (r.ar <<< 1).getLsbD 15 != r.ar.getLsbD 15 }

/-- ALR's step (44_shift.md R253). -/
def stepAlr (r : ShiftRegs) : ShiftRegs :=
  { r with ar := r.ar.extractLsb' 0 15 ++ BitVec.ofBool (r.ar.getLsbD 15), c := r.ar.getLsbD 15 }

/-- AR, BR and C of a state. -/
def State.shiftRegs (s : State) : ShiftRegs := { ar := s.ar, br := s.br, c := s.c }

/-- The state with AR, BR and C from a shift. -/
def State.setShiftRegs (s : State) (r : ShiftRegs) : State := { s with ar := r.ar, br := r.br, c := r.c }

/-- A regular shift of N steps; SC is a draw, and where N = 0 so is C (44_shift.md R240, R241). -/
def State.regularShift (s : State) (step : ShiftRegs → ShiftRegs) (n : BitVec 6) : State :=
  if n = 0 then s.drawC.drawSc else (s.setShiftRegs (repeatStep step n.toNat s.shiftRegs)).drawSc

/-- An arithmetic left shift: C is cleared before the first step (44_shift.md R249, R252). -/
def State.arithmeticLeft (s : State) (step : ShiftRegs → ShiftRegs) (n : BitVec 6) : State :=
  if n = 0 then s.drawC.drawSc
  else (s.setShiftRegs (repeatStep step n.toNat { s.shiftRegs with c := false })).drawSc

/-- A long quirk shift by the configured `SHIFT_QUIRK`; SC is a draw (44_shift.md R256; assumption log 11). -/
def State.quirkLong (s : State) (f : QuirkFn) (n : BitVec 6) : State :=
  (s.setShiftRegs (Config.shiftQuirk s.cfg.shiftChoice f n s.shiftRegs)).drawSc

/-- A short quirk shift leaves BR unchanged (44_shift.md R256; assumption log 11). -/
def State.quirkShort (s : State) (f : QuirkFn) (n : BitVec 6) : State :=
  (s.setShiftRegs { Config.shiftQuirk s.cfg.shiftChoice f n s.shiftRegs with br := s.br }).drawSc

/-- LRL (44_shift.md R242). -/
def execLrl (n : BitVec 6) (s : State) : Result := .next (s.regularShift stepLrl n)

/-- LRS (44_shift.md R243). -/
def execLrs (n : BitVec 6) (s : State) : Result := .next (s.regularShift stepLrs n)

/-- LRR (44_shift.md R244). -/
def execLrr (n : BitVec 6) (s : State) : Result := .next (s.regularShift stepLrr n)

/-- The quirk shift F = 3, long (44_shift.md R256). -/
def execQuirk3 (n : BitVec 6) (s : State) : Result := .next (s.quirkLong .f3 n)

/-- LGR (44_shift.md R245). -/
def execLgr (n : BitVec 6) (s : State) : Result := .next (s.regularShift stepLgr n)

/-- ARS (44_shift.md R246). -/
def execArs (n : BitVec 6) (s : State) : Result := .next (s.regularShift stepArs n)

/-- ARR (44_shift.md R247). -/
def execArr (n : BitVec 6) (s : State) : Result := .next (s.regularShift stepArr n)

/-- The quirk shift F = 7, short (44_shift.md R256). -/
def execQuirk7 (n : BitVec 6) (s : State) : Result := .next (s.quirkShort .f7 n)

/-- LLL (44_shift.md R248). -/
def execLll (n : BitVec 6) (s : State) : Result := .next (s.regularShift stepLll n)

/-- LLS (44_shift.md R249). -/
def execLls (n : BitVec 6) (s : State) : Result := .next (s.arithmeticLeft stepLls n)

/-- LLR (44_shift.md R250). -/
def execLlr (n : BitVec 6) (s : State) : Result := .next (s.regularShift stepLlr n)

/-- The quirk shift F = 0o13, long (44_shift.md R256). -/
def execQuirk13 (n : BitVec 6) (s : State) : Result := .next (s.quirkLong .f13 n)

/-- LGL (44_shift.md R251). -/
def execLgl (n : BitVec 6) (s : State) : Result := .next (s.regularShift stepLgl n)

/-- ALS (44_shift.md R252). -/
def execAls (n : BitVec 6) (s : State) : Result := .next (s.arithmeticLeft stepAls n)

/-- ALR (44_shift.md R253). -/
def execAlr (n : BitVec 6) (s : State) : Result := .next (s.regularShift stepAlr n)

/-- The quirk shift F = 0o17, short (44_shift.md R256). -/
def execQuirk17 (n : BitVec 6) (s : State) : Result := .next (s.quirkShort .f17 n)

end Sys2Proof.Machine
end

