-- ==== Sys2Proof/Machine/Skip.lean ====
section
/-! DEFINITION. The skip class (45_skip.md R270 to R295). A named word is R271 applied to its bits. -/

namespace Sys2Proof.Machine

/-- INT_REQ[LINE_MPE], the memory-parity request (10_state.md R41). -/
def State.parityPending (s : State) : Bool := s.intReq.getLsbD s.cfg.lineMpe.val

/-- Whether any condition selected by IR[8:0] holds (45_skip.md R270, R271). -/
def State.anyCondition (s : State) (cond : BitVec 9) : Bool :=
  (cond.getLsbD 0 && s.c) || (cond.getLsbD 1 && s.ss4) || (cond.getLsbD 2 && s.ss3) || (cond.getLsbD 3 && s.ss2)
    || (cond.getLsbD 4 && s.ss1) || (cond.getLsbD 5 && s.ar != 0) || (cond.getLsbD 6 && s.ar.getLsbD 0)
    || (cond.getLsbD 7 && s.parityPending) || (cond.getLsbD 8 && s.ar.getLsbD 15)

/-- A skip word: skip if any selected condition holds, or, with the sense bit 0, if none does (45_skip.md R271). -/
def skipWord (sense : Bool) (cond : BitVec 9) (s : State) : Result :=
  .next (s.skipIf (s.anyCondition cond ^^ !sense))

/-- A skip word without a row of its own (45_skip.md R271, R294). -/
def execSkip (sense : Bool) (cond : BitVec 9) (s : State) : Result := skipWord sense cond s

/-- SKP (45_skip.md R272). -/
def execSkp (s : State) : Result := skipWord false 0o000#9 s

/-- NOP (45_skip.md R273). -/
def execNop (s : State) : Result := skipWord true 0o000#9 s

/-- SSC (45_skip.md R274). -/
def execSsc (s : State) : Result := skipWord true 0o001#9 s

/-- SRC (45_skip.md R275). -/
def execSrc (s : State) : Result := skipWord false 0o001#9 s

/-- SS1 (45_skip.md R276). -/
def execSs1 (s : State) : Result := skipWord true 0o020#9 s

/-- SR1 (45_skip.md R277). -/
def execSr1 (s : State) : Result := skipWord false 0o020#9 s

/-- SS2 (45_skip.md R278). -/
def execSs2 (s : State) : Result := skipWord true 0o010#9 s

/-- SR2 (45_skip.md R279). -/
def execSr2 (s : State) : Result := skipWord false 0o010#9 s

/-- SS3 (45_skip.md R280). -/
def execSs3 (s : State) : Result := skipWord true 0o004#9 s

/-- SR3 (45_skip.md R281). -/
def execSr3 (s : State) : Result := skipWord false 0o004#9 s

/-- SS4 (45_skip.md R282). -/
def execSs4 (s : State) : Result := skipWord true 0o002#9 s

/-- SR4 (45_skip.md R283). -/
def execSr4 (s : State) : Result := skipWord false 0o002#9 s

/-- SSS (45_skip.md R284). -/
def execSss (s : State) : Result := skipWord true 0o036#9 s

/-- SSR (45_skip.md R285). -/
def execSsr (s : State) : Result := skipWord false 0o036#9 s

/-- SNZ (45_skip.md R286). -/
def execSnz (s : State) : Result := skipWord true 0o040#9 s

/-- SZE (45_skip.md R287). -/
def execSze (s : State) : Result := skipWord false 0o040#9 s

/-- SLN (45_skip.md R288). -/
def execSln (s : State) : Result := skipWord true 0o100#9 s

/-- SLZ (45_skip.md R289). -/
def execSlz (s : State) : Result := skipWord false 0o100#9 s

/-- SPS (45_skip.md R290). -/
def execSps (s : State) : Result := skipWord true 0o200#9 s

/-- SPN (45_skip.md R291). -/
def execSpn (s : State) : Result := skipWord false 0o200#9 s

/-- SMI (45_skip.md R292). -/
def execSmi (s : State) : Result := skipWord true 0o400#9 s

/-- SPL (45_skip.md R293). -/
def execSpl (s : State) : Result := skipWord false 0o400#9 s

end Sys2Proof.Machine
end

