-- ==== Sys2Proof/Machine/Dispatch.lean ====
section
/-! DEFINITION. The execute phase (49_main_loop.md R375): one arm for each instruction. -/

namespace Sys2Proof.Machine

def exec (i : Instr) (s : State) : Host.Outcome State Fault Refusal :=
  match i with
  | .jmp op => Sys2Proof.Machine.execJmp op s
  | .lda op => Sys2Proof.Machine.execLda op s
  | .dld op => Sys2Proof.Machine.execDld op s
  | .ana op => Sys2Proof.Machine.execAna op s
  | .sta op => Sys2Proof.Machine.execSta op s
  | .dst op => Sys2Proof.Machine.execDst op s
  | .era op => Sys2Proof.Machine.execEra op s
  | .add op => Sys2Proof.Machine.execAdd op s
  | .dad op => Sys2Proof.Machine.execDad op s
  | .sub op => Sys2Proof.Machine.execSub op s
  | .dsb op => Sys2Proof.Machine.execDsb op s
  | .jst op => Sys2Proof.Machine.execJst op s
  | .cas op => Sys2Proof.Machine.execCas op s
  | .irs op => Sys2Proof.Machine.execIrs op s
  | .ima op => Sys2Proof.Machine.execIma op s
  | .mpy op => Sys2Proof.Machine.execMpy op s
  | .div op => Sys2Proof.Machine.execDiv op s
  | .stx op => Sys2Proof.Machine.execStx op s
  | .ldx op => Sys2Proof.Machine.execLdx op s
  | .hlt bits => Sys2Proof.Machine.execHlt bits s
  | .controlMicro bits => Sys2Proof.Machine.execControlMicro bits s
  | .sgl => Sys2Proof.Machine.execSgl s
  | .dbl => Sys2Proof.Machine.execDbl s
  | .dxa => Sys2Proof.Machine.execDxa s
  | .exa => Sys2Proof.Machine.execExa s
  | .rmp => Sys2Proof.Machine.execRmp s
  | .sca => Sys2Proof.Machine.execSca s
  | .ink => Sys2Proof.Machine.execInk s
  | .nrm => Sys2Proof.Machine.execNrm s
  | .iab => Sys2Proof.Machine.execIab s
  | .enb => Sys2Proof.Machine.execEnb s
  | .inh => Sys2Proof.Machine.execInh s
  | .lrl n => Sys2Proof.Machine.execLrl n s
  | .lrs n => Sys2Proof.Machine.execLrs n s
  | .lrr n => Sys2Proof.Machine.execLrr n s
  | .quirk3 n => Sys2Proof.Machine.execQuirk3 n s
  | .lgr n => Sys2Proof.Machine.execLgr n s
  | .ars n => Sys2Proof.Machine.execArs n s
  | .arr n => Sys2Proof.Machine.execArr n s
  | .quirk7 n => Sys2Proof.Machine.execQuirk7 n s
  | .lll n => Sys2Proof.Machine.execLll n s
  | .lls n => Sys2Proof.Machine.execLls n s
  | .llr n => Sys2Proof.Machine.execLlr n s
  | .quirk13 n => Sys2Proof.Machine.execQuirk13 n s
  | .lgl n => Sys2Proof.Machine.execLgl n s
  | .als n => Sys2Proof.Machine.execAls n s
  | .alr n => Sys2Proof.Machine.execAlr n s
  | .quirk17 n => Sys2Proof.Machine.execQuirk17 n s
  | .skip sense cond => Sys2Proof.Machine.execSkip sense cond s
  | .skp => Sys2Proof.Machine.execSkp s
  | .nop => Sys2Proof.Machine.execNop s
  | .ssc => Sys2Proof.Machine.execSsc s
  | .src => Sys2Proof.Machine.execSrc s
  | .ss1 => Sys2Proof.Machine.execSs1 s
  | .sr1 => Sys2Proof.Machine.execSr1 s
  | .ss2 => Sys2Proof.Machine.execSs2 s
  | .sr2 => Sys2Proof.Machine.execSr2 s
  | .ss3 => Sys2Proof.Machine.execSs3 s
  | .sr3 => Sys2Proof.Machine.execSr3 s
  | .ss4 => Sys2Proof.Machine.execSs4 s
  | .sr4 => Sys2Proof.Machine.execSr4 s
  | .sss => Sys2Proof.Machine.execSss s
  | .ssr => Sys2Proof.Machine.execSsr s
  | .snz => Sys2Proof.Machine.execSnz s
  | .sze => Sys2Proof.Machine.execSze s
  | .sln => Sys2Proof.Machine.execSln s
  | .slz => Sys2Proof.Machine.execSlz s
  | .sps => Sys2Proof.Machine.execSps s
  | .spn => Sys2Proof.Machine.execSpn s
  | .smi => Sys2Proof.Machine.execSmi s
  | .spl => Sys2Proof.Machine.execSpl s
  | .chs => Sys2Proof.Machine.execChs s
  | .cra => Sys2Proof.Machine.execCra s
  | .ssp => Sys2Proof.Machine.execSsp s
  | .rcb => Sys2Proof.Machine.execRcb s
  | .csa => Sys2Proof.Machine.execCsa s
  | .cma => Sys2Proof.Machine.execCma s
  | .tca => Sys2Proof.Machine.execTca s
  | .ssm => Sys2Proof.Machine.execSsm s
  | .scb => Sys2Proof.Machine.execScb s
  | .car => Sys2Proof.Machine.execCar s
  | .cal => Sys2Proof.Machine.execCal s
  | .icl => Sys2Proof.Machine.execIcl s
  | .aoa => Sys2Proof.Machine.execAoa s
  | .aca => Sys2Proof.Machine.execAca s
  | .icr => Sys2Proof.Machine.execIcr s
  | .ica => Sys2Proof.Machine.execIca s
  | .undefinedOperate bits => Sys2Proof.Machine.execUndefinedOperate bits s
  | .ocp fnc dev => Sys2Proof.Machine.execOcp fnc dev s
  | .sks fnc dev => Sys2Proof.Machine.execSks fnc dev s
  | .ina clear fnc dev => Sys2Proof.Machine.execIna clear fnc dev s
  | .ota fnc dev => Sys2Proof.Machine.execOta fnc dev s
  | .smk => Sys2Proof.Machine.execSmk s
  | .otk => Sys2Proof.Machine.execOtk s

end Sys2Proof.Machine
end

