-- ==== Sys2Proof/Machine/Environment.lean ====
section
/-! DEFINITION. What the devices and the host may do between iterations (10_state.md R55, R57; 49_main_loop.md R371,
R379; 70_reset_and_hazards.md R450 to R453). No step of the CPU is one of these (assumption log 16). -/

namespace Sys2Proof.Machine

/-- `Reset()` (70_reset_and_hazards.md R450): what it clears; SC is a draw; AR, BR, PC, the switches, memory and RUN
are unchanged (R450, R451). -/
def State.resetOp (s : State) : State :=
  { s.drawSc with
    c := false, dp := false, ext := false, extoff := false, pme := false
    intReq := 0, intOn := false, intNodef := false, intStart := false, intEnb := 0
    xintReq := 0, xintEnb := 0
    dma := Vector.replicate 4 { ad := 0, wc := 0, eor := false }
    chanReq := 0 }

/-- The registers the host may edit while the CPU is stopped (00_scope.md R8, 10_state.md R55, R57). R8 and R57 do not
say which registers they mean: the model takes the nine that R55 leaves to the host of a stopped CPU, so no agent edits
INT_ON, INT_NODEF or INT_ENB, which R55 names nowhere (DESIGN CHOICE, assumption log 23). -/
structure RegisterEdit where
  ar : Word
  br : Word
  pc : Addr
  c : Bool
  ext : Bool
  extoff : Bool
  pme : Bool
  dp : Bool
  sc : BitVec 6
deriving DecidableEq, Repr

/-- The cells that exist: those below a memory size (20_memory.md R72, 70_reset_and_hazards.md R453). -/
def Memory.below (m : Memory) (size : Nat) : Memory := m.filter fun cell => decide (cell.1 < 2 * size)

/-- The host changes the configuration (10_state.md R50): cells at or above the memory size read 0 (R453), and the
bits of absent channels and lines hold 0 (10_state.md R44, 48_channels.md R350). The registers of a DMA channel at or above
`N_DMA`, of which 10_state.md R45 says nothing, keep their values through the change (DESIGN CHOICE, assumption
log 19). -/
def State.configure (s : State) (k : Config) : State :=
  { s with
    cfg := k
    mem := s.mem.below k.memSize
    chanReq := s.chanReq &&& channelMask k
    xintReq := s.xintReq &&& lineMask k.nXint
    xintEnb := s.xintEnb &&& lineMask k.nXint }

/-- An action of a device or of the host between two iterations. -/
inductive EnvAction where
  /-- A device changes its request bits (10_state.md R55). -/
  | requests (dev : DevNum) (change : RequestChange)
  /-- An agent writes XINT_ENB (10_state.md R44, R55). -/
  | setExtendedMask (mask : BitVec 16)
  /-- The DMA setup interface (48_channels.md R358). The model lets it write all four channels' registers, also those at
  or above `N_DMA`, which 10_state.md R45 does not give and no rule reads (DESIGN CHOICE, assumption log 19). -/
  | setDma (k : Fin 4) (ch : DmaChannel)
  /-- A device or the host stores a word in memory (10_state.md R55, R57; 20_memory.md R87). -/
  | storeWord (a : Addr) (v : Word)
  /-- A device has an answer ready for a coming call (47_io.md R321; assumption log 6). -/
  | supplyAnswer (a : DeviceAnswer)
  /-- The operator sets the sense switches (10_state.md R57). -/
  | setSwitches (ss1 ss2 ss3 ss4 : Bool)
  /-- The operator presses the start button (10_state.md R57). -/
  | pressStart
  /-- The host resets a stopped CPU (70_reset_and_hazards.md R450, R451; 10_state.md R55). -/
  | reset
  /-- The host returns a stopped CPU to running (49_main_loop.md R379). -/
  | resume
  /-- The host edits registers of a stopped CPU (10_state.md R55, R57). -/
  | editRegisters (e : RegisterEdit)
  /-- The host changes the configuration of a stopped CPU (10_state.md R50). -/
  | configure (k : Config)
deriving DecidableEq, Repr

/-- Whether the CPU is stopped (10_state.md R48). -/
def State.isStopped (s : State) : Bool := decide (s.run ≠ .running)

/-- The state after an action, or none where the spec lets no agent do it then: registers and configuration change
only while the CPU is stopped, and so a reset, which clears registers, is an action on a stopped CPU (10_state.md R50,
R55); only a stopped CPU is resumed (49_main_loop.md R379). -/
def State.apply (s : State) : EnvAction → Option State
  | .requests dev change => some (s.changeRequests dev change)
  | .setExtendedMask mask => some { s with xintEnb := mask &&& lineMask s.cfg.nXint }
  | .setDma k ch => some { s with dma := s.dma.set k ch }
  | .storeWord a v => some (s.setCell a v)
  | .supplyAnswer a => some { s with deviceAnswers := s.deviceAnswers ++ [a] }
  | .setSwitches a b c d => some { s with ss1 := a, ss2 := b, ss3 := c, ss4 := d }
  | .pressStart => some { s with intStart := true }
  | .reset => if s.isStopped then some s.resetOp else none
  | .resume => if s.isStopped then some { s with run := .running } else none
  | .editRegisters e =>
    if s.isStopped then
      some { s with
        ar := e.ar, br := e.br, pc := e.pc, c := e.c, ext := e.ext, extoff := e.extoff, pme := e.pme, dp := e.dp
        sc := e.sc }
    else none
  | .configure k => if s.isStopped && k.wf then some (s.configure k) else none

end Sys2Proof.Machine
end

