-- ==== Sys2Proof/Machine/Channels.lean ====
section
/-! DEFINITION. The DMA/DMC channel engine, phase 1 of an iteration (48_channels.md R350 to R362). -/

namespace Sys2Proof.Machine

/-- Where a part of an iteration leads: it goes on, it ends with a stop (the state's `run` says which), or the spec
defines no state (00_scope.md R15). -/
inductive Phase where
  | go (s : State)
  | halt (s : State)
  | fault (f : Fault)
deriving DecidableEq, Repr

/-- The rest of an iteration after a part of it. -/
def Phase.bind (p : Phase) (rest : State → Phase) : Phase :=
  match p with
  | .go s => rest s
  | .halt s => .halt s
  | .fault f => .fault f

/-- A part of an iteration ended by a stop reason, if there is one (48_channels.md R351). -/
def State.haltOn (s : State) (reason : Option StopReason) : Phase :=
  match reason with
  | none => .go s
  | some r => .halt (s.stop r)

/-- The current address and the direction of a transfer, bit 15 (1 = input) and bits 14:0 (48_channels.md R353,
R354). -/
structure TransferWord where
  input : Bool
  address : Addr
deriving DecidableEq, Repr

/-- A start word, DMA_AD or the first word of a DMC block, read as its fields (48_channels.md R354). -/
def transferOf (w : Word) : TransferWord := { input := w.getLsbD 15, address := w.extractLsb' 0 15 }

/-- The start word after one transfer: the same direction, the address advanced by one, wrapping at 15 bits
(48_channels.md R357, R359). -/
def TransferWord.advanced (t : TransferWord) : Word := BitVec.ofBool t.input ++ (t.address + 1)

/-- The call that ends a block (48_channels.md R357, R359). -/
def endCall (dev : DevNum) : IoCall := { op := .fin, fnc := 0, data := 0, dev := dev }

/-- The call that moves one word: input asks the device, output gives it the memory word (48_channels.md R355,
R356). -/
def State.transferCall (s : State) (t : TransferWord) (dev : DevNum) : IoCall :=
  if t.input then { op := .ina, fnc := 0, data := 0, dev := dev }
  else { op := .ota, fnc := 0, data := s.memRead t.address, dev := dev }

/-- One transfer: a result without skip is `DMAER`, a stop reason ends the engine's step; an input word is stored
with `ChanWrite` (48_channels.md R355, R356, R360). -/
def State.transfer (s : State) (t : TransferWord) (dev : DevNum) : Phase :=
  let call := s.transferCall t dev
  let reply := s.ioReply call
  let s1 := s.afterIo call
  if !reply.skip then .halt (s1.stop .dmaer)
  else (s1.haltOn reply.stop).bind fun s2 => .go (if t.input then s2.setCell t.address reply.data else s2)

/-- The end-of-range call, where the block is complete; its skip is ignored (48_channels.md R357, R359). -/
def State.finishBlock (s : State) (complete : Bool) (dev : DevNum) : Phase :=
  if complete then (s.afterIo (endCall dev)).haltOn (s.ioReply (endCall dev)).stop else .go s

/-- The registers of a DMA channel after a transfer (48_channels.md R357). -/
def DmaChannel.advanced (ch : DmaChannel) : DmaChannel :=
  { ad := (transferOf ch.ad).advanced, wc := ch.wc - 1, eor := ch.eor || decide (ch.wc - 1 = 0) }

/-- Service of DMA channel k: transfer, bookkeeping, end of range (48_channels.md R354 to R357). -/
def State.serviceDma (s : State) (k : Fin 4) (dev : DevNum) : Phase :=
  (s.transfer (transferOf s.dma[k].ad) dev).bind fun s1 =>
    { s1 with dma := s1.dma.set k s1.dma[k].advanced }.finishBlock (decide (s1.dma[k].wc - 1 = 0)) dev

/-- The address of the start word of DMC channel k's block; the sum is not reduced (48_channels.md R353). -/
def State.dmcStart (s : State) (k : Fin 16) : Nat := s.cfg.dmcBase.toNat + 2 * k.val

/-- The address of the end word of DMC channel k's block (48_channels.md R353). -/
def State.dmcEnd (s : State) (k : Fin 16) : Nat := s.dmcStart k + 1

/-- `ChanRead` of a control word: an address past the 32768 words is beyond every memory size and reads 0
(20_memory.md R71, R72, R77; DEDUCED, assumption log 22). -/
def State.chanRead (s : State) (n : Nat) : Word := if n < 32768 then s.memRead (BitVec.ofNat 15 n) else 0

/-- `ChanWrite` of a control word: past the 32768 words it is discarded (20_memory.md R71, R72, R77; DEDUCED, assumption
log 22). -/
def State.chanWrite (s : State) (n : Nat) (v : Word) : State :=
  { s with mem := if n < 32768 then (s.setCell (BitVec.ofNat 15 n) v).mem else s.mem }

/-- Service of DMC channel k: both control words are read first, then transfer, bookkeeping, end of range; the end
address is inclusive (48_channels.md R354 to R356, R359). -/
def State.serviceDmc (s : State) (k : Fin 16) (dev : DevNum) : Phase :=
  let t := transferOf (s.chanRead (s.dmcStart k))
  let last : Addr := (s.chanRead (s.dmcEnd k)).extractLsb' 0 15
  (s.transfer t dev).bind fun s1 =>
    (s1.chanWrite (s.dmcStart k) t.advanced).finishBlock (decide (t.address = last)) dev

/-- `CHAN_REQ[i] <- 0` (48_channels.md R351). -/
def State.clearChannel (s : State) (i : Fin 20) : State := { s with chanReq := s.chanReq &&& ~~~(1#20 <<< i.val) }

/-- `ServiceChannel(i)` with its device (48_channels.md R350, R352, R354). -/
def State.serviceFor (s : State) (i : Fin 20) (dev : DevNum) : Phase :=
  if h : i.val < 4 then s.serviceDma ⟨i.val, h⟩ dev
  else s.serviceDmc ⟨i.val - 4, by omega⟩ dev

/-- A requested channel: its bit is cleared, then it is serviced; with no device mapped the spec defines no state
(48_channels.md R351, R352). -/
def State.serviceChannel (s : State) (i : Fin 20) : Phase :=
  match s.cfg.chanMap[i] with
  | some dev => (s.clearChannel i).serviceFor i dev
  | none => .fault (.unmappedChannel i)

/-- The scan of the channels in the given order; each request bit is read when the scan reaches it, and a stop ends
the scan (48_channels.md R351). -/
def State.scanChannels (s : State) : List (Fin 20) → Phase
  | [] => .go s
  | i :: rest =>
    if s.chanReq.getLsbD i.val then (s.serviceChannel i).bind fun s1 => s1.scanChannels rest
    else s.scanChannels rest

/-- `ServiceChannels()`, phase 1 of an iteration (48_channels.md R351, 49_main_loop.md R370). -/
def State.serviceChannels (s : State) : Phase := s.scanChannels channelOrder

end Sys2Proof.Machine
end

