-- ==== Sys2Proof/Machine/MainLoop.lean ====
section
/-! DEFINITION. Phases 2 and 3 of an iteration: the interrupt check and the fetch or pseudo-fetch (49_main_loop.md
R370 to R374, 60_exceptions.md R410 to R422). -/

namespace Sys2Proof.Machine

/-- The standard interrupt condition (60_exceptions.md R411). -/
def State.stdReady (s : State) : Bool :=
  s.intOn && s.intNodef && (decide (s.intReq &&& s.intEnb ≠ 0) || (s.cfg.startReq && s.intStart))

/-- The extended interrupt condition, which a ready standard interrupt preempts (60_exceptions.md R413, R415). -/
def State.extReady (s : State) : Bool :=
  !s.stdReady && decide (0 < s.cfg.nXint) && s.intOn && s.intNodef && decide (s.xintReq &&& s.xintEnb ≠ 0)

/-- The extended lines, lowest first (60_exceptions.md R413). -/
def lineOrder : List (Fin 16) := [0, 1, 2, 3, 4, 5, 6, 7, 8, 9, 10, 11, 12, 13, 14, 15]

/-- The lowest extended line that is requested and enabled (60_exceptions.md R413, R416). -/
def State.readyLine (s : State) : Option (Fin 16) :=
  lineOrder.find? fun i => (s.xintReq &&& s.xintEnb).getLsbD i.val

/-- `XINT_REQ[i] <- 0` (60_exceptions.md R416). -/
def State.clearLine (s : State) (i : Fin 16) : State := { s with xintReq := s.xintReq &&& ~~~(1#16 <<< i.val) }

/-- The vector of an extended line (60_exceptions.md R420). -/
def State.lineVector (s : State) (i : Fin 16) : Addr := s.cfg.xintBase + BitVec.ofNat 15 i.val

/-- `INT_START <- 0`, in every iteration (60_exceptions.md R414). -/
def State.clearStart (s : State) : State := { s with intStart := false }

/-- The state after the plain fetch: PC advanced, `INT_NODEF` set (49_main_loop.md R370, R373). -/
def State.fetched (s : State) : State := { s.skip with intNodef := true }

/-- What phases 2 and 3 lead to: an instruction word to execute, or an end of the iteration by `IBKPT`. -/
inductive Fetch where
  | execute (ir : Word) (s : State)
  | halt (s : State)
deriving DecidableEq, Repr

/-- The plain fetch, with the execute breakpoint before it (49_main_loop.md R370, R372, R373). -/
def State.plainFetch (s : State) : Fetch :=
  if s.execBreak s.pc then .halt (s.stop .ibkpt) else .execute (s.memRead s.pc) s.fetched

/-- Phases 2 and 3 (49_main_loop.md R370): a ready standard interrupt, else a ready extended one, else the fetch. -/
def State.nextInstruction (s : State) : Fetch :=
  if s.stdReady then .execute (interruptWord s.cfg.stdVec) s.clearStart.interruptEntry
  else if s.extReady then
    match s.readyLine with
    | some i => .execute (interruptWord (s.lineVector i)) (s.clearStart.clearLine i).interruptEntry
    | none => s.clearStart.plainFetch
  else s.clearStart.plainFetch

end Sys2Proof.Machine
end

