-- ==== Sys2Proof/Machine/Step.lean ====
section
/-! DEFINITION. One step of the CPU: one iteration of the main loop (49_main_loop.md R370). -/

namespace Sys2Proof.Machine

/-- Phases 2 to 4 of an iteration: the word that phase 3 gives is decoded under the mode flag DP and executed
(49_main_loop.md R370, 30_encoding.md R113). -/
def State.runInstruction (s : State) : Result :=
  match s.nextInstruction with
  | .halt s1 => .next s1
  | .execute ir s1 => exec (decode s1.dp ir) s1

/-- One iteration (49_main_loop.md R370). A stopped CPU has no step (10_state.md R48); a configuration outside
00_scope.md R9 is refused. -/
def step (s : State) : Host.Outcome State Fault Refusal :=
  match s.run with
  | .stopped _ => .fault .cpuStopped
  | .running =>
    if s.cfg.wf then
      match s.serviceChannels with
      | .go s1 => s1.runInstruction
      | .halt s1 => .next s1
      | .fault f => .fault f
    else .refused .badConfiguration

/-- The state with one instruction word stored at PC, where the plain fetch reads it (49_main_loop.md R373): the load
of a program by the host (70_reset_and_hazards.md R455; assumption log 14). -/
def State.withFetchWord (s : State) (nbits w : Nat) : State :=
  { s with mem := s.mem.writeWord s.pc (BitVec.ofNat 16 (w % 2 ^ nbits)) }

end Sys2Proof.Machine
end

