-- ==== Sys2Proof/Safety.lean ====
section
/-! DEFINITION. The terms statements about the machine are made in: the invariant, what a store leaves of memory, when
an interrupt is ready, which instructions may write a register, what a device call leaves, and what the channel scan
serves. They are written from
the rules, not from the operations of Machine/. -/

namespace Sys2Proof.Machine

/-! ## The invariant -/

/-- What every step keeps: memory in its canonical form, nothing in the cells that do not exist (20_memory.md R72), no
request of a channel or a line that is not configured (48_channels.md R350, 10_state.md R44), and no mode whose option
is absent (43_control.md R214, R215; 47_io.md R331; 60_exceptions.md R421). -/
structure State.Inv (s : State) : Prop where
  mem_wf : s.mem.wf = true
  absent_cells : ∀ a : Addr, s.cfg.memSize ≤ a.toNat → s.mem.readWord a = 0
  channels : s.chanReq &&& ~~~channelMask s.cfg = 0
  line_requests : s.xintReq &&& ~~~lineMask s.cfg.nXint = 0
  line_enables : s.xintEnb &&& ~~~lineMask s.cfg.nXint = 0
  extend : s.ext = true ∨ s.extoff = true ∨ s.pme = true → s.cfg.optExt = true
  double : s.dp = true → s.cfg.optHsa = true

/-! ## Memory -/

/-- Every byte of memory reads as before. -/
def SameMemory (s : State) (m : Memory) : Prop := ∀ k, m.readByte k = s.mem.readByte k

/-- Every byte outside the word at `a` reads as before. -/
def SameMemoryBut (s : State) (m : Memory) (a : Addr) : Prop :=
  ∀ k, k ≠ 2 * a.toNat → k ≠ 2 * a.toNat + 1 → m.readByte k = s.mem.readByte k

/-- Whether `MemWrite(a, v)` performs its write (20_memory.md R74). -/
def WritePerformed (s : State) (a : Addr) : Prop := (a = 0 ∨ 0o20 ≤ a.toNat) ∧ a.toNat < s.cfg.memSize

/-- What `MemWrite(a, v)` leaves of memory: the word where the write is performed, the old word where it is discarded,
and every other byte as before (20_memory.md R74, R75). -/
def StoresWord (s : State) (m : Memory) (a : Addr) (v : Word) : Prop :=
  (WritePerformed s a → m.readWord a = v) ∧ (¬WritePerformed s a → SameMemory s m) ∧ SameMemoryBut s m a

/-- What `ChanWrite(a, v)` and LDX's write of XR leave of memory: gated by the memory size alone
(20_memory.md R77, R79). -/
def StoresCell (s : State) (m : Memory) (a : Addr) (v : Word) : Prop :=
  (a.toNat < s.cfg.memSize → m.readWord a = v) ∧ (s.cfg.memSize ≤ a.toNat → SameMemory s m) ∧ SameMemoryBut s m a

/-- The shadow address of XR (20_memory.md R78). -/
def shadowAddress (s : State) : Addr := if s.ext then 0 else if s.pc.getLsbD 14 then 0o40000#15 else 0

/-- PC moved by a number of words within its address space (20_memory.md R80). -/
def pcPlus (s : State) (n : Word) : Addr := s.newa s.pc (s.pc.setWidth 16 + n)

/-- A skip taken where `take` is true (00_scope.md R14). -/
def skipWhen (s : State) (take : Bool) : State := { s with pc := if take then pcPlus s 1 else s.pc }

/-! ## Iterations and interrupts -/

/-- The channel phase of an iteration completes, and the interrupt check begins in u: the CPU runs, under a configuration
of 00_scope.md R9 (48_channels.md R351, R361; 49_main_loop.md R370). With no channel requested, u is s. -/
def AfterChannels (s u : State) : Prop := s.run = .running ∧ s.cfg.wf = true ∧ s.serviceChannels = .go u

/-- The standard interrupt condition (60_exceptions.md R411, R414). -/
def StandardReady (s : State) : Prop :=
  s.intOn = true ∧ s.intNodef = true ∧
    (s.intReq &&& s.intEnb ≠ 0 ∨ (s.cfg.startReq = true ∧ s.intStart = true))

/-- The extended interrupt condition (60_exceptions.md R413, R415). -/
def ExtendedReady (s : State) : Prop :=
  ¬StandardReady s ∧ 0 < s.cfg.nXint ∧ s.intOn = true ∧ s.intNodef = true ∧ s.xintReq &&& s.xintEnb ≠ 0

/-- The instruction JST* through a vector, as the interrupt system synthesizes it (49_main_loop.md R374). -/
def vectorJump (vec : Addr) : Instr :=
  .jst { indirect := true, indexed := false, sector := false, disp := vec.setWidth 9 }

/-- What a stop raised for an illegal instruction does (60_exceptions.md R405). -/
def illegalStop (s : State) : State := if s.cfg.stopInst then { s with run := .stopped .rsrv } else s

/-! ## Devices -/

/-- RUN after a callback's stop field is applied (47_io.md R323). -/
def runAfter (s : State) (stop : Option StopReason) : Run :=
  match stop with
  | none => s.run
  | some reason => .stopped reason

/-- The state after a call of an external device, but for what the instruction does with the reply: the call is on
record, the answer is used up, and the request bits are the given ones (47_io.md R321). -/
def afterCall (s : State) (call : IoCall) (r x : BitVec 16) (ch : BitVec 20) : State :=
  { s with
    intReq := r, xintReq := x, chanReq := ch
    deviceAnswers := s.deviceAnswers.tail, deviceCalls := call :: s.deviceCalls, draws := s.draws + 1 }

/-- Whether a channel is configured (48_channels.md R350). -/
def ChannelConfigured (k : Config) (i : Fin 20) : Prop :=
  (i.val < 4 ∧ i.val < k.nDma) ∨ (4 ≤ i.val ∧ i.val - 4 < k.nDmc)

/-- The request bits a device leaves: each bit it clears is 0, then each bit it sets is 1, and no other changes. It
raises no extended line at or above `N_XINT`, and touches only the configured channels that `CHAN_MAP` gives it
(10_state.md R44, R56; 48_channels.md R350; assumption log 6). -/
def RequestsAfter (s : State) (dev : DevNum) (q : RequestChange) (r x : BitVec 16) (ch : BitVec 20) : Prop :=
  (∀ j : Fin 16, r.getLsbD j.val =
    (s.intReq.getLsbD j.val && !q.intClear.getLsbD j.val || q.intSet.getLsbD j.val)) ∧
  (∀ j : Fin 16, x.getLsbD j.val =
    (s.xintReq.getLsbD j.val && !q.xintClear.getLsbD j.val
      || q.xintSet.getLsbD j.val && decide (j.val < s.cfg.nXint))) ∧
  ∀ i : Fin 20,
    (s.cfg.chanMap[i] = some dev ∧ ChannelConfigured s.cfg i → ch.getLsbD i.val =
      (s.chanReq.getLsbD i.val && !q.chanClear.getLsbD i.val || q.chanSet.getLsbD i.val)) ∧
    (¬(s.cfg.chanMap[i] = some dev ∧ ChannelConfigured s.cfg i) → ch.getLsbD i.val = s.chanReq.getLsbD i.val)

/-- `a` is what the device answers to the call, the answer it has ready where there is one, and the request bits are
those it leaves (47_io.md R321, 10_state.md R56). -/
def AnswersCall (s : State) (call : IoCall) (a : DeviceAnswer) (r x : BitVec 16) (ch : BitVec 20) : Prop :=
  (∀ b rest, s.deviceAnswers = b :: rest → a = b) ∧ RequestsAfter s call.dev a.requests r x ch

/-! ## Channels -/

/-- No channel from index `lo` to below `hi` is requested. -/
def NoRequest (s : State) (lo hi : Nat) : Prop :=
  ∀ i : Fin 20, lo ≤ i.val → i.val < hi → s.chanReq.getLsbD i.val = false

/-- The request bits without channel i's (48_channels.md R351). -/
def WithoutRequest (s : State) (i : Fin 20) (q : BitVec 20) : Prop :=
  ∀ j : Fin 20, q.getLsbD j.val = (s.chanReq.getLsbD j.val && decide (j ≠ i))

/-- A DMC control word; past the 32768 words there is no memory, and it reads 0 (48_channels.md R353; 20_memory.md R71,
R72; assumption log 22). -/
def controlWordAt (s : State) (n : Nat) : Word := if n < 32768 then s.memRead (BitVec.ofNat 15 n) else 0

/-- The address of the start word of the DMC channel with index i (48_channels.md R353). -/
def blockAddress (s : State) (i : Fin 20) : Nat := s.cfg.dmcBase.toNat + 2 * (i.val - 4)

/-- The word that gives a channel's direction and address (48_channels.md R354). -/
def startWord (s : State) (i : Fin 20) : Word :=
  if h : i.val < 4 then s.dma[i.val].ad else controlWordAt s (blockAddress s i)

/-- The call that moves a word, from the direction and the address in a start word (48_channels.md R355, R356). -/
def wordCall (s : State) (w : Word) (dev : DevNum) : IoCall :=
  if w.getLsbD 15 then { op := .ina, fnc := 0, data := 0, dev := dev }
  else { op := .ota, fnc := 0, data := s.memRead (w.setWidth 15), dev := dev }

/-- The call that reports the end of a block (48_channels.md R357, R359). -/
def endOfRange (dev : DevNum) : IoCall := { op := .fin, fnc := 0, data := 0, dev := dev }

/-- What an end-of-range call leads to: the scan goes on, or the device's stop reason ends it (48_channels.md R357,
R359). -/
def goOrStop (t : State) (stop : Option StopReason) : Phase :=
  match stop with
  | none => .go t
  | some reason => .halt { t with run := .stopped reason }

/-- The service of channel i ends in p; and so does the channel phase, where i is the first channel requested and, if
the scan goes on, the last (48_channels.md R351). -/
def ServiceEnds (s : State) (i : Fin 20) (p : Phase) : Prop :=
  s.serviceChannel i = p ∧
    (s.chanReq.getLsbD i.val = true → NoRequest s 0 i.val → (∀ t, p = .go t → NoRequest t (i.val + 1) 20) →
      s.serviceChannels = p)

/-- The scan, at index `lo` in state s, serves these channels one after the other and comes to index n in state t: a
channel is served where its bit is set in the state the scan reaches it in, and passed over where it is not
(48_channels.md R351). -/
def ServesInTurn (s : State) (lo : Nat) : List (Fin 20) → State → Nat → Prop
  | [], t, n => lo ≤ n ∧ NoRequest s lo n ∧ t = s
  | i :: served, t, n =>
    lo ≤ i.val ∧ NoRequest s lo i.val ∧ s.chanReq.getLsbD i.val = true ∧
      ∃ s1, s.serviceChannel i = .go s1 ∧ ServesInTurn s1 (i.val + 1) served t n

/-! ## Conditions and writers -/

/-- The condition that bit b of a skip word selects (45_skip.md R270). -/
def conditionHolds (s : State) : Fin 9 → Bool
  | 0 => s.c
  | 1 => s.ss4
  | 2 => s.ss3
  | 3 => s.ss2
  | 4 => s.ss1
  | 5 => decide (s.ar ≠ 0)
  | 6 => s.ar.getLsbD 0
  | 7 => s.intReq.getLsbD s.cfg.lineMpe.val
  | 8 => s.ar.getLsbD 15

/-- The instructions that may write BR (10_state.md R52); a control word with several bits may be a NRM or an IAB. -/
def MayWriteBr (i : Instr) : Prop :=
  (∃ op, i = .dld op ∨ i = .dad op ∨ i = .dsb op ∨ i = .mpy op ∨ i = .div op) ∨
    (∃ n, i = .lrl n ∨ i = .lrs n ∨ i = .lrr n ∨ i = .quirk3 n ∨ i = .lll n ∨ i = .lls n ∨ i = .llr n ∨
      i = .quirk13 n) ∨
    i = .nrm ∨ i = .iab ∨ ∃ bits, i = .controlMicro bits

/-- The instructions that may write C (10_state.md R52). -/
def MayWriteC (i : Instr) : Prop :=
  (∃ op, i = .add op ∨ i = .sub op ∨ i = .dad op ∨ i = .dsb op ∨ i = .div op ∨ i = .mpy op) ∨
    i.cls = .shift ∨ i.cls = .operate ∨ i = .otk

/-- The instructions that may write EXT or EXTOFF (10_state.md R35, R36). -/
def MayWriteExtend (i : Instr) : Prop :=
  i = .exa ∨ i = .dxa ∨ i = .otk ∨ (∃ bits, i = .controlMicro bits) ∨ ∃ op, i = .jmp op ∨ i = .jst op

/-- The instructions that may write DP (10_state.md R38). -/
def MayWriteDp (i : Instr) : Prop := i = .sgl ∨ i = .dbl ∨ i = .otk ∨ ∃ bits, i = .controlMicro bits

/-- The instructions that store to memory (20_memory.md R74, 42_memory_reference.md R185). -/
def MayStore (i : Instr) : Prop :=
  (∃ op, i = .sta op ∨ i = .dst op ∨ i = .jst op ∨ i = .irs op ∨ i = .ima op) ∨ ∃ op, i = .stx op ∨ i = .ldx op

end Sys2Proof.Machine
end

