-- ==== Sys2Proof/Certificates/Slice0/Obligations.lean ====
section
/-! DEFINITION. The statements for the provers. An instruction's statement is an equation for `exec`: it gives the next
state whole, so it says that the instruction completes, what it writes, and that nothing else changes. Where memory is
written, `StoresWord` or `StoresCell` says which bytes. A free value is an existential. -/

open Sys2Proof Sys2Proof.Machine

/-! ## Encoding -/

/-- Decoding the word of a well-formed instruction gives the instruction back, under the mode that picks its row
(30_encoding.md R101 to R109, R115). -/
def Obligations.DecodeEncodeRoundTrip : Prop :=
  ∀ (dp : Bool) (i : Instr), i.wf = true → i.pickedUnder dp = true → decode dp (encode i) = i

/-- Every word selects exactly one row, and the row's word is that word (30_encoding.md R115). -/
def Obligations.EveryWordIsOneInstruction : Prop :=
  ∀ (dp : Bool) (w : Word),
    (decode dp w).wf = true ∧ (decode dp w).pickedUnder dp = true ∧ encode (decode dp w) = w ∧
      ∀ i : Instr, i.wf = true → i.pickedUnder dp = true → encode i = w → i = decode dp w

/-- The class of the instruction a word decodes to is the one the table of 30_encoding.md R101 gives, whatever DP. -/
def Obligations.ClassDispatch : Prop :=
  ∀ (dp : Bool) (w : Word),
    (decode dp w).cls =
      if w.extractLsb' 10 6 = 0o00#6 then .control
      else if w.extractLsb' 10 6 = 0o20#6 then .shift
      else if w.extractLsb' 10 6 = 0o40#6 then .skip
      else if w.extractLsb' 10 6 = 0o60#6 then .operate
      else if w.extractLsb' 10 4 = 0o14#4 then .io
      else if w.extractLsb' 10 4 = 0o15#4 then .indexTransfer
      else .memoryReference

/-- A few words written out from the spec's examples decode to what they stand for. -/
def Obligations.NamedWordsDecode : Prop :=
  decode false 0o004010#16 = .lda { indirect := false, indexed := false, sector := false, disp := 0o10#9 } ∧
    decode true 0o004010#16 = .dld { indirect := false, indexed := false, sector := false, disp := 0o10#9 } ∧
    decode false 0o072110#16 = .ldx { indirect := false, sector := false, disp := 0o110#9 } ∧
    decode false 0o000013#16 = .exa ∧
    decode false 0o000417#16 = .controlMicro 0o207#9 ∧
    decode false 0o040477#16 = .lgr 1#6 ∧
    decode false 0o101040#16 = .snz ∧
    decode false 0o101140#16 = .skip true 0o140#9 ∧
    decode false 0o141206#16 = .aoa ∧
    decode false 0o140000#16 = .undefinedOperate 0#10 ∧
    decode false 0o131004#16 = .ina true 0#3 0o04#6 ∧
    decode false 0o171020#16 = .otk ∧
    decodeTableWord 16 0o002200 =
      some (.jmp { indirect := false, indexed := false, sector := false, disp := 0o200#9 }) ∧
    decodeTableWord 8 0o200 = none

/-! ## The iteration -/

/-- An iteration whose channel phase completes in u (with no channel to serve, in s itself), with no interrupt ready and
no breakpoint at PC there, runs the instruction that the word at PC decodes to in u, with PC advanced, INT_NODEF set and
INT_START cleared: what the channels moved is seen by the fetch of the same iteration (49_main_loop.md R370, R373;
48_channels.md R361). -/
def Obligations.StepRunsDecodedInstruction : Prop :=
  ∀ (s u : State) (i : Instr), AfterChannels s u → ¬StandardReady u → ¬ExtendedReady u → u.pc ∉ u.cfg.execBkpt →
    decode u.dp (u.memRead u.pc) = i →
      step s = exec i { u with intStart := false, pc := pcPlus u 1, intNodef := true }

/-- The invariant is kept by every step, from every state that has it. -/
def Obligations.StepKeepsInvariant : Prop :=
  ∀ s t : State, s.Inv → step s = .next t → t.Inv

/-- The state after reset has the invariant. -/
def Obligations.ResetSatisfiesInvariant : Prop := State.reset.Inv

/-- A standard interrupt that is ready in the state u the channel phase leaves, so also one that a channel's device has
just requested, is taken in place of the fetch, whatever breakpoint is at PC: the entry changes PME, EXT, EXTOFF and
INT_ON, and JST* through the vector is executed with PC not advanced; in extended mode, with the handler's address in the
vector cell, the interrupted PC is stored as the link and execution goes on behind it
(60_exceptions.md R411, R421, R422; 48_channels.md R361). -/
def Obligations.StandardInterruptTaken : Prop :=
  ∀ s u : State, AfterChannels s u → StandardReady u →
    step s = exec (vectorJump u.cfg.stdVec)
      { u with intStart := false, pme := u.ext, ext := u.ext || u.cfg.optExt, extoff := false, intOn := false } ∧
    ∀ y : Addr, u.cfg.optExt = true → u.memRead u.cfg.stdVec = y.setWidth 16 → y ∉ u.cfg.writeBkpt →
      ∃ m, StoresWord u m y (u.pc.setWidth 16) ∧
        step s = .next
          { u with
            intStart := false, pme := u.ext, ext := true, extoff := false, intOn := false, pc := y + 1, mem := m }

/-- With no standard interrupt ready in the state u the channel phase leaves, the lowest requested and enabled extended
line is taken: its request bit alone is cleared, and JST* through its vector is executed
(60_exceptions.md R415, R416). -/
def Obligations.ExtendedInterruptTaken : Prop :=
  ∀ (s u : State) (i : Fin 16), AfterChannels s u → ExtendedReady u →
    (u.xintReq &&& u.xintEnb).getLsbD i.val = true →
    (∀ j : Fin 16, j < i → (u.xintReq &&& u.xintEnb).getLsbD j.val = false) →
      ∃ x : BitVec 16, (∀ j : Fin 16, x.getLsbD j.val = (u.xintReq.getLsbD j.val && decide (j ≠ i))) ∧
        step s = exec (vectorJump (u.cfg.xintBase + BitVec.ofNat 15 i.val))
          { u with
            intStart := false, xintReq := x, pme := u.ext, ext := u.ext || u.cfg.optExt, extoff := false
            intOn := false }

/-- After an ENB no interrupt is ready in the next iteration, neither before nor after its channel phase, so that it runs
the next instruction and sets INT_NODEF for the one after it (60_exceptions.md R412). -/
def Obligations.EnbDefersInterrupts : Prop :=
  ∀ s u : State, AfterChannels s u → ¬StandardReady u → ¬ExtendedReady u → u.pc ∉ u.cfg.execBkpt →
    decode u.dp (u.memRead u.pc) = .enb →
      ∃ t, step s = .next t ∧ t.intOn = true ∧ ¬StandardReady t ∧ ¬ExtendedReady t ∧
        ∀ v, AfterChannels t v →
          ¬StandardReady v ∧ ¬ExtendedReady v ∧
            (v.pc ∉ v.cfg.execBkpt →
              step t = exec (decode v.dp (v.memRead v.pc))
                { v with intStart := false, pc := pcPlus v 1, intNodef := true })

/-- At the plain fetch, after the channel phase, an execute breakpoint at PC stops the CPU before the word is read; a PC at
or above MEMSIZE fetches 0, which halts (60_exceptions.md R403, 49_main_loop.md R372, R373). -/
def Obligations.FetchEdges : Prop :=
  ∀ s u : State, AfterChannels s u → ¬StandardReady u → ¬ExtendedReady u →
    (u.pc ∈ u.cfg.execBkpt → step s = .next { u with intStart := false, run := .stopped .ibkpt }) ∧
    (u.pc ∉ u.cfg.execBkpt → u.cfg.memSize ≤ u.pc.toNat →
      step s = .next
        { u with intStart := false, pc := pcPlus u 1, intNodef := true, run := .stopped .halt })

/-- A stopped CPU has no step (10_state.md R48; the fault is the model's form of it, assumption log 8); a configuration
outside 00_scope.md R9 is refused (assumption log 9). -/
def Obligations.StoppedCpuHasNoStep : Prop :=
  ∀ s : State,
    (∀ reason, s.run = .stopped reason → step s = .fault .cpuStopped) ∧
    (s.run = .running → s.cfg.wf = false → step s = .refused .badConfiguration)

/-- INT_START is cleared by every iteration that gets past its channel phase, whatever else it does
(60_exceptions.md R414). -/
def Obligations.StartButtonCleared : Prop :=
  ∀ s s1 t : State, s.serviceChannels = .go s1 → step s = .next t → t.intStart = false

/-- No step changes the configuration, the sense switches or XINT_ENB (10_state.md R40, R44, R50). -/
def Obligations.StepKeepsConfigurationAndSwitches : Prop :=
  ∀ s t : State, step s = .next t →
    t.cfg = s.cfg ∧ t.ss1 = s.ss1 ∧ t.ss2 = s.ss2 ∧ t.ss3 = s.ss3 ∧ t.ss4 = s.ss4 ∧ t.xintEnb = s.xintEnb

/-! ## What an instruction may write -/

/-- BR and C are written only by the instructions of 10_state.md R52. -/
def Obligations.WritersOfBrAndC : Prop :=
  ∀ (i : Instr) (s t : State), i.wf = true → exec i s = .next t →
    (¬MayWriteBr i → t.br = s.br) ∧ (¬MayWriteC i → t.c = s.c)

/-- EXT and EXTOFF, DP, and INT_ENB are written only by the instructions of 10_state.md R35, R36, R38 and R43; no
instruction writes PME, the DMA registers or INT_START (R37, R42; 48_channels.md R358). -/
def Obligations.WritersOfModes : Prop :=
  ∀ (i : Instr) (s t : State), i.wf = true → exec i s = .next t →
    (¬MayWriteExtend i → t.ext = s.ext ∧ t.extoff = s.extoff) ∧ (¬MayWriteDp i → t.dp = s.dp) ∧
      (i ≠ .smk → t.intEnb = s.intEnb) ∧ t.pme = s.pme ∧ t.dma = s.dma ∧ t.intStart = s.intStart

/-- Only the storing instructions change memory, and none changes a cell from 1 to 0o17 (20_memory.md R74, R75). -/
def Obligations.WritersOfMemory : Prop :=
  ∀ (i : Instr) (s t : State), exec i s = .next t →
    (¬MayStore i → SameMemory s t.mem) ∧
      ∀ a : Addr, 1 ≤ a.toNat → a.toNat ≤ 0o17 → t.mem.readWord a = s.mem.readWord a

/-! ## Memory, XR and PC -/

/-- `MemWrite`: which writes are performed, that the others change nothing, what every later read gives, and that the
breakpoint status does not depend on it (20_memory.md R73 to R76). -/
def Obligations.MemoryWriteGate : Prop :=
  ∀ (s : State) (a : Addr) (v : Word),
    StoresWord s (s.memWrite a v).mem a v ∧ s.memWrite a v = { s with mem := (s.memWrite a v).mem } ∧
      (1 ≤ a.toNat → a.toNat ≤ 0o17 → s.memWrite a v = s) ∧ (s.cfg.memSize ≤ a.toNat → s.memWrite a v = s) ∧
      (s.writeBreak a = true ↔ a ∈ s.cfg.writeBkpt) ∧
      ∀ b : Addr, (s.memWrite a v).memRead b =
        if s.cfg.memSize ≤ b.toNat then 0 else (s.memWrite a v).mem.readWord b

/-- XR is the shadow cell: it reads that cell, a write of XR and a `MemWrite` to the cell both change it, and where the
cell does not exist XR reads 0 and its writes are lost (20_memory.md R78, R79). -/
def Obligations.XrIsTheShadowCell : Prop :=
  ∀ (s : State) (v : Word),
    s.xr = (if (shadowAddress s).toNat < s.cfg.memSize then s.mem.readWord (shadowAddress s) else 0) ∧
      s.setXr v = { s with mem := (s.setXr v).mem } ∧ StoresCell s (s.setXr v).mem (shadowAddress s) v ∧
      ((shadowAddress s).toNat < s.cfg.memSize →
        (s.setXr v).xr = v ∧ (s.memWrite (shadowAddress s) v).xr = v) ∧
      (s.cfg.memSize ≤ (shadowAddress s).toNat → s.xr = 0 ∧ s.setXr v = s)

/-- `NEWA` in both modes, and where a skip or a fetch wraps (20_memory.md R80, R81). -/
def Obligations.AddressesWrapInTheirBank : Prop :=
  ∀ (s : State) (x : Addr) (y : Word),
    (s.ext = true → (s.newa x y).toNat = y.toNat % 32768) ∧
      (s.ext = false → (s.newa x y).toNat = x.toNat / 16384 * 16384 + y.toNat % 16384) ∧
      pcPlus s 1 =
        if s.ext then s.pc + 1
        else if s.pc = 0o37777#15 then 0
        else if s.pc = 0o77777#15 then 0o40000#15
        else s.pc + 1

/-- `Ea` in extended mode: the initial address, the chain of indirect words up to IND_MAX hops, then the index of the
instruction's own word; a chain still indirect after IND_MAX hops gives no address
(40_effective_address.md R141, R142, R144). -/
def Obligations.EffectiveAddressExtended : Prop :=
  ∀ (s : State) (op : MemOp) (y : Nat → Word), s.ext = true →
    (y 0).toNat = (if op.indirect then 32768 else 0) + op.disp.toNat +
      (if op.sector then (s.pc - 1).toNat / 512 * 512 else 0) →
    (∀ i, i < s.cfg.indMax → y (i + 1) = s.memRead ((y i).setWidth 15)) →
      (∀ n, n ≤ s.cfg.indMax → (∀ i, i < n → (y i).getLsbD 15 = true) → (y n).getLsbD 15 = false →
        s.ea op = some ((y n + if op.indexed then s.xr else 0).setWidth 15)) ∧
      ((∀ i, i ≤ s.cfg.indMax → (y i).getLsbD 15 = true) → s.ea op = none)

/-- `Ea` in non-extended mode: the initial address is indexed first; each indirect word supplies its own index bit; the
address stays in PC's bank (40_effective_address.md R141, R143, R144, R148). `w` is the word last obtained, `y` the
address it gave; the first word counts only through its indirect bit. -/
def Obligations.EffectiveAddressBanked : Prop :=
  ∀ (s : State) (op : MemOp) (y0 : Word) (w : Nat → Word) (y : Nat → Addr), s.ext = false →
    y0.toNat = (if op.indirect then 32768 else 0) + op.disp.toNat +
      (if op.sector then (s.pc - 1).toNat / 512 * 512 else 0) →
    (w 0).getLsbD 15 = op.indirect → y 0 = s.newa s.pc (y0 + if op.indexed then s.xr else 0) →
    (∀ i, i < s.cfg.indMax → w (i + 1) = s.memRead (y i) ∧
      y (i + 1) = s.newa (y i) (w (i + 1) + if (w (i + 1)).getLsbD 14 then s.xr else 0)) →
      (∀ n, n ≤ s.cfg.indMax → (∀ i, i < n → (w i).getLsbD 15 = true) → (w n).getLsbD 15 = false →
        s.ea op = some (y n) ∧ (y n).getLsbD 14 = s.pc.getLsbD 14) ∧
      ((∀ i, i ≤ s.cfg.indMax → (w i).getLsbD 15 = true) → s.ea op = none)

/-! ## Memory reference -/

/-- LDA, ANA and ERA (42_memory_reference.md R172, R173, R175). -/
def Obligations.LoadAndLogic : Prop :=
  ∀ (op : MemOp) (s : State),
    (s.ea op = none →
      exec (.lda op) s = .next { s with run := .stopped .ind } ∧
        exec (.ana op) s = .next { s with run := .stopped .ind } ∧
        exec (.era op) s = .next { s with run := .stopped .ind }) ∧
    ∀ y, s.ea op = some y →
      exec (.lda op) s = .next { s with ar := s.memRead y } ∧
        exec (.ana op) s = .next { s with ar := s.ar &&& s.memRead y } ∧
        exec (.era op) s = .next { s with ar := s.ar ^^^ s.memRead y }

/-- ADD and SUB: C is set exactly where the signed sum does not fit 16 bits; SUB adds the two's-complement negation
(42_memory_reference.md R176, R177; 41_adders.md R160, R162). -/
def Obligations.AddAndSubtract : Prop :=
  ∀ (op : MemOp) (s : State),
    (s.ea op = none →
      exec (.add op) s = .next { s with run := .stopped .ind } ∧
        exec (.sub op) s = .next { s with run := .stopped .ind }) ∧
    ∀ y, s.ea op = some y →
      exec (.add op) s = .next
          { s with
            ar := s.ar + s.memRead y
            c := decide (s.ar.toInt + (s.memRead y).toInt < -32768 ∨ 32767 < s.ar.toInt + (s.memRead y).toInt) } ∧
        exec (.sub op) s = .next
          { s with
            ar := s.ar - s.memRead y
            c := decide (s.ar.toInt + (-s.memRead y).toInt < -32768 ∨
              32767 < s.ar.toInt + (-s.memRead y).toInt) }

/-- STA and IMA: the word stored is the one at the effective address; a write breakpoint ends the instruction after
the store (42_memory_reference.md R174, R183). -/
def Obligations.StoreAndInterchange : Prop :=
  ∀ (op : MemOp) (s : State),
    (s.ea op = none →
      exec (.sta op) s = .next { s with run := .stopped .ind } ∧
        exec (.ima op) s = .next { s with run := .stopped .ind }) ∧
    ∀ y, s.ea op = some y →
      ∃ m, StoresWord s m y s.ar ∧
        exec (.sta op) s =
          .next (if y ∈ s.cfg.writeBkpt then { s with mem := m, run := .stopped .wbkpt } else { s with mem := m }) ∧
        exec (.ima op) s =
          .next (if y ∈ s.cfg.writeBkpt then { s with mem := m, run := .stopped .wbkpt }
            else { s with mem := m, ar := s.memRead y })

/-- STX and LDX: neither is indexed; STX stores XR by `MemWrite`, LDX writes XR's cell with no protection and no
breakpoint (42_memory_reference.md R184, R185). -/
def Obligations.StoreAndLoadIndex : Prop :=
  ∀ (op : XferOp) (s : State) (ea : Option Addr),
    s.ea { indirect := op.indirect, indexed := false, sector := op.sector, disp := op.disp } = ea →
    (ea = none →
      exec (.stx op) s = .next { s with run := .stopped .ind } ∧
        exec (.ldx op) s = .next { s with run := .stopped .ind }) ∧
    ∀ y, ea = some y →
      (∃ m, StoresWord s m y s.xr ∧
        exec (.stx op) s =
          .next (if y ∈ s.cfg.writeBkpt then { s with mem := m, run := .stopped .wbkpt } else { s with mem := m })) ∧
      ∃ m, StoresCell s m (shadowAddress s) (s.memRead y) ∧ exec (.ldx op) s = .next { s with mem := m }

/-- JMP, with the pending extend-off, and CAS, with its three outcomes of a signed comparison
(42_memory_reference.md R171, R179 to R181). -/
def Obligations.JumpAndCompare : Prop :=
  ∀ (op : MemOp) (s : State),
    (s.ea op = none →
      exec (.jmp op) s = .next { s with run := .stopped .ind } ∧
        exec (.cas op) s = .next { s with run := .stopped .ind }) ∧
    ∀ y, s.ea op = some y →
      exec (.jmp op) s =
          .next (if s.extoff then { s with pc := s.newa s.pc (y.setWidth 16), ext := false, extoff := false }
            else { s with pc := s.newa s.pc (y.setWidth 16) }) ∧
        exec (.cas op) s =
          .next { s with
            pc := if s.ar = s.memRead y then pcPlus s 1
              else if s.ar.toInt < (s.memRead y).toInt then pcPlus s 2
              else s.pc }

/-- JST: the link is PC, in non-extended mode under bits 15:14 of the old word; a write breakpoint ends it before the
jump; the jump goes behind the link, and a pending extend-off takes effect after it
(42_memory_reference.md R178, R179). -/
def Obligations.JumpAndStore : Prop :=
  ∀ (op : MemOp) (s : State),
    (s.ea op = none → exec (.jst op) s = .next { s with run := .stopped .ind }) ∧
    ∀ y, s.ea op = some y →
      ∃ (m : Memory) (link : Word), StoresWord s m y link ∧
        link.toNat =
          (if s.ext then s.pc.toNat else (s.memRead y).toNat / 16384 * 16384 + s.pc.toNat % 16384) ∧
        exec (.jst op) s =
          .next (if y ∈ s.cfg.writeBkpt then { s with mem := m, run := .stopped .wbkpt }
            else if s.extoff then
              { s with mem := m, pc := s.newa s.pc (y.setWidth 16 + 1), ext := false, extoff := false }
            else { s with mem := m, pc := s.newa s.pc (y.setWidth 16 + 1) })

/-- IRS: the incremented word is stored and the skip depends on it, even where the store is discarded; a write
breakpoint ends it before the skip (42_memory_reference.md R182). -/
def Obligations.IncrementReplaceSkip : Prop :=
  ∀ (op : MemOp) (s : State),
    (s.ea op = none → exec (.irs op) s = .next { s with run := .stopped .ind }) ∧
    ∀ y, s.ea op = some y →
      ∃ m, StoresWord s m y (s.memRead y + 1) ∧
        exec (.irs op) s =
          .next (if y ∈ s.cfg.writeBkpt then { s with mem := m, run := .stopped .wbkpt }
            else { skipWhen s (decide (s.memRead y = 0o177777#16)) with mem := m })

/-- MPY: AR and BR[14:0] hold the signed product, but for 2^30, which wraps; BR[15] and SC are cleared and C is a free
value. Without the arithmetic option it is illegal (42_memory_reference.md R186, R194). -/
def Obligations.Multiply : Prop :=
  ∀ (op : MemOp) (s : State),
    (s.cfg.optHsa = false → exec (.mpy op) s = .next (illegalStop s)) ∧
    (s.cfg.optHsa = true → s.ea op = none → exec (.mpy op) s = .next { s with run := .stopped .ind }) ∧
    ∀ y p, s.cfg.optHsa = true → s.ea op = some y → p = s.ar.toInt * (s.memRead y).toInt →
      ∃ (a b : Word) (c : Bool),
        exec (.mpy op) s = .next { s with ar := a, br := b, c := c, sc := 0, draws := s.draws + 1 } ∧
          b.getLsbD 15 = false ∧ (p ≠ 1073741824 → a.toInt * 32768 + b.toNat = p) ∧
          (p = 1073741824 → a = 0o100000#16 ∧ b = 0)

/-- DIV: a divisor of 0 sets C and changes nothing else; a quotient that fits is truncated toward zero and the
remainder takes the dividend's sign; one that does not fit sets C and leaves AR and BR free. Without the arithmetic
option it is illegal (42_memory_reference.md R187, R194). -/
def Obligations.Divide : Prop :=
  ∀ (op : MemOp) (s : State),
    (s.cfg.optHsa = false → exec (.div op) s = .next (illegalStop s)) ∧
    (s.cfg.optHsa = true → s.ea op = none → exec (.div op) s = .next { s with run := .stopped .ind }) ∧
    ∀ (y : Addr) (n d q r : Int), s.cfg.optHsa = true → s.ea op = some y → d = (s.memRead y).toInt →
      n = s.ar.toInt * 32768 + (s.br.toNat % 32768 : Nat) →
      (d = 0 → exec (.div op) s = .next { s with c := true }) ∧
      (n = q * d + r → |r| < |d| → 0 ≤ r * n →
        (-32768 ≤ q ∧ q < 32768 →
          exec (.div op) s =
            .next { s with ar := BitVec.ofInt 16 q, br := BitVec.ofInt 16 r, c := false, sc := 0 }) ∧
        (q < -32768 ∨ 32768 ≤ q →
          ∃ a b : Word,
            exec (.div op) s =
              .next { s with ar := a, br := b, c := true, sc := 0, draws := s.draws + 1 }))

/-! ## Double precision -/

/-- DLD, DAD and DSB at an even address: 31-bit sums of the value AR:BR[14:0] and the operand's, C set exactly where the
signed sum does not fit 31 bits, BR[15] kept by DAD and DSB, SC cleared
(42_memory_reference.md R189, R192, R193; 41_adders.md R161 to R163). -/
def Obligations.DoubleLoadAndAdd : Prop :=
  ∀ (op : MemOp) (s : State),
    (s.ea op = none →
      exec (.dld op) s = .next { s with run := .stopped .ind } ∧
        exec (.dad op) s = .next { s with run := .stopped .ind } ∧
        exec (.dsb op) s = .next { s with run := .stopped .ind }) ∧
    ∀ (y : Addr) (x z z' : Int), s.ea op = some y → y.getLsbD 0 = false →
      x = s.ar.toInt * 32768 + (s.br.toNat % 32768 : Nat) →
      z = (s.memRead y).toInt * 32768 + ((s.memRead (y + 1)).toNat % 32768 : Nat) →
      z' = Int.bmod (-z) 2147483648 →
        exec (.dld op) s = .next { s with ar := s.memRead y, br := s.memRead (y + 1), sc := 0 } ∧
        (∃ a b : Word, b.getLsbD 15 = s.br.getLsbD 15 ∧
          a.toInt * 32768 + (b.toNat % 32768 : Nat) = Int.bmod (x + z) 2147483648 ∧
          exec (.dad op) s =
            .next { s with
              ar := a, br := b, c := decide (x + z < -1073741824 ∨ 1073741824 ≤ x + z), sc := 0 }) ∧
        ∃ a b : Word, b.getLsbD 15 = s.br.getLsbD 15 ∧
          a.toInt * 32768 + (b.toNat % 32768 : Nat) = Int.bmod (x + z') 2147483648 ∧
          exec (.dsb op) s =
            .next { s with
              ar := a, br := b, c := decide (x + z' < -1073741824 ∨ 1073741824 ≤ x + z'), sc := 0 }

/-- DST at an even address: AR, then BR at the next address, each by `MemWrite`; a write breakpoint on either ends it
there, with SC not cleared (42_memory_reference.md R191). -/
def Obligations.DoubleStore : Prop :=
  ∀ (op : MemOp) (s : State),
    (s.ea op = none → exec (.dst op) s = .next { s with run := .stopped .ind }) ∧
    ∀ y, s.ea op = some y → y.getLsbD 0 = false →
      ∃ m1 m2, StoresWord s m1 y s.ar ∧ StoresWord { s with mem := m1 } m2 (y + 1) s.br ∧
        exec (.dst op) s =
          .next (if y ∈ s.cfg.writeBkpt then { s with mem := m1, run := .stopped .wbkpt }
            else if y + 1 ∈ s.cfg.writeBkpt then { s with mem := m2, run := .stopped .wbkpt }
            else { s with mem := m2, sc := 0 })

/-- A double-precision instruction at an odd address: under `DP_ODD` = fault the model faults and names it; under
`DP_ODD` = pair the pair is Y with bit 0 cleared and Y with bit 0 set, and the instruction does with it what it does with
the pair of an even address (42_memory_reference.md R189 to R193). -/
def Obligations.OddDoubleAddress : Prop :=
  ∀ (op : MemOp) (s : State) (y even odd : Addr), s.ea op = some y → y.getLsbD 0 = true →
    even = y &&& 0o77776#15 → odd = y ||| 1#15 →
    (s.cfg.dpOdd = .fault →
      exec (.dld op) s = .fault (.oddDoubleAddress .dld y) ∧
        exec (.dst op) s = .fault (.oddDoubleAddress .dst y) ∧
        exec (.dad op) s = .fault (.oddDoubleAddress .dad y) ∧
        exec (.dsb op) s = .fault (.oddDoubleAddress .dsb y)) ∧
    (s.cfg.dpOdd = .pair →
      exec (.dld op) s = .next { s with ar := s.memRead even, br := s.memRead odd, sc := 0 } ∧
      (∃ m1 m2, StoresWord s m1 even s.ar ∧ StoresWord { s with mem := m1 } m2 odd s.br ∧
        exec (.dst op) s =
          .next (if even ∈ s.cfg.writeBkpt then { s with mem := m1, run := .stopped .wbkpt }
            else if odd ∈ s.cfg.writeBkpt then { s with mem := m2, run := .stopped .wbkpt }
            else { s with mem := m2, sc := 0 })) ∧
      ∀ x z z' : Int, x = s.ar.toInt * 32768 + (s.br.toNat % 32768 : Nat) →
        z = (s.memRead even).toInt * 32768 + ((s.memRead odd).toNat % 32768 : Nat) →
        z' = Int.bmod (-z) 2147483648 →
          (∃ a b : Word, b.getLsbD 15 = s.br.getLsbD 15 ∧
            a.toInt * 32768 + (b.toNat % 32768 : Nat) = Int.bmod (x + z) 2147483648 ∧
            exec (.dad op) s =
              .next { s with
                ar := a, br := b, c := decide (x + z < -1073741824 ∨ 1073741824 ≤ x + z), sc := 0 }) ∧
          ∃ a b : Word, b.getLsbD 15 = s.br.getLsbD 15 ∧
            a.toInt * 32768 + (b.toNat % 32768 : Nat) = Int.bmod (x + z') 2147483648 ∧
            exec (.dsb op) s =
              .next { s with
                ar := a, br := b, c := decide (x + z' < -1073741824 ∨ 1073741824 ≤ x + z'), sc := 0 })

/-! ## Control -/

/-- HLT stops and changes nothing else, whatever its bits 9:1; the control words 0o000001 and 0o000003 change nothing
(43_control.md R212, R213). -/
def Obligations.HaltAndEmptyControlWords : Prop :=
  ∀ (bits : BitVec 9) (s : State),
    exec (.hlt bits) s = .next { s with run := .stopped .halt } ∧
      exec (.controlMicro 0#9) s = .next s ∧ exec (.controlMicro 1#9) s = .next s

/-- SGL, DBL, DXA and EXA, illegal without their option; RMP; ENB, INH and the word of both
(43_control.md R214, R215, R216, R222, R223). -/
def Obligations.ModeAndInterruptControls : Prop :=
  ∀ s : State,
    exec .sgl s = .next (if s.cfg.optHsa then { s with dp := false } else illegalStop s) ∧
      exec .dbl s = .next (if s.cfg.optHsa then { s with dp := true } else illegalStop s) ∧
      exec .dxa s = .next (if s.cfg.optExt then { s with extoff := true } else illegalStop s) ∧
      exec .exa s = .next (if s.cfg.optExt then { s with ext := true, extoff := false } else illegalStop s) ∧
      (∃ r : BitVec 16, (∀ i : Fin 16, r.getLsbD i.val = (s.intReq.getLsbD i.val && decide (i ≠ s.cfg.lineMpe))) ∧
        exec .rmp s = .next { s with intReq := r }) ∧
      exec .enb s = .next { s with intOn := true, intNodef := false } ∧
      exec .inh s = .next { s with intOn := false } ∧
      exec (.controlMicro 0o600#9) s = .next { s with intOn := false, intNodef := false }

/-- SCA, INK and IAB (43_control.md R217, R218, R220, R221); SC after an IAB is a free value. -/
def Obligations.ReadbackAndInterchange : Prop :=
  ∀ s : State,
    (∃ a : Word, a.toNat = s.sc.toNat % 32 ∧
      exec .sca s = .next (if s.cfg.optHsa then { s with ar := a } else illegalStop s)) ∧
    (∃ a : Word,
      a.toNat = s.c.toNat * 32768 + s.dp.toNat * 16384 + s.pme.toNat * 8192 + s.sc.toNat % 32 ∧
        exec .ink s = .next { s with ar := a }) ∧
    ∃ q : BitVec 6, exec .iab s = .next { s with ar := s.br, br := s.ar, sc := q, draws := s.draws + 1 }

/-- NRM shifts AR:BR[14:0] left as a signed number, without overflow and with BR[15] kept, until AR[15] differs from
AR[14] or 32 steps are done, and puts the number of steps, modulo 32, in SC (43_control.md R219). -/
def Obligations.Normalize : Prop :=
  ∀ s : State,
    (s.cfg.optHsa = false → exec .nrm s = .next (illegalStop s)) ∧
    (s.cfg.optHsa = true →
      ∃ (n : Nat) (a b : Word), n ≤ 32 ∧
        exec .nrm s = .next { s with ar := a, br := b, sc := BitVec.ofNat 6 (n % 32) } ∧
        b.getLsbD 15 = s.br.getLsbD 15 ∧
        a.toInt * 32768 + (b.toNat % 32768 : Nat) =
          (s.ar.toInt * 32768 + (s.br.toNat % 32768 : Nat)) * 2 ^ n ∧
        (n < 32 → a.getLsbD 15 ≠ a.getLsbD 14) ∧
        (n = 32 → s.ar = 0 ∧ s.br.toNat % 32768 = 0) ∧
        (s.ar.getLsbD 15 ≠ s.ar.getLsbD 14 → n = 0))

/-- A control word of any bits: its sub-operations in their order, each without its option left out and making the word
illegal; the readback sees the new DP; of readback, NRM and IAB the first runs (43_control.md R210, R211, R224). -/
def Obligations.ControlWordsCombine : Prop :=
  ∀ (bits : BitVec 9) (s : State) (bit : Nat → Bool), (∀ k, bit (k + 1) = bits.getLsbD k) →
    ∃ (r : BitVec 16) (a b : Word) (q : BitVec 6) (d : Nat),
      exec (.controlMicro bits) s = .next
        { s with
          dp := if bit 2 && s.cfg.optHsa then bit 1 else s.dp
          ext := if bit 3 && s.cfg.optExt && bit 1 then true else s.ext
          extoff := if bit 3 && s.cfg.optExt then !bit 1 else s.extoff
          intReq := r, ar := a, br := b, sc := q, draws := d
          intOn := if bit 9 then false else if bit 8 then true else s.intOn
          intNodef := if bit 8 then false else s.intNodef
          run :=
            if s.cfg.stopInst &&
                ((bit 2 && !s.cfg.optHsa) || (bit 3 && !s.cfg.optExt) || (bit 5 && !bit 1 && !s.cfg.optHsa) ||
                  (!bit 5 && bit 6 && !s.cfg.optHsa)) then
              .stopped .rsrv
            else s.run } ∧
      (∀ i : Fin 16, r.getLsbD i.val = (s.intReq.getLsbD i.val && !(bit 4 && decide (i = s.cfg.lineMpe)))) ∧
      (if bit 5 then
        b = s.br ∧ q = s.sc ∧ d = s.draws ∧
          (bit 1 = true →
            a.toNat = s.c.toNat * 32768 + (if bit 2 && s.cfg.optHsa then bit 1 else s.dp).toNat * 16384 +
              s.pme.toNat * 8192 + s.sc.toNat % 32) ∧
          (bit 1 = false → s.cfg.optHsa = true → a.toNat = s.sc.toNat % 32) ∧
          (bit 1 = false → s.cfg.optHsa = false → a = s.ar)
      else if bit 6 then
        d = s.draws ∧ (s.cfg.optHsa = true → exec .nrm s = .next { s with ar := a, br := b, sc := q }) ∧
          (s.cfg.optHsa = false → a = s.ar ∧ b = s.br ∧ q = s.sc)
      else if bit 7 then a = s.br ∧ b = s.ar ∧ d = s.draws + 1
      else a = s.ar ∧ b = s.br ∧ q = s.sc ∧ d = s.draws)

/-! ## Shifts

SC after a shift is a free value (44_shift.md R241). -/

/-- The logical shifts by a count from 1 to 63, in closed form: LRL, LGR, LLL, LGL
(44_shift.md R240, R242, R245, R248, R251). -/
def Obligations.LogicalShifts : Prop :=
  ∀ (n : BitVec 6) (s : State) (v l : BitVec 32), n ≠ 0 → v = (s.ar ++ s.br) >>> n.toNat →
    l = (s.ar ++ s.br) <<< n.toNat →
    ∃ q : BitVec 6,
      exec (.lrl n) s = .next
          { s with
            ar := v.extractLsb' 16 16, br := v.extractLsb' 0 16, c := (s.ar ++ s.br).getLsbD (n.toNat - 1), sc := q
            draws := s.draws + 1 } ∧
        exec (.lgr n) s = .next
          { s with ar := s.ar >>> n.toNat, c := s.ar.getLsbD (n.toNat - 1), sc := q, draws := s.draws + 1 } ∧
        exec (.lll n) s = .next
          { s with
            ar := l.extractLsb' 16 16, br := l.extractLsb' 0 16
            c := decide (n.toNat ≤ 32) && (s.ar ++ s.br).getLsbD (32 - n.toNat), sc := q, draws := s.draws + 1 } ∧
        exec (.lgl n) s = .next
          { s with
            ar := s.ar <<< n.toNat, c := decide (n.toNat ≤ 16) && s.ar.getLsbD (16 - n.toNat), sc := q
            draws := s.draws + 1 }

/-- The rotates by a count from 1 to 63, in closed form: LRR, ARR, LLR, ALR
(44_shift.md R240, R244, R247, R250, R253). -/
def Obligations.Rotates : Prop :=
  ∀ (n : BitVec 6) (s : State) (v l : BitVec 32), n ≠ 0 → v = (s.ar ++ s.br).rotateRight n.toNat →
    l = (s.ar ++ s.br).rotateLeft n.toNat →
    ∃ q : BitVec 6,
      exec (.lrr n) s = .next
          { s with
            ar := v.extractLsb' 16 16, br := v.extractLsb' 0 16
            c := (s.ar ++ s.br).getLsbD ((n.toNat - 1) % 32), sc := q, draws := s.draws + 1 } ∧
        exec (.arr n) s = .next
          { s with
            ar := s.ar.rotateRight n.toNat, c := s.ar.getLsbD ((n.toNat - 1) % 16), sc := q
            draws := s.draws + 1 } ∧
        exec (.llr n) s = .next
          { s with
            ar := l.extractLsb' 16 16, br := l.extractLsb' 0 16
            c := (s.ar ++ s.br).getLsbD ((64 - n.toNat) % 32), sc := q, draws := s.draws + 1 } ∧
        exec (.alr n) s = .next
          { s with
            ar := s.ar.rotateLeft n.toNat, c := s.ar.getLsbD ((64 - n.toNat) % 16), sc := q
            draws := s.draws + 1 }

/-- The arithmetic right shifts by a count from 1 to 63: LRS on AR:BR[14:0] with BR[15] kept, ARS on AR; C is the last
bit shifted out (44_shift.md R240, R243, R246). -/
def Obligations.ArithmeticRightShifts : Prop :=
  ∀ (n : BitVec 6) (s : State) (v l : BitVec 31), n ≠ 0 → v = s.ar ++ s.br.extractLsb' 0 15 →
    l = v.sshiftRight n.toNat →
    ∃ q : BitVec 6,
      exec (.lrs n) s = .next
          { s with
            ar := l.extractLsb' 15 16, br := BitVec.ofBool (s.br.getLsbD 15) ++ l.extractLsb' 0 15
            c := (v.sshiftRight (n.toNat - 1)).getLsbD 0, sc := q, draws := s.draws + 1 } ∧
        exec (.ars n) s = .next
          { s with
            ar := s.ar.sshiftRight n.toNat, c := (s.ar.sshiftRight (n.toNat - 1)).getLsbD 0, sc := q
            draws := s.draws + 1 }

/-- The arithmetic left shifts by a count from 1 to 63: LLS on AR:BR[14:0] with BR[15] kept, ALS on AR; C is set exactly
where the sign changes at some step, that is where the signed result does not fit
(44_shift.md R240, R249, R252). -/
def Obligations.ArithmeticLeftShifts : Prop :=
  ∀ (n : BitVec 6) (s : State) (v l : BitVec 31), n ≠ 0 → v = s.ar ++ s.br.extractLsb' 0 15 → l = v <<< n.toNat →
    ∃ q : BitVec 6,
      exec (.lls n) s = .next
          { s with
            ar := l.extractLsb' 15 16, br := BitVec.ofBool (s.br.getLsbD 15) ++ l.extractLsb' 0 15
            c := decide (v.toInt * 2 ^ n.toNat < -1073741824 ∨ 1073741824 ≤ v.toInt * 2 ^ n.toNat), sc := q
            draws := s.draws + 1 } ∧
        exec (.als n) s = .next
          { s with
            ar := s.ar <<< n.toNat
            c := decide (s.ar.toInt * 2 ^ n.toNat < -32768 ∨ 32768 ≤ s.ar.toInt * 2 ^ n.toNat), sc := q
            draws := s.draws + 1 }

/-- A regular shift by 0 leaves AR and BR unchanged; C and SC are free values (44_shift.md R241). -/
def Obligations.ShiftsByZero : Prop :=
  ∀ (s : State) (i : Instr),
    i ∈ [Instr.lrl 0, .lrs 0, .lrr 0, .lgr 0, .ars 0, .arr 0, .lll 0, .lls 0, .llr 0, .lgl 0, .als 0, .alr 0] →
      ∃ (c : Bool) (q : BitVec 6), exec i s = .next { s with c := c, sc := q, draws := s.draws + 2 }

/-- A quirk shift runs, and what it writes depends on the configured `SHIFT_QUIRK`, its function, its count, AR, BR and C
alone; the short forms leave BR unchanged (44_shift.md R256). For a count of 0, where R241 says of every shift that AR
and BR are unchanged and C is a draw, that the open function of R256 applies is the model's choice (assumption
log 11). -/
def Obligations.QuirkShifts : Prop :=
  ∃ (long3 long13 : Nat → BitVec 6 → Word → Word → Bool → Word × Word × Bool)
    (short7 short17 : Nat → BitVec 6 → Word → Word → Bool → Word × Bool),
    ∀ (n : BitVec 6) (s : State) (f : Nat), f = s.cfg.shiftChoice → ∃ q : BitVec 6,
      exec (.quirk3 n) s = .next
          { s with
            ar := (long3 f n s.ar s.br s.c).1, br := (long3 f n s.ar s.br s.c).2.1
            c := (long3 f n s.ar s.br s.c).2.2, sc := q, draws := s.draws + 1 } ∧
        exec (.quirk13 n) s = .next
          { s with
            ar := (long13 f n s.ar s.br s.c).1, br := (long13 f n s.ar s.br s.c).2.1
            c := (long13 f n s.ar s.br s.c).2.2, sc := q, draws := s.draws + 1 } ∧
        exec (.quirk7 n) s = .next
          { s with
            ar := (short7 f n s.ar s.br s.c).1, c := (short7 f n s.ar s.br s.c).2, sc := q
            draws := s.draws + 1 } ∧
        exec (.quirk17 n) s = .next
          { s with
            ar := (short17 f n s.ar s.br s.c).1, c := (short17 f n s.ar s.br s.c).2, sc := q
            draws := s.draws + 1 }

/-! ## Skips -/

/-- The skips on nothing, on C, on AR and on the parity request (45_skip.md R272 to R275, R286 to R293). -/
def Obligations.SkipsOnRegisters : Prop :=
  ∀ s : State,
    exec .skp s = .next (skipWhen s true) ∧ exec .nop s = .next s ∧
      exec .ssc s = .next (skipWhen s s.c) ∧ exec .src s = .next (skipWhen s !s.c) ∧
      exec .snz s = .next (skipWhen s (decide (s.ar ≠ 0))) ∧ exec .sze s = .next (skipWhen s (decide (s.ar = 0))) ∧
      exec .sln s = .next (skipWhen s (decide (s.ar.toNat % 2 = 1))) ∧
      exec .slz s = .next (skipWhen s (decide (s.ar.toNat % 2 = 0))) ∧
      exec .sps s = .next (skipWhen s (s.intReq.getLsbD s.cfg.lineMpe.val)) ∧
      exec .spn s = .next (skipWhen s !(s.intReq.getLsbD s.cfg.lineMpe.val)) ∧
      exec .smi s = .next (skipWhen s (decide (s.ar.toInt < 0))) ∧
      exec .spl s = .next (skipWhen s (decide (0 ≤ s.ar.toInt)))

/-- The skips on the sense switches (45_skip.md R276 to R285). -/
def Obligations.SkipsOnSwitches : Prop :=
  ∀ s : State,
    exec .ss1 s = .next (skipWhen s s.ss1) ∧ exec .sr1 s = .next (skipWhen s !s.ss1) ∧
      exec .ss2 s = .next (skipWhen s s.ss2) ∧ exec .sr2 s = .next (skipWhen s !s.ss2) ∧
      exec .ss3 s = .next (skipWhen s s.ss3) ∧ exec .sr3 s = .next (skipWhen s !s.ss3) ∧
      exec .ss4 s = .next (skipWhen s s.ss4) ∧ exec .sr4 s = .next (skipWhen s !s.ss4) ∧
      exec .sss s = .next (skipWhen s (s.ss1 || s.ss2 || s.ss3 || s.ss4)) ∧
      exec .ssr s = .next (skipWhen s !(s.ss1 || s.ss2 || s.ss3 || s.ss4))

/-- A skip word of any bits: with the sense bit 1 it skips exactly where some selected condition holds, with the sense
bit 0 exactly where none does (45_skip.md R270, R271, R294). -/
def Obligations.SkipWordsCombine : Prop :=
  ∀ (sense : Bool) (cond : BitVec 9) (s : State),
    ((∃ b : Fin 9, cond.getLsbD b.val = true ∧ conditionHolds s b = true) →
      exec (.skip sense cond) s = .next (skipWhen s sense)) ∧
    ((∀ b : Fin 9, cond.getLsbD b.val = true → conditionHolds s b = false) →
      exec (.skip sense cond) s = .next (skipWhen s !sense))

/-! ## Operate -/

/-- The operate words on the sign of AR, on AR whole and on C (46_operate.md R298 to R303, R305, R306). -/
def Obligations.OperateOnSignAndCarry : Prop :=
  ∀ s : State,
    exec .chs s = .next { s with ar := s.ar ^^^ 0o100000#16 } ∧
      exec .cra s = .next { s with ar := 0 } ∧
      exec .ssp s = .next { s with ar := s.ar &&& 0o077777#16 } ∧
      exec .rcb s = .next { s with c := false } ∧
      exec .csa s = .next { s with ar := s.ar &&& 0o077777#16, c := s.ar.getLsbD 15 } ∧
      exec .cma s = .next { s with ar := ~~~s.ar } ∧
      exec .ssm s = .next { s with ar := s.ar ||| 0o100000#16 } ∧
      exec .scb s = .next { s with c := true }

/-- The operate words that add and those that move the bytes of AR; AOA and ACA set C exactly where AR goes past
0o077777 (46_operate.md R304, R307 to R313). -/
def Obligations.OperateOnBytesAndSums : Prop :=
  ∀ s : State,
    exec .tca s = .next { s with ar := 0 - s.ar, sc := 0 } ∧
      exec .car s = .next { s with ar := s.ar &&& 0o177400#16 } ∧
      exec .cal s = .next { s with ar := s.ar &&& 0o000377#16 } ∧
      exec .icl s = .next { s with ar := s.ar >>> 8 } ∧
      exec .aoa s = .next { s with ar := s.ar + 1, c := decide (s.ar = 0o077777#16), sc := 0 } ∧
      exec .aca s = .next
        { s with
          ar := if s.c then s.ar + 1 else s.ar, c := s.c && decide (s.ar = 0o077777#16), sc := 0 } ∧
      exec .icr s = .next { s with ar := s.ar <<< 8 } ∧
      exec .ica s = .next { s with ar := s.ar.rotateLeft 8 }

/-- An undefined operate word stops where `STOP_INST` is set, and nothing else changes; else it runs the configured
`OPERATE_GATE`, a function of IR[9:0], AR and C alone that gives AR, C and whether SC is cleared, and that gives on the
bits of a named word that word's result (46_operate.md R314, R315). -/
def Obligations.UndefinedOperateWords : Prop :=
  (∃ gate : Nat → BitVec 10 → Word → Bool → Word × Bool × Bool,
    ∀ (bits : BitVec 10) (s : State) (f : Nat), f = s.cfg.gateChoice →
      (s.cfg.stopInst = true → exec (.undefinedOperate bits) s = .next { s with run := .stopped .rsrv }) ∧
      (s.cfg.stopInst = false →
        exec (.undefinedOperate bits) s = .next
          { s with
            ar := (gate f bits s.ar s.c).1, c := (gate f bits s.ar s.c).2.1
            sc := if (gate f bits s.ar s.c).2.2 then 0 else s.sc })) ∧
  ∀ (i : Instr) (s : State), i.cls = .operate → s.cfg.stopInst = false →
    exec (.undefinedOperate ((encode i).extractLsb' 0 10)) s = exec i s

/-! ## Input and output -/

/-- I/O instructions to a device with no callback, and the bad functions of device 0o20: nothing but INA's clear of AR
happens, and the CPU stops with IODV where `STOP_DEV` is set, with RSRV where `STOP_INST` is. INA's clear is a step of
its own, before the call, and the stub and the bad function give its data back (47_io.md R322, R324, R329, R332). -/
def Obligations.IoWithoutDevice : Prop :=
  ∀ (clear : Bool) (f3 : BitVec 3) (fnc : BitVec 4) (dev : DevNum) (s : State) (stopped : State → State),
    (dev ≠ 0o20#6 ∧ dev ∉ s.cfg.registered ∧
        stopped = (fun t => if s.cfg.stopDev then { t with run := .stopped .iodv } else t)) ∨
      (dev = 0o20#6 ∧ stopped = illegalStop) →
    exec (.ocp fnc dev) s = .next (stopped s) ∧
      exec (.sks fnc dev) s = .next (stopped s) ∧
      exec (.ina clear f3 dev) s = .next (stopped (if clear then { s with ar := 0 } else s)) ∧
      (dev ≠ 0o20#6 ∨ (fnc ≠ 0#4 ∧ fnc ≠ 0o10#4) → exec (.ota fnc dev) s = .next (stopped s))

/-- I/O instructions to a registered device: the call each makes, the request bits the device leaves, and how its answer
is applied, the data first (INA), then the skip (SKS, INA, OTA), then the stop (47_io.md R321, R323 to R327;
10_state.md R56). Where the answer comes from, and that any device may change any line, is assumption log 6. -/
def Obligations.IoToRegisteredDevice : Prop :=
  ∀ (clear : Bool) (f3 : BitVec 3) (fnc : BitVec 4) (dev : DevNum) (s : State),
    dev ≠ 0o20#6 → dev ∈ s.cfg.registered →
      (∃ (a : DeviceAnswer) (call : IoCall) (r x : BitVec 16) (ch : BitVec 20),
        call = { op := .ocp, fnc := fnc, data := s.ar, dev := dev } ∧ AnswersCall s call a r x ch ∧
          exec (.ocp fnc dev) s = .next { afterCall s call r x ch with run := runAfter s a.reply.stop }) ∧
      (∃ (a : DeviceAnswer) (call : IoCall) (r x : BitVec 16) (ch : BitVec 20),
        call = { op := .sks, fnc := fnc, data := s.ar, dev := dev } ∧ AnswersCall s call a r x ch ∧
          exec (.sks fnc dev) s = .next
            { skipWhen (afterCall s call r x ch) a.reply.skip with run := runAfter s a.reply.stop }) ∧
      (∃ (a : DeviceAnswer) (call : IoCall) (r x : BitVec 16) (ch : BitVec 20),
        call = { op := .ina, fnc := 0#1 ++ f3, data := if clear then 0 else s.ar, dev := dev } ∧
          AnswersCall s call a r x ch ∧
          exec (.ina clear f3 dev) s = .next
            { skipWhen (afterCall s call r x ch) a.reply.skip with
              ar := a.reply.data, run := runAfter s a.reply.stop }) ∧
      ∃ (a : DeviceAnswer) (call : IoCall) (r x : BitVec 16) (ch : BitVec 20),
        call = { op := .ota, fnc := fnc, data := s.ar, dev := dev } ∧ AnswersCall s call a r x ch ∧
          exec (.ota fnc dev) s = .next
            { skipWhen (afterCall s call r x ch) a.reply.skip with run := runAfter s a.reply.stop }

/-- SMK and OTK, the instructions of the CPU's own device, which skip where CPU020_SKIP says so
(47_io.md R330, R331). -/
def Obligations.SetMaskAndKeys : Prop :=
  ∀ (s : State) (keys : State),
    keys = { s with
      c := s.ar.getLsbD 15
      dp := if s.cfg.optHsa then s.ar.getLsbD 14 else s.dp
      ext := if s.cfg.optExt && s.ar.getLsbD 13 then true else s.ext
      extoff := if s.cfg.optExt then !s.ar.getLsbD 13 else s.extoff
      sc := BitVec.ofNat 6 (s.ar.toNat % 32) } →
    exec .smk s = .next (skipWhen { s with intEnb := s.ar } s.cfg.cpu020Skip) ∧
      exec .otk s = .next (skipWhen keys s.cfg.cpu020Skip)

/-! ## Channels -/

/-- One word through a DMA channel whose device answers with a skip and no stop: the request bit is cleared, the word
moved, the request bits are as the device leaves them, the address and the count advance; at a count of 0 the
end-of-range flag is set and the end-of-range call made, in the same service, and a stop reason it answers ends the scan
with all of this done (48_channels.md R351, R354 to R357, R360). -/
def Obligations.DmaTransfersOneWord : Prop :=
  ∀ (s : State) (k : Fin 4) (i : Fin 20) (dev : DevNum) (a : DeviceAnswer) (rest : List DeviceAnswer) (ch : DmaChannel)
    (call : IoCall) (q : BitVec 20),
    i.val = k.val → s.cfg.chanMap[i] = some dev → dev ≠ 0o20#6 → dev ∈ s.cfg.registered →
    s.deviceAnswers = a :: rest → a.reply.skip = true → a.reply.stop = none → s.dma[k] = ch →
    call = wordCall s ch.ad dev → WithoutRequest s i q →
      ∃ (r x : BitVec 16) (p : BitVec 20) (m : Memory) (next : Word) (t : State),
        RequestsAfter { s with chanReq := q } dev a.requests r x p ∧
        (if ch.ad.getLsbD 15 then StoresCell s m (ch.ad.setWidth 15) a.reply.data else m = s.mem) ∧
        next.getLsbD 15 = ch.ad.getLsbD 15 ∧ next.toNat % 32768 = (ch.ad.toNat + 1) % 32768 ∧
        t = { afterCall s call r x p with
              mem := m, dma := s.dma.set k ⟨next, ch.wc - 1, ch.eor || decide (ch.wc = 1)⟩ } ∧
        (ch.wc ≠ 1 → ServiceEnds s i (.go t)) ∧
        ∀ b rest', ch.wc = 1 → rest = b :: rest' →
          ∃ (r' x' : BitVec 16) (p' : BitVec 20),
            RequestsAfter t dev b.requests r' x' p' ∧
              ServiceEnds s i (goOrStop (afterCall t (endOfRange dev) r' x' p') b.reply.stop)

/-- One word through a DMC channel whose device answers with a skip and no stop: both control words are read first, the
request bit is cleared, the word moved, the request bits are as the device leaves them, the start word advances; at the
end address, which is inclusive, the end-of-range call is made, and a stop reason it answers ends the scan with all of
this done (48_channels.md R351, R353 to R356, R359, R360). A control word past the 32768 words reads 0 and is not
written: the model's reading of 20_memory.md R71 and R72 (assumption log 22). -/
def Obligations.DmcTransfersOneWord : Prop :=
  ∀ (s : State) (i : Fin 20) (dev : DevNum) (a : DeviceAnswer) (rest : List DeviceAnswer) (start : Nat) (w last : Word)
    (call : IoCall) (q : BitVec 20),
    4 ≤ i.val → s.cfg.chanMap[i] = some dev → dev ≠ 0o20#6 → dev ∈ s.cfg.registered →
    s.deviceAnswers = a :: rest → a.reply.skip = true → a.reply.stop = none →
    start = s.cfg.dmcBase.toNat + 2 * (i.val - 4) → w = controlWordAt s start → last = controlWordAt s (start + 1) →
    call = wordCall s w dev → WithoutRequest s i q →
      ∃ (r x : BitVec 16) (p : BitVec 20) (m1 m2 : Memory) (next : Word) (t : State),
        RequestsAfter { s with chanReq := q } dev a.requests r x p ∧
        (if w.getLsbD 15 then StoresCell s m1 (w.setWidth 15) a.reply.data else m1 = s.mem) ∧
        (if start < 32768 then StoresCell { s with mem := m1 } m2 (BitVec.ofNat 15 start) next else m2 = m1) ∧
        next.getLsbD 15 = w.getLsbD 15 ∧ next.toNat % 32768 = (w.toNat + 1) % 32768 ∧
        t = { afterCall s call r x p with mem := m2 } ∧
        (w.toNat % 32768 ≠ last.toNat % 32768 → ServiceEnds s i (.go t)) ∧
        ∀ b rest', w.toNat % 32768 = last.toNat % 32768 → rest = b :: rest' →
          ∃ (r' x' : BitVec 16) (p' : BitVec 20),
            RequestsAfter t dev b.requests r' x' p' ∧
              ServiceEnds s i (goOrStop (afterCall t (endOfRange dev) r' x' p') b.reply.stop)

/-- A channel that fails ends the iteration with no fetch. Of the lowest requested channel: with no device mapped the
model faults; a registered device that answers without a skip ends it with DMAER, one that answers with a skip and a stop
reason ends it with that reason, and the stub, which never skips, and device 0o20, which has no data to input, end it with
DMAER; the request bit is cleared, no address or count advanced, no word written, no higher channel served. Of any
channel, and of an end-of-range call: the state the phase stops in is the state after the iteration
(48_channels.md R351, R352, R355, R356, R360; 60_exceptions.md R406, R408; 47_io.md R329). -/
def Obligations.ChannelFailures : Prop :=
  ∀ (s : State), s.run = .running → s.cfg.wf = true →
    (∀ t, s.serviceChannels = .halt t → step s = .next t) ∧
    ∀ (i : Fin 20) (q : BitVec 20), s.chanReq.getLsbD i.val = true → NoRequest s 0 i.val → WithoutRequest s i q →
      (s.cfg.chanMap[i] = none → step s = .fault (.unmappedChannel i)) ∧
      (∀ (dev : DevNum) (a : DeviceAnswer) (rest : List DeviceAnswer) (reason : StopReason),
        s.cfg.chanMap[i] = some dev → dev ≠ 0o20#6 → dev ∈ s.cfg.registered → s.deviceAnswers = a :: rest →
        (a.reply.skip = false ∧ reason = .dmaer) ∨ (a.reply.skip = true ∧ a.reply.stop = some reason) →
          ∃ (r x : BitVec 16) (p : BitVec 20),
            RequestsAfter { s with chanReq := q } dev a.requests r x p ∧
              step s = .next
                { afterCall s (wordCall s (startWord s i) dev) r x p with run := .stopped reason }) ∧
      ∀ dev : DevNum, s.cfg.chanMap[i] = some dev →
        (dev ≠ 0o20#6 ∧ dev ∉ s.cfg.registered) ∨ (dev = 0o20#6 ∧ (startWord s i).getLsbD 15 = true) →
          step s = .next { s with chanReq := q, run := .stopped .dmaer }

/-- The channel phase scans the channels in ascending order and reads each request bit when it reaches it: it completes
in t exactly where it serves some channels in turn and comes to the end in t, it stops in t exactly where the channel it
has come to stops in t, and so it serves two channels in one iteration, the higher one also where its request was raised
during the service of the lower one. Whether it completes or stops, it keeps AR, BR, PC, C, EXT, EXTOFF, PME, DP, SC,
INT_ON, INT_NODEF and INT_START (48_channels.md R351, R361; 10_state.md R56). It may change memory, and with it XR, and the
DMA registers (48_channels.md R355, R357), and INT_ENB where a channel is mapped to device 0o20 (assumption log 15). -/
def Obligations.ChannelsKeepTheRegisters : Prop :=
  ∀ s t : State,
    (s.serviceChannels = .go t ↔ ∃ served, ServesInTurn s 0 served t 20) ∧
    (s.serviceChannels = .halt t ↔ ∃ (served : List (Fin 20)) (i : Fin 20) (u : State),
      ServesInTurn s 0 served u i.val ∧ u.chanReq.getLsbD i.val = true ∧ u.serviceChannel i = .halt t) ∧
    (∀ (i j : Fin 20) (u : State), i < j → s.chanReq.getLsbD i.val = true → NoRequest s 0 i.val →
      s.serviceChannel i = .go u → NoRequest u (i.val + 1) j.val → u.chanReq.getLsbD j.val = true →
      u.serviceChannel j = .go t → NoRequest t (j.val + 1) 20 → s.serviceChannels = .go t) ∧
    (∀ served n, ServesInTurn s 0 served t n → served.Pairwise (· < ·)) ∧
    (s.serviceChannels = .go t ∨ s.serviceChannels = .halt t →
      t.ar = s.ar ∧ t.br = s.br ∧ t.pc = s.pc ∧ t.c = s.c ∧ t.ext = s.ext ∧ t.extoff = s.extoff ∧ t.pme = s.pme ∧
        t.dp = s.dp ∧ t.sc = s.sc ∧ t.intOn = s.intOn ∧ t.intNodef = s.intNodef ∧ t.intStart = s.intStart)

/-! ## Reset and the outside -/

/-- `Reset()` on any state: what it clears; SC is a free value; AR, BR, PC, the switches, memory and RUN are unchanged
(70_reset_and_hazards.md R450). That the host resets a stopped CPU only, and no agent a running one, is assumption
log 16, deduced from 10_state.md R55; R451 says only that the host resets between iterations. -/
def Obligations.ResetClears : Prop :=
  ∀ s : State, ∃ (q : BitVec 6) (d : Nat) (t : State),
    t = { s with
      c := false, dp := false, ext := false, extoff := false, pme := false, sc := q, draws := d
      intReq := 0, intOn := false, intNodef := false, intStart := false, intEnb := 0, xintReq := 0, xintEnb := 0
      dma := Vector.replicate 4 { ad := 0, wc := 0, eor := false }, chanReq := 0 } ∧
    s.resetOp = t ∧ (∀ reason, s.run = .stopped reason → s.apply .reset = some t) ∧
    (s.run = .running → s.apply .reset = none)

/-- While the CPU runs, no action of an agent changes AR, BR, PC, C, EXT, EXTOFF, PME, DP, SC, INT_ON, INT_NODEF, INT_ENB,
RUN or the configuration (10_state.md R50, R55); memory, and with it XR, the DMA registers, the request bits, XINT_ENB,
the sense switches and INT_START may change. The actions are those of `EnvAction`, which is the model's catalogue of what
the spec lets agents do (assumption log 16). -/
def Obligations.AgentsKeepTheRegisters : Prop :=
  ∀ (s t : State) (act : EnvAction), s.run = .running → s.apply act = some t →
    t.ar = s.ar ∧ t.br = s.br ∧ t.pc = s.pc ∧ t.c = s.c ∧ t.ext = s.ext ∧ t.extoff = s.extoff ∧ t.pme = s.pme ∧
      t.dp = s.dp ∧ t.sc = s.sc ∧ t.intOn = s.intOn ∧ t.intNodef = s.intNodef ∧ t.intEnb = s.intEnb ∧
      t.run = s.run ∧ t.cfg = s.cfg
end

