-- ==== Sys2Proof/Laws/Encoding.lean ====
section
/-! SUPPORT. The fields of the words the encoder builds, read back: what a proof about decoding cites instead of
unfolding a concatenation of bits. -/

namespace Sys2Proof

/-! ## Memory-reference and index words -/

theorem opField_memRefWord (opc : BitVec 4) (op : MemOp) : opField (memRefWord opc op) = opc := by
  simp only [opField, memRefWord]
  refine BitVec.eq_of_getLsbD_eq fun i hi => ?_
  interval_cases i <;> simp only [BitVec.getLsbD_extractLsb', BitVec.getLsbD_append] <;> simp

theorem memOpField_memRefWord (opc : BitVec 4) (op : MemOp) : memOpField (memRefWord opc op) = op := by
  obtain ⟨i, x, s, d⟩ := op
  simp only [memOpField, memRefWord, MemOp.mk.injEq]
  refine ⟨by simp only [BitVec.getLsbD_append]; simp, by simp only [BitVec.getLsbD_append]; simp, by simp only [BitVec.getLsbD_append]; simp, ?_⟩
  refine BitVec.eq_of_getLsbD_eq fun k hk => ?_
  interval_cases k <;> simp only [BitVec.getLsbD_extractLsb', BitVec.getLsbD_append] <;> simp

theorem opField_xferWord (load : Bool) (op : XferOp) : opField (xferWord load op) = 0o15#4 := by
  simp only [opField, xferWord]
  refine BitVec.eq_of_getLsbD_eq fun i hi => ?_
  interval_cases i <;> simp only [BitVec.getLsbD_extractLsb', BitVec.getLsbD_append] <;> simp

theorem xferOpField_xferWord (load : Bool) (op : XferOp) : xferOpField (xferWord load op) = op := by
  obtain ⟨i, s, d⟩ := op
  simp only [xferOpField, xferWord, XferOp.mk.injEq]
  refine ⟨by simp only [BitVec.getLsbD_append]; simp, by simp only [BitVec.getLsbD_append]; simp, ?_⟩
  refine BitVec.eq_of_getLsbD_eq fun k hk => ?_
  interval_cases k <;> simp only [BitVec.getLsbD_extractLsb', BitVec.getLsbD_append] <;> simp

theorem load_xferWord (load : Bool) (op : XferOp) : (xferWord load op).getLsbD 14 = load := by
  simp only [xferWord, BitVec.getLsbD_append]; simp

/-! ## The words of the other classes -/

theorem opField_tenWord (g : BitVec 6) (m : BitVec 10) : opField (tenWord g m) = g.extractLsb' 0 4 := by
  simp only [opField, tenWord]
  refine BitVec.eq_of_getLsbD_eq fun i hi => ?_
  interval_cases i <;> simp only [BitVec.getLsbD_extractLsb', BitVec.getLsbD_append] <;> simp

theorem top_tenWord (g : BitVec 6) (m : BitVec 10) : (tenWord g m).extractLsb' 14 2 = g.extractLsb' 4 2 := by
  simp only [tenWord]
  refine BitVec.eq_of_getLsbD_eq fun i hi => ?_
  interval_cases i <;> simp only [BitVec.getLsbD_extractLsb', BitVec.getLsbD_append] <;> simp

theorem lowTen_tenWord (g : BitVec 6) (m : BitVec 10) : lowTen (tenWord g m) = m := by
  simp only [lowTen, tenWord]
  refine BitVec.eq_of_getLsbD_eq fun i hi => ?_
  interval_cases i <;> simp only [BitVec.getLsbD_extractLsb', BitVec.getLsbD_append] <;> simp

/-- A shift word is a word of the class G = 0o20. -/
theorem shiftWord_eq (f : BitVec 4) (n : BitVec 6) : shiftWord f n = tenWord 0o20#6 (f ++ -n) := by
  simp only [shiftWord, tenWord]
  refine BitVec.eq_of_getLsbD_eq fun i hi => ?_
  interval_cases i <;> simp only [BitVec.getLsbD_append] <;> simp

theorem shiftFields_shiftWord (f : BitVec 4) (n : BitVec 6) :
    (shiftWord f n).extractLsb' 6 4 = f ∧ -((shiftWord f n).extractLsb' 0 6) = n := by
  constructor
  · simp only [shiftWord]
    refine BitVec.eq_of_getLsbD_eq fun i hi => ?_
    interval_cases i <;> simp only [BitVec.getLsbD_extractLsb', BitVec.getLsbD_append] <;> simp
  · have h : (shiftWord f n).extractLsb' 0 6 = -n := by
      simp only [shiftWord]
      refine BitVec.eq_of_getLsbD_eq fun i hi => ?_
      interval_cases i <;> simp only [BitVec.getLsbD_extractLsb', BitVec.getLsbD_append] <;> simp
    rw [h, BitVec.neg_neg]

theorem opField_ioWord (sub : BitVec 2) (fnc : BitVec 4) (dev : DevNum) : opField (ioWord sub fnc dev) = 0o14#4 := by
  simp only [opField, ioWord]
  refine BitVec.eq_of_getLsbD_eq fun i hi => ?_
  interval_cases i <;> simp only [BitVec.getLsbD_extractLsb', BitVec.getLsbD_append] <;> simp

theorem ioFields_ioWord (sub : BitVec 2) (fnc : BitVec 4) (dev : DevNum) :
    (ioWord sub fnc dev).extractLsb' 14 2 = sub ∧ lowTen (ioWord sub fnc dev) = fnc ++ dev := by
  constructor
  · simp only [ioWord]
    refine BitVec.eq_of_getLsbD_eq fun i hi => ?_
    interval_cases i <;> simp only [BitVec.getLsbD_extractLsb', BitVec.getLsbD_append] <;> simp
  · simp only [lowTen, ioWord]
    refine BitVec.eq_of_getLsbD_eq fun i hi => ?_
    interval_cases i <;> simp only [BitVec.getLsbD_extractLsb', BitVec.getLsbD_append] <;> simp

/-! ## Classes -/

theorem classOf_memRefWord {opc : BitVec 4} (h : opc ≠ 0#4 ∧ opc ≠ 0o14#4 ∧ opc ≠ 0o15#4) (op : MemOp) :
    classOf (memRefWord opc op) = .memoryReference := by
  simp only [classOf, opField_memRefWord]
  rw [if_neg h.1, if_neg h.2.1, if_neg h.2.2]

theorem classOf_xferWord (load : Bool) (op : XferOp) : classOf (xferWord load op) = .indexTransfer := by
  simp only [classOf, opField_xferWord]; rfl

theorem classOf_ioWord (sub : BitVec 2) (fnc : BitVec 4) (dev : DevNum) : classOf (ioWord sub fnc dev) = .io := by
  simp only [classOf, opField_ioWord]; rfl

theorem classOf_control (m : BitVec 10) : classOf (tenWord 0o0#6 m) = .control := by
  simp only [classOf, opField_tenWord, top_tenWord]; rfl

theorem classOf_shiftWord (f : BitVec 4) (n : BitVec 6) : classOf (shiftWord f n) = .shift := by
  rw [shiftWord_eq]
  simp only [classOf, opField_tenWord, top_tenWord]; rfl

theorem classOf_skip (m : BitVec 10) : classOf (tenWord 0o40#6 m) = .skip := by
  simp only [classOf, opField_tenWord, top_tenWord]; rfl

theorem classOf_operate (m : BitVec 10) : classOf (tenWord 0o60#6 m) = .operate := by
  simp only [classOf, opField_tenWord, top_tenWord]; rfl

end Sys2Proof
end

