-- ==== Sys2Proof/Laws/State.lean ====
section
/-! SUPPORT. What each update of the state does to each field, so that no proof unfolds an update. -/

namespace Sys2Proof.Machine

section SetCell

variable (s : State) (a : Addr) (v : Word)

@[simp] theorem State.setCell_ar : (s.setCell a v).ar = s.ar := rfl
@[simp] theorem State.setCell_br : (s.setCell a v).br = s.br := rfl
@[simp] theorem State.setCell_pc : (s.setCell a v).pc = s.pc := rfl
@[simp] theorem State.setCell_c : (s.setCell a v).c = s.c := rfl
@[simp] theorem State.setCell_ext : (s.setCell a v).ext = s.ext := rfl
@[simp] theorem State.setCell_extoff : (s.setCell a v).extoff = s.extoff := rfl
@[simp] theorem State.setCell_pme : (s.setCell a v).pme = s.pme := rfl
@[simp] theorem State.setCell_dp : (s.setCell a v).dp = s.dp := rfl
@[simp] theorem State.setCell_sc : (s.setCell a v).sc = s.sc := rfl
@[simp] theorem State.setCell_ss1 : (s.setCell a v).ss1 = s.ss1 := rfl
@[simp] theorem State.setCell_ss2 : (s.setCell a v).ss2 = s.ss2 := rfl
@[simp] theorem State.setCell_ss3 : (s.setCell a v).ss3 = s.ss3 := rfl
@[simp] theorem State.setCell_ss4 : (s.setCell a v).ss4 = s.ss4 := rfl
@[simp] theorem State.setCell_intReq : (s.setCell a v).intReq = s.intReq := rfl
@[simp] theorem State.setCell_intOn : (s.setCell a v).intOn = s.intOn := rfl
@[simp] theorem State.setCell_intNodef : (s.setCell a v).intNodef = s.intNodef := rfl
@[simp] theorem State.setCell_intStart : (s.setCell a v).intStart = s.intStart := rfl
@[simp] theorem State.setCell_intEnb : (s.setCell a v).intEnb = s.intEnb := rfl
@[simp] theorem State.setCell_xintReq : (s.setCell a v).xintReq = s.xintReq := rfl
@[simp] theorem State.setCell_xintEnb : (s.setCell a v).xintEnb = s.xintEnb := rfl
@[simp] theorem State.setCell_dma : (s.setCell a v).dma = s.dma := rfl
@[simp] theorem State.setCell_chanReq : (s.setCell a v).chanReq = s.chanReq := rfl
@[simp] theorem State.setCell_run : (s.setCell a v).run = s.run := rfl
@[simp] theorem State.setCell_mem :
    (s.setCell a v).mem =
    (if a.toNat < s.cfg.memSize then s.mem.writeWord a v else s.mem) := rfl
@[simp] theorem State.setCell_cfg : (s.setCell a v).cfg = s.cfg := rfl
@[simp] theorem State.setCell_deviceAnswers : (s.setCell a v).deviceAnswers = s.deviceAnswers := rfl
@[simp] theorem State.setCell_deviceCalls : (s.setCell a v).deviceCalls = s.deviceCalls := rfl
@[simp] theorem State.setCell_draws : (s.setCell a v).draws = s.draws := rfl

end SetCell

section ChanWrite

variable (s : State) (n : Nat) (v : Word)

@[simp] theorem State.chanWrite_ar : (s.chanWrite n v).ar = s.ar := rfl
@[simp] theorem State.chanWrite_br : (s.chanWrite n v).br = s.br := rfl
@[simp] theorem State.chanWrite_pc : (s.chanWrite n v).pc = s.pc := rfl
@[simp] theorem State.chanWrite_c : (s.chanWrite n v).c = s.c := rfl
@[simp] theorem State.chanWrite_ext : (s.chanWrite n v).ext = s.ext := rfl
@[simp] theorem State.chanWrite_extoff : (s.chanWrite n v).extoff = s.extoff := rfl
@[simp] theorem State.chanWrite_pme : (s.chanWrite n v).pme = s.pme := rfl
@[simp] theorem State.chanWrite_dp : (s.chanWrite n v).dp = s.dp := rfl
@[simp] theorem State.chanWrite_sc : (s.chanWrite n v).sc = s.sc := rfl
@[simp] theorem State.chanWrite_ss1 : (s.chanWrite n v).ss1 = s.ss1 := rfl
@[simp] theorem State.chanWrite_ss2 : (s.chanWrite n v).ss2 = s.ss2 := rfl
@[simp] theorem State.chanWrite_ss3 : (s.chanWrite n v).ss3 = s.ss3 := rfl
@[simp] theorem State.chanWrite_ss4 : (s.chanWrite n v).ss4 = s.ss4 := rfl
@[simp] theorem State.chanWrite_intReq : (s.chanWrite n v).intReq = s.intReq := rfl
@[simp] theorem State.chanWrite_intOn : (s.chanWrite n v).intOn = s.intOn := rfl
@[simp] theorem State.chanWrite_intNodef : (s.chanWrite n v).intNodef = s.intNodef := rfl
@[simp] theorem State.chanWrite_intStart : (s.chanWrite n v).intStart = s.intStart := rfl
@[simp] theorem State.chanWrite_intEnb : (s.chanWrite n v).intEnb = s.intEnb := rfl
@[simp] theorem State.chanWrite_xintReq : (s.chanWrite n v).xintReq = s.xintReq := rfl
@[simp] theorem State.chanWrite_xintEnb : (s.chanWrite n v).xintEnb = s.xintEnb := rfl
@[simp] theorem State.chanWrite_dma : (s.chanWrite n v).dma = s.dma := rfl
@[simp] theorem State.chanWrite_chanReq : (s.chanWrite n v).chanReq = s.chanReq := rfl
@[simp] theorem State.chanWrite_run : (s.chanWrite n v).run = s.run := rfl
@[simp] theorem State.chanWrite_mem :
    (s.chanWrite n v).mem =
    (if n < 32768 then (s.setCell (BitVec.ofNat 15 n) v).mem else s.mem) := rfl
@[simp] theorem State.chanWrite_cfg : (s.chanWrite n v).cfg = s.cfg := rfl
@[simp] theorem State.chanWrite_deviceAnswers : (s.chanWrite n v).deviceAnswers = s.deviceAnswers := rfl
@[simp] theorem State.chanWrite_deviceCalls : (s.chanWrite n v).deviceCalls = s.deviceCalls := rfl
@[simp] theorem State.chanWrite_draws : (s.chanWrite n v).draws = s.draws := rfl

end ChanWrite

section MemWrite

variable (s : State) (a : Addr) (v : Word)

@[simp] theorem State.memWrite_ar : (s.memWrite a v).ar = s.ar := rfl
@[simp] theorem State.memWrite_br : (s.memWrite a v).br = s.br := rfl
@[simp] theorem State.memWrite_pc : (s.memWrite a v).pc = s.pc := rfl
@[simp] theorem State.memWrite_c : (s.memWrite a v).c = s.c := rfl
@[simp] theorem State.memWrite_ext : (s.memWrite a v).ext = s.ext := rfl
@[simp] theorem State.memWrite_extoff : (s.memWrite a v).extoff = s.extoff := rfl
@[simp] theorem State.memWrite_pme : (s.memWrite a v).pme = s.pme := rfl
@[simp] theorem State.memWrite_dp : (s.memWrite a v).dp = s.dp := rfl
@[simp] theorem State.memWrite_sc : (s.memWrite a v).sc = s.sc := rfl
@[simp] theorem State.memWrite_ss1 : (s.memWrite a v).ss1 = s.ss1 := rfl
@[simp] theorem State.memWrite_ss2 : (s.memWrite a v).ss2 = s.ss2 := rfl
@[simp] theorem State.memWrite_ss3 : (s.memWrite a v).ss3 = s.ss3 := rfl
@[simp] theorem State.memWrite_ss4 : (s.memWrite a v).ss4 = s.ss4 := rfl
@[simp] theorem State.memWrite_intReq : (s.memWrite a v).intReq = s.intReq := rfl
@[simp] theorem State.memWrite_intOn : (s.memWrite a v).intOn = s.intOn := rfl
@[simp] theorem State.memWrite_intNodef : (s.memWrite a v).intNodef = s.intNodef := rfl
@[simp] theorem State.memWrite_intStart : (s.memWrite a v).intStart = s.intStart := rfl
@[simp] theorem State.memWrite_intEnb : (s.memWrite a v).intEnb = s.intEnb := rfl
@[simp] theorem State.memWrite_xintReq : (s.memWrite a v).xintReq = s.xintReq := rfl
@[simp] theorem State.memWrite_xintEnb : (s.memWrite a v).xintEnb = s.xintEnb := rfl
@[simp] theorem State.memWrite_dma : (s.memWrite a v).dma = s.dma := rfl
@[simp] theorem State.memWrite_chanReq : (s.memWrite a v).chanReq = s.chanReq := rfl
@[simp] theorem State.memWrite_run : (s.memWrite a v).run = s.run := rfl
@[simp] theorem State.memWrite_mem :
    (s.memWrite a v).mem =
    (if s.writable a then s.mem.writeWord a v else s.mem) := rfl
@[simp] theorem State.memWrite_cfg : (s.memWrite a v).cfg = s.cfg := rfl
@[simp] theorem State.memWrite_deviceAnswers : (s.memWrite a v).deviceAnswers = s.deviceAnswers := rfl
@[simp] theorem State.memWrite_deviceCalls : (s.memWrite a v).deviceCalls = s.deviceCalls := rfl
@[simp] theorem State.memWrite_draws : (s.memWrite a v).draws = s.draws := rfl

end MemWrite

section SetPc

variable (s : State) (y : Word)

@[simp] theorem State.setPc_ar : (s.setPc y).ar = s.ar := rfl
@[simp] theorem State.setPc_br : (s.setPc y).br = s.br := rfl
@[simp] theorem State.setPc_pc : (s.setPc y).pc = (s.newa s.pc y) := rfl
@[simp] theorem State.setPc_c : (s.setPc y).c = s.c := rfl
@[simp] theorem State.setPc_ext : (s.setPc y).ext = s.ext := rfl
@[simp] theorem State.setPc_extoff : (s.setPc y).extoff = s.extoff := rfl
@[simp] theorem State.setPc_pme : (s.setPc y).pme = s.pme := rfl
@[simp] theorem State.setPc_dp : (s.setPc y).dp = s.dp := rfl
@[simp] theorem State.setPc_sc : (s.setPc y).sc = s.sc := rfl
@[simp] theorem State.setPc_ss1 : (s.setPc y).ss1 = s.ss1 := rfl
@[simp] theorem State.setPc_ss2 : (s.setPc y).ss2 = s.ss2 := rfl
@[simp] theorem State.setPc_ss3 : (s.setPc y).ss3 = s.ss3 := rfl
@[simp] theorem State.setPc_ss4 : (s.setPc y).ss4 = s.ss4 := rfl
@[simp] theorem State.setPc_intReq : (s.setPc y).intReq = s.intReq := rfl
@[simp] theorem State.setPc_intOn : (s.setPc y).intOn = s.intOn := rfl
@[simp] theorem State.setPc_intNodef : (s.setPc y).intNodef = s.intNodef := rfl
@[simp] theorem State.setPc_intStart : (s.setPc y).intStart = s.intStart := rfl
@[simp] theorem State.setPc_intEnb : (s.setPc y).intEnb = s.intEnb := rfl
@[simp] theorem State.setPc_xintReq : (s.setPc y).xintReq = s.xintReq := rfl
@[simp] theorem State.setPc_xintEnb : (s.setPc y).xintEnb = s.xintEnb := rfl
@[simp] theorem State.setPc_dma : (s.setPc y).dma = s.dma := rfl
@[simp] theorem State.setPc_chanReq : (s.setPc y).chanReq = s.chanReq := rfl
@[simp] theorem State.setPc_run : (s.setPc y).run = s.run := rfl
@[simp] theorem State.setPc_mem : (s.setPc y).mem = s.mem := rfl
@[simp] theorem State.setPc_cfg : (s.setPc y).cfg = s.cfg := rfl
@[simp] theorem State.setPc_deviceAnswers : (s.setPc y).deviceAnswers = s.deviceAnswers := rfl
@[simp] theorem State.setPc_deviceCalls : (s.setPc y).deviceCalls = s.deviceCalls := rfl
@[simp] theorem State.setPc_draws : (s.setPc y).draws = s.draws := rfl

end SetPc

section Skip

variable (s : State)

@[simp] theorem State.skip_ar : (s.skip).ar = s.ar := rfl
@[simp] theorem State.skip_br : (s.skip).br = s.br := rfl
@[simp] theorem State.skip_pc : (s.skip).pc = (s.newa s.pc (s.pc.setWidth 16 + 1)) := rfl
@[simp] theorem State.skip_c : (s.skip).c = s.c := rfl
@[simp] theorem State.skip_ext : (s.skip).ext = s.ext := rfl
@[simp] theorem State.skip_extoff : (s.skip).extoff = s.extoff := rfl
@[simp] theorem State.skip_pme : (s.skip).pme = s.pme := rfl
@[simp] theorem State.skip_dp : (s.skip).dp = s.dp := rfl
@[simp] theorem State.skip_sc : (s.skip).sc = s.sc := rfl
@[simp] theorem State.skip_ss1 : (s.skip).ss1 = s.ss1 := rfl
@[simp] theorem State.skip_ss2 : (s.skip).ss2 = s.ss2 := rfl
@[simp] theorem State.skip_ss3 : (s.skip).ss3 = s.ss3 := rfl
@[simp] theorem State.skip_ss4 : (s.skip).ss4 = s.ss4 := rfl
@[simp] theorem State.skip_intReq : (s.skip).intReq = s.intReq := rfl
@[simp] theorem State.skip_intOn : (s.skip).intOn = s.intOn := rfl
@[simp] theorem State.skip_intNodef : (s.skip).intNodef = s.intNodef := rfl
@[simp] theorem State.skip_intStart : (s.skip).intStart = s.intStart := rfl
@[simp] theorem State.skip_intEnb : (s.skip).intEnb = s.intEnb := rfl
@[simp] theorem State.skip_xintReq : (s.skip).xintReq = s.xintReq := rfl
@[simp] theorem State.skip_xintEnb : (s.skip).xintEnb = s.xintEnb := rfl
@[simp] theorem State.skip_dma : (s.skip).dma = s.dma := rfl
@[simp] theorem State.skip_chanReq : (s.skip).chanReq = s.chanReq := rfl
@[simp] theorem State.skip_run : (s.skip).run = s.run := rfl
@[simp] theorem State.skip_mem : (s.skip).mem = s.mem := rfl
@[simp] theorem State.skip_cfg : (s.skip).cfg = s.cfg := rfl
@[simp] theorem State.skip_deviceAnswers : (s.skip).deviceAnswers = s.deviceAnswers := rfl
@[simp] theorem State.skip_deviceCalls : (s.skip).deviceCalls = s.deviceCalls := rfl
@[simp] theorem State.skip_draws : (s.skip).draws = s.draws := rfl

end Skip

section Skip2

variable (s : State)

@[simp] theorem State.skip2_ar : (s.skip2).ar = s.ar := rfl
@[simp] theorem State.skip2_br : (s.skip2).br = s.br := rfl
@[simp] theorem State.skip2_pc : (s.skip2).pc = (s.newa s.pc (s.pc.setWidth 16 + 2)) := rfl
@[simp] theorem State.skip2_c : (s.skip2).c = s.c := rfl
@[simp] theorem State.skip2_ext : (s.skip2).ext = s.ext := rfl
@[simp] theorem State.skip2_extoff : (s.skip2).extoff = s.extoff := rfl
@[simp] theorem State.skip2_pme : (s.skip2).pme = s.pme := rfl
@[simp] theorem State.skip2_dp : (s.skip2).dp = s.dp := rfl
@[simp] theorem State.skip2_sc : (s.skip2).sc = s.sc := rfl
@[simp] theorem State.skip2_ss1 : (s.skip2).ss1 = s.ss1 := rfl
@[simp] theorem State.skip2_ss2 : (s.skip2).ss2 = s.ss2 := rfl
@[simp] theorem State.skip2_ss3 : (s.skip2).ss3 = s.ss3 := rfl
@[simp] theorem State.skip2_ss4 : (s.skip2).ss4 = s.ss4 := rfl
@[simp] theorem State.skip2_intReq : (s.skip2).intReq = s.intReq := rfl
@[simp] theorem State.skip2_intOn : (s.skip2).intOn = s.intOn := rfl
@[simp] theorem State.skip2_intNodef : (s.skip2).intNodef = s.intNodef := rfl
@[simp] theorem State.skip2_intStart : (s.skip2).intStart = s.intStart := rfl
@[simp] theorem State.skip2_intEnb : (s.skip2).intEnb = s.intEnb := rfl
@[simp] theorem State.skip2_xintReq : (s.skip2).xintReq = s.xintReq := rfl
@[simp] theorem State.skip2_xintEnb : (s.skip2).xintEnb = s.xintEnb := rfl
@[simp] theorem State.skip2_dma : (s.skip2).dma = s.dma := rfl
@[simp] theorem State.skip2_chanReq : (s.skip2).chanReq = s.chanReq := rfl
@[simp] theorem State.skip2_run : (s.skip2).run = s.run := rfl
@[simp] theorem State.skip2_mem : (s.skip2).mem = s.mem := rfl
@[simp] theorem State.skip2_cfg : (s.skip2).cfg = s.cfg := rfl
@[simp] theorem State.skip2_deviceAnswers : (s.skip2).deviceAnswers = s.deviceAnswers := rfl
@[simp] theorem State.skip2_deviceCalls : (s.skip2).deviceCalls = s.deviceCalls := rfl
@[simp] theorem State.skip2_draws : (s.skip2).draws = s.draws := rfl

end Skip2

section SkipIf

variable (s : State) (cond : Bool)

@[simp] theorem State.skipIf_ar : (s.skipIf cond).ar = s.ar := rfl
@[simp] theorem State.skipIf_br : (s.skipIf cond).br = s.br := rfl
@[simp] theorem State.skipIf_pc : (s.skipIf cond).pc = (if cond then s.skip.pc else s.pc) := rfl
@[simp] theorem State.skipIf_c : (s.skipIf cond).c = s.c := rfl
@[simp] theorem State.skipIf_ext : (s.skipIf cond).ext = s.ext := rfl
@[simp] theorem State.skipIf_extoff : (s.skipIf cond).extoff = s.extoff := rfl
@[simp] theorem State.skipIf_pme : (s.skipIf cond).pme = s.pme := rfl
@[simp] theorem State.skipIf_dp : (s.skipIf cond).dp = s.dp := rfl
@[simp] theorem State.skipIf_sc : (s.skipIf cond).sc = s.sc := rfl
@[simp] theorem State.skipIf_ss1 : (s.skipIf cond).ss1 = s.ss1 := rfl
@[simp] theorem State.skipIf_ss2 : (s.skipIf cond).ss2 = s.ss2 := rfl
@[simp] theorem State.skipIf_ss3 : (s.skipIf cond).ss3 = s.ss3 := rfl
@[simp] theorem State.skipIf_ss4 : (s.skipIf cond).ss4 = s.ss4 := rfl
@[simp] theorem State.skipIf_intReq : (s.skipIf cond).intReq = s.intReq := rfl
@[simp] theorem State.skipIf_intOn : (s.skipIf cond).intOn = s.intOn := rfl
@[simp] theorem State.skipIf_intNodef : (s.skipIf cond).intNodef = s.intNodef := rfl
@[simp] theorem State.skipIf_intStart : (s.skipIf cond).intStart = s.intStart := rfl
@[simp] theorem State.skipIf_intEnb : (s.skipIf cond).intEnb = s.intEnb := rfl
@[simp] theorem State.skipIf_xintReq : (s.skipIf cond).xintReq = s.xintReq := rfl
@[simp] theorem State.skipIf_xintEnb : (s.skipIf cond).xintEnb = s.xintEnb := rfl
@[simp] theorem State.skipIf_dma : (s.skipIf cond).dma = s.dma := rfl
@[simp] theorem State.skipIf_chanReq : (s.skipIf cond).chanReq = s.chanReq := rfl
@[simp] theorem State.skipIf_run : (s.skipIf cond).run = s.run := rfl
@[simp] theorem State.skipIf_mem : (s.skipIf cond).mem = s.mem := rfl
@[simp] theorem State.skipIf_cfg : (s.skipIf cond).cfg = s.cfg := rfl
@[simp] theorem State.skipIf_deviceAnswers : (s.skipIf cond).deviceAnswers = s.deviceAnswers := rfl
@[simp] theorem State.skipIf_deviceCalls : (s.skipIf cond).deviceCalls = s.deviceCalls := rfl
@[simp] theorem State.skipIf_draws : (s.skipIf cond).draws = s.draws := rfl

end SkipIf

section SetXr

variable (s : State) (v : Word)

@[simp] theorem State.setXr_ar : (s.setXr v).ar = s.ar := rfl
@[simp] theorem State.setXr_br : (s.setXr v).br = s.br := rfl
@[simp] theorem State.setXr_pc : (s.setXr v).pc = s.pc := rfl
@[simp] theorem State.setXr_c : (s.setXr v).c = s.c := rfl
@[simp] theorem State.setXr_ext : (s.setXr v).ext = s.ext := rfl
@[simp] theorem State.setXr_extoff : (s.setXr v).extoff = s.extoff := rfl
@[simp] theorem State.setXr_pme : (s.setXr v).pme = s.pme := rfl
@[simp] theorem State.setXr_dp : (s.setXr v).dp = s.dp := rfl
@[simp] theorem State.setXr_sc : (s.setXr v).sc = s.sc := rfl
@[simp] theorem State.setXr_ss1 : (s.setXr v).ss1 = s.ss1 := rfl
@[simp] theorem State.setXr_ss2 : (s.setXr v).ss2 = s.ss2 := rfl
@[simp] theorem State.setXr_ss3 : (s.setXr v).ss3 = s.ss3 := rfl
@[simp] theorem State.setXr_ss4 : (s.setXr v).ss4 = s.ss4 := rfl
@[simp] theorem State.setXr_intReq : (s.setXr v).intReq = s.intReq := rfl
@[simp] theorem State.setXr_intOn : (s.setXr v).intOn = s.intOn := rfl
@[simp] theorem State.setXr_intNodef : (s.setXr v).intNodef = s.intNodef := rfl
@[simp] theorem State.setXr_intStart : (s.setXr v).intStart = s.intStart := rfl
@[simp] theorem State.setXr_intEnb : (s.setXr v).intEnb = s.intEnb := rfl
@[simp] theorem State.setXr_xintReq : (s.setXr v).xintReq = s.xintReq := rfl
@[simp] theorem State.setXr_xintEnb : (s.setXr v).xintEnb = s.xintEnb := rfl
@[simp] theorem State.setXr_dma : (s.setXr v).dma = s.dma := rfl
@[simp] theorem State.setXr_chanReq : (s.setXr v).chanReq = s.chanReq := rfl
@[simp] theorem State.setXr_run : (s.setXr v).run = s.run := rfl
@[simp] theorem State.setXr_mem :
    (s.setXr v).mem =
    (if s.xrAddr.toNat < s.cfg.memSize then s.mem.writeWord s.xrAddr v else s.mem) := rfl
@[simp] theorem State.setXr_cfg : (s.setXr v).cfg = s.cfg := rfl
@[simp] theorem State.setXr_deviceAnswers : (s.setXr v).deviceAnswers = s.deviceAnswers := rfl
@[simp] theorem State.setXr_deviceCalls : (s.setXr v).deviceCalls = s.deviceCalls := rfl
@[simp] theorem State.setXr_draws : (s.setXr v).draws = s.draws := rfl

end SetXr

section Stop

variable (s : State) (r : StopReason)

@[simp] theorem State.stop_ar : (s.stop r).ar = s.ar := rfl
@[simp] theorem State.stop_br : (s.stop r).br = s.br := rfl
@[simp] theorem State.stop_pc : (s.stop r).pc = s.pc := rfl
@[simp] theorem State.stop_c : (s.stop r).c = s.c := rfl
@[simp] theorem State.stop_ext : (s.stop r).ext = s.ext := rfl
@[simp] theorem State.stop_extoff : (s.stop r).extoff = s.extoff := rfl
@[simp] theorem State.stop_pme : (s.stop r).pme = s.pme := rfl
@[simp] theorem State.stop_dp : (s.stop r).dp = s.dp := rfl
@[simp] theorem State.stop_sc : (s.stop r).sc = s.sc := rfl
@[simp] theorem State.stop_ss1 : (s.stop r).ss1 = s.ss1 := rfl
@[simp] theorem State.stop_ss2 : (s.stop r).ss2 = s.ss2 := rfl
@[simp] theorem State.stop_ss3 : (s.stop r).ss3 = s.ss3 := rfl
@[simp] theorem State.stop_ss4 : (s.stop r).ss4 = s.ss4 := rfl
@[simp] theorem State.stop_intReq : (s.stop r).intReq = s.intReq := rfl
@[simp] theorem State.stop_intOn : (s.stop r).intOn = s.intOn := rfl
@[simp] theorem State.stop_intNodef : (s.stop r).intNodef = s.intNodef := rfl
@[simp] theorem State.stop_intStart : (s.stop r).intStart = s.intStart := rfl
@[simp] theorem State.stop_intEnb : (s.stop r).intEnb = s.intEnb := rfl
@[simp] theorem State.stop_xintReq : (s.stop r).xintReq = s.xintReq := rfl
@[simp] theorem State.stop_xintEnb : (s.stop r).xintEnb = s.xintEnb := rfl
@[simp] theorem State.stop_dma : (s.stop r).dma = s.dma := rfl
@[simp] theorem State.stop_chanReq : (s.stop r).chanReq = s.chanReq := rfl
@[simp] theorem State.stop_run : (s.stop r).run = (.stopped r) := rfl
@[simp] theorem State.stop_mem : (s.stop r).mem = s.mem := rfl
@[simp] theorem State.stop_cfg : (s.stop r).cfg = s.cfg := rfl
@[simp] theorem State.stop_deviceAnswers : (s.stop r).deviceAnswers = s.deviceAnswers := rfl
@[simp] theorem State.stop_deviceCalls : (s.stop r).deviceCalls = s.deviceCalls := rfl
@[simp] theorem State.stop_draws : (s.stop r).draws = s.draws := rfl

end Stop

section StopOn

variable (s : State) (r : Option StopReason)

@[simp] theorem State.stopOn_ar : (s.stopOn r).ar = s.ar := rfl
@[simp] theorem State.stopOn_br : (s.stopOn r).br = s.br := rfl
@[simp] theorem State.stopOn_pc : (s.stopOn r).pc = s.pc := rfl
@[simp] theorem State.stopOn_c : (s.stopOn r).c = s.c := rfl
@[simp] theorem State.stopOn_ext : (s.stopOn r).ext = s.ext := rfl
@[simp] theorem State.stopOn_extoff : (s.stopOn r).extoff = s.extoff := rfl
@[simp] theorem State.stopOn_pme : (s.stopOn r).pme = s.pme := rfl
@[simp] theorem State.stopOn_dp : (s.stopOn r).dp = s.dp := rfl
@[simp] theorem State.stopOn_sc : (s.stopOn r).sc = s.sc := rfl
@[simp] theorem State.stopOn_ss1 : (s.stopOn r).ss1 = s.ss1 := rfl
@[simp] theorem State.stopOn_ss2 : (s.stopOn r).ss2 = s.ss2 := rfl
@[simp] theorem State.stopOn_ss3 : (s.stopOn r).ss3 = s.ss3 := rfl
@[simp] theorem State.stopOn_ss4 : (s.stopOn r).ss4 = s.ss4 := rfl
@[simp] theorem State.stopOn_intReq : (s.stopOn r).intReq = s.intReq := rfl
@[simp] theorem State.stopOn_intOn : (s.stopOn r).intOn = s.intOn := rfl
@[simp] theorem State.stopOn_intNodef : (s.stopOn r).intNodef = s.intNodef := rfl
@[simp] theorem State.stopOn_intStart : (s.stopOn r).intStart = s.intStart := rfl
@[simp] theorem State.stopOn_intEnb : (s.stopOn r).intEnb = s.intEnb := rfl
@[simp] theorem State.stopOn_xintReq : (s.stopOn r).xintReq = s.xintReq := rfl
@[simp] theorem State.stopOn_xintEnb : (s.stopOn r).xintEnb = s.xintEnb := rfl
@[simp] theorem State.stopOn_dma : (s.stopOn r).dma = s.dma := rfl
@[simp] theorem State.stopOn_chanReq : (s.stopOn r).chanReq = s.chanReq := rfl
@[simp] theorem State.stopOn_run : (s.stopOn r).run = (match r with | none => s.run | some e => .stopped e) := rfl
@[simp] theorem State.stopOn_mem : (s.stopOn r).mem = s.mem := rfl
@[simp] theorem State.stopOn_cfg : (s.stopOn r).cfg = s.cfg := rfl
@[simp] theorem State.stopOn_deviceAnswers : (s.stopOn r).deviceAnswers = s.deviceAnswers := rfl
@[simp] theorem State.stopOn_deviceCalls : (s.stopOn r).deviceCalls = s.deviceCalls := rfl
@[simp] theorem State.stopOn_draws : (s.stopOn r).draws = s.draws := rfl

end StopOn

section Illegal

variable (s : State)

@[simp] theorem State.illegal_ar : (s.illegal).ar = s.ar := rfl
@[simp] theorem State.illegal_br : (s.illegal).br = s.br := rfl
@[simp] theorem State.illegal_pc : (s.illegal).pc = s.pc := rfl
@[simp] theorem State.illegal_c : (s.illegal).c = s.c := rfl
@[simp] theorem State.illegal_ext : (s.illegal).ext = s.ext := rfl
@[simp] theorem State.illegal_extoff : (s.illegal).extoff = s.extoff := rfl
@[simp] theorem State.illegal_pme : (s.illegal).pme = s.pme := rfl
@[simp] theorem State.illegal_dp : (s.illegal).dp = s.dp := rfl
@[simp] theorem State.illegal_sc : (s.illegal).sc = s.sc := rfl
@[simp] theorem State.illegal_ss1 : (s.illegal).ss1 = s.ss1 := rfl
@[simp] theorem State.illegal_ss2 : (s.illegal).ss2 = s.ss2 := rfl
@[simp] theorem State.illegal_ss3 : (s.illegal).ss3 = s.ss3 := rfl
@[simp] theorem State.illegal_ss4 : (s.illegal).ss4 = s.ss4 := rfl
@[simp] theorem State.illegal_intReq : (s.illegal).intReq = s.intReq := rfl
@[simp] theorem State.illegal_intOn : (s.illegal).intOn = s.intOn := rfl
@[simp] theorem State.illegal_intNodef : (s.illegal).intNodef = s.intNodef := rfl
@[simp] theorem State.illegal_intStart : (s.illegal).intStart = s.intStart := rfl
@[simp] theorem State.illegal_intEnb : (s.illegal).intEnb = s.intEnb := rfl
@[simp] theorem State.illegal_xintReq : (s.illegal).xintReq = s.xintReq := rfl
@[simp] theorem State.illegal_xintEnb : (s.illegal).xintEnb = s.xintEnb := rfl
@[simp] theorem State.illegal_dma : (s.illegal).dma = s.dma := rfl
@[simp] theorem State.illegal_chanReq : (s.illegal).chanReq = s.chanReq := rfl
@[simp] theorem State.illegal_run :
    (s.illegal).run =
    ((s.stopOn (if s.cfg.stopInst then some .rsrv else none)).run) := rfl
@[simp] theorem State.illegal_mem : (s.illegal).mem = s.mem := rfl
@[simp] theorem State.illegal_cfg : (s.illegal).cfg = s.cfg := rfl
@[simp] theorem State.illegal_deviceAnswers : (s.illegal).deviceAnswers = s.deviceAnswers := rfl
@[simp] theorem State.illegal_deviceCalls : (s.illegal).deviceCalls = s.deviceCalls := rfl
@[simp] theorem State.illegal_draws : (s.illegal).draws = s.draws := rfl

end Illegal

section DrawSc

variable (s : State)

@[simp] theorem State.drawSc_ar : (s.drawSc).ar = s.ar := rfl
@[simp] theorem State.drawSc_br : (s.drawSc).br = s.br := rfl
@[simp] theorem State.drawSc_pc : (s.drawSc).pc = s.pc := rfl
@[simp] theorem State.drawSc_c : (s.drawSc).c = s.c := rfl
@[simp] theorem State.drawSc_ext : (s.drawSc).ext = s.ext := rfl
@[simp] theorem State.drawSc_extoff : (s.drawSc).extoff = s.extoff := rfl
@[simp] theorem State.drawSc_pme : (s.drawSc).pme = s.pme := rfl
@[simp] theorem State.drawSc_dp : (s.drawSc).dp = s.dp := rfl
@[simp] theorem State.drawSc_sc : (s.drawSc).sc = (Config.freeSc s.draws) := rfl
@[simp] theorem State.drawSc_ss1 : (s.drawSc).ss1 = s.ss1 := rfl
@[simp] theorem State.drawSc_ss2 : (s.drawSc).ss2 = s.ss2 := rfl
@[simp] theorem State.drawSc_ss3 : (s.drawSc).ss3 = s.ss3 := rfl
@[simp] theorem State.drawSc_ss4 : (s.drawSc).ss4 = s.ss4 := rfl
@[simp] theorem State.drawSc_intReq : (s.drawSc).intReq = s.intReq := rfl
@[simp] theorem State.drawSc_intOn : (s.drawSc).intOn = s.intOn := rfl
@[simp] theorem State.drawSc_intNodef : (s.drawSc).intNodef = s.intNodef := rfl
@[simp] theorem State.drawSc_intStart : (s.drawSc).intStart = s.intStart := rfl
@[simp] theorem State.drawSc_intEnb : (s.drawSc).intEnb = s.intEnb := rfl
@[simp] theorem State.drawSc_xintReq : (s.drawSc).xintReq = s.xintReq := rfl
@[simp] theorem State.drawSc_xintEnb : (s.drawSc).xintEnb = s.xintEnb := rfl
@[simp] theorem State.drawSc_dma : (s.drawSc).dma = s.dma := rfl
@[simp] theorem State.drawSc_chanReq : (s.drawSc).chanReq = s.chanReq := rfl
@[simp] theorem State.drawSc_run : (s.drawSc).run = s.run := rfl
@[simp] theorem State.drawSc_mem : (s.drawSc).mem = s.mem := rfl
@[simp] theorem State.drawSc_cfg : (s.drawSc).cfg = s.cfg := rfl
@[simp] theorem State.drawSc_deviceAnswers : (s.drawSc).deviceAnswers = s.deviceAnswers := rfl
@[simp] theorem State.drawSc_deviceCalls : (s.drawSc).deviceCalls = s.deviceCalls := rfl
@[simp] theorem State.drawSc_draws : (s.drawSc).draws = (s.draws + 1) := rfl

end DrawSc

section DrawC

variable (s : State)

@[simp] theorem State.drawC_ar : (s.drawC).ar = s.ar := rfl
@[simp] theorem State.drawC_br : (s.drawC).br = s.br := rfl
@[simp] theorem State.drawC_pc : (s.drawC).pc = s.pc := rfl
@[simp] theorem State.drawC_c : (s.drawC).c = (Config.freeC s.draws) := rfl
@[simp] theorem State.drawC_ext : (s.drawC).ext = s.ext := rfl
@[simp] theorem State.drawC_extoff : (s.drawC).extoff = s.extoff := rfl
@[simp] theorem State.drawC_pme : (s.drawC).pme = s.pme := rfl
@[simp] theorem State.drawC_dp : (s.drawC).dp = s.dp := rfl
@[simp] theorem State.drawC_sc : (s.drawC).sc = s.sc := rfl
@[simp] theorem State.drawC_ss1 : (s.drawC).ss1 = s.ss1 := rfl
@[simp] theorem State.drawC_ss2 : (s.drawC).ss2 = s.ss2 := rfl
@[simp] theorem State.drawC_ss3 : (s.drawC).ss3 = s.ss3 := rfl
@[simp] theorem State.drawC_ss4 : (s.drawC).ss4 = s.ss4 := rfl
@[simp] theorem State.drawC_intReq : (s.drawC).intReq = s.intReq := rfl
@[simp] theorem State.drawC_intOn : (s.drawC).intOn = s.intOn := rfl
@[simp] theorem State.drawC_intNodef : (s.drawC).intNodef = s.intNodef := rfl
@[simp] theorem State.drawC_intStart : (s.drawC).intStart = s.intStart := rfl
@[simp] theorem State.drawC_intEnb : (s.drawC).intEnb = s.intEnb := rfl
@[simp] theorem State.drawC_xintReq : (s.drawC).xintReq = s.xintReq := rfl
@[simp] theorem State.drawC_xintEnb : (s.drawC).xintEnb = s.xintEnb := rfl
@[simp] theorem State.drawC_dma : (s.drawC).dma = s.dma := rfl
@[simp] theorem State.drawC_chanReq : (s.drawC).chanReq = s.chanReq := rfl
@[simp] theorem State.drawC_run : (s.drawC).run = s.run := rfl
@[simp] theorem State.drawC_mem : (s.drawC).mem = s.mem := rfl
@[simp] theorem State.drawC_cfg : (s.drawC).cfg = s.cfg := rfl
@[simp] theorem State.drawC_deviceAnswers : (s.drawC).deviceAnswers = s.deviceAnswers := rfl
@[simp] theorem State.drawC_deviceCalls : (s.drawC).deviceCalls = s.deviceCalls := rfl
@[simp] theorem State.drawC_draws : (s.drawC).draws = (s.draws + 1) := rfl

end DrawC

section DrawArBr

variable (s : State)

@[simp] theorem State.drawArBr_ar : (s.drawArBr).ar = (Config.freeAr s.draws) := rfl
@[simp] theorem State.drawArBr_br : (s.drawArBr).br = (Config.freeBr s.draws) := rfl
@[simp] theorem State.drawArBr_pc : (s.drawArBr).pc = s.pc := rfl
@[simp] theorem State.drawArBr_c : (s.drawArBr).c = s.c := rfl
@[simp] theorem State.drawArBr_ext : (s.drawArBr).ext = s.ext := rfl
@[simp] theorem State.drawArBr_extoff : (s.drawArBr).extoff = s.extoff := rfl
@[simp] theorem State.drawArBr_pme : (s.drawArBr).pme = s.pme := rfl
@[simp] theorem State.drawArBr_dp : (s.drawArBr).dp = s.dp := rfl
@[simp] theorem State.drawArBr_sc : (s.drawArBr).sc = s.sc := rfl
@[simp] theorem State.drawArBr_ss1 : (s.drawArBr).ss1 = s.ss1 := rfl
@[simp] theorem State.drawArBr_ss2 : (s.drawArBr).ss2 = s.ss2 := rfl
@[simp] theorem State.drawArBr_ss3 : (s.drawArBr).ss3 = s.ss3 := rfl
@[simp] theorem State.drawArBr_ss4 : (s.drawArBr).ss4 = s.ss4 := rfl
@[simp] theorem State.drawArBr_intReq : (s.drawArBr).intReq = s.intReq := rfl
@[simp] theorem State.drawArBr_intOn : (s.drawArBr).intOn = s.intOn := rfl
@[simp] theorem State.drawArBr_intNodef : (s.drawArBr).intNodef = s.intNodef := rfl
@[simp] theorem State.drawArBr_intStart : (s.drawArBr).intStart = s.intStart := rfl
@[simp] theorem State.drawArBr_intEnb : (s.drawArBr).intEnb = s.intEnb := rfl
@[simp] theorem State.drawArBr_xintReq : (s.drawArBr).xintReq = s.xintReq := rfl
@[simp] theorem State.drawArBr_xintEnb : (s.drawArBr).xintEnb = s.xintEnb := rfl
@[simp] theorem State.drawArBr_dma : (s.drawArBr).dma = s.dma := rfl
@[simp] theorem State.drawArBr_chanReq : (s.drawArBr).chanReq = s.chanReq := rfl
@[simp] theorem State.drawArBr_run : (s.drawArBr).run = s.run := rfl
@[simp] theorem State.drawArBr_mem : (s.drawArBr).mem = s.mem := rfl
@[simp] theorem State.drawArBr_cfg : (s.drawArBr).cfg = s.cfg := rfl
@[simp] theorem State.drawArBr_deviceAnswers : (s.drawArBr).deviceAnswers = s.deviceAnswers := rfl
@[simp] theorem State.drawArBr_deviceCalls : (s.drawArBr).deviceCalls = s.deviceCalls := rfl
@[simp] theorem State.drawArBr_draws : (s.drawArBr).draws = (s.draws + 1) := rfl

end DrawArBr

section InterruptEntry

variable (s : State)

@[simp] theorem State.interruptEntry_ar : (s.interruptEntry).ar = s.ar := rfl
@[simp] theorem State.interruptEntry_br : (s.interruptEntry).br = s.br := rfl
@[simp] theorem State.interruptEntry_pc : (s.interruptEntry).pc = s.pc := rfl
@[simp] theorem State.interruptEntry_c : (s.interruptEntry).c = s.c := rfl
@[simp] theorem State.interruptEntry_ext : (s.interruptEntry).ext = (s.ext || s.cfg.optExt) := rfl
@[simp] theorem State.interruptEntry_extoff : (s.interruptEntry).extoff = (false) := rfl
@[simp] theorem State.interruptEntry_pme : (s.interruptEntry).pme = (s.ext) := rfl
@[simp] theorem State.interruptEntry_dp : (s.interruptEntry).dp = s.dp := rfl
@[simp] theorem State.interruptEntry_sc : (s.interruptEntry).sc = s.sc := rfl
@[simp] theorem State.interruptEntry_ss1 : (s.interruptEntry).ss1 = s.ss1 := rfl
@[simp] theorem State.interruptEntry_ss2 : (s.interruptEntry).ss2 = s.ss2 := rfl
@[simp] theorem State.interruptEntry_ss3 : (s.interruptEntry).ss3 = s.ss3 := rfl
@[simp] theorem State.interruptEntry_ss4 : (s.interruptEntry).ss4 = s.ss4 := rfl
@[simp] theorem State.interruptEntry_intReq : (s.interruptEntry).intReq = s.intReq := rfl
@[simp] theorem State.interruptEntry_intOn : (s.interruptEntry).intOn = (false) := rfl
@[simp] theorem State.interruptEntry_intNodef : (s.interruptEntry).intNodef = s.intNodef := rfl
@[simp] theorem State.interruptEntry_intStart : (s.interruptEntry).intStart = s.intStart := rfl
@[simp] theorem State.interruptEntry_intEnb : (s.interruptEntry).intEnb = s.intEnb := rfl
@[simp] theorem State.interruptEntry_xintReq : (s.interruptEntry).xintReq = s.xintReq := rfl
@[simp] theorem State.interruptEntry_xintEnb : (s.interruptEntry).xintEnb = s.xintEnb := rfl
@[simp] theorem State.interruptEntry_dma : (s.interruptEntry).dma = s.dma := rfl
@[simp] theorem State.interruptEntry_chanReq : (s.interruptEntry).chanReq = s.chanReq := rfl
@[simp] theorem State.interruptEntry_run : (s.interruptEntry).run = s.run := rfl
@[simp] theorem State.interruptEntry_mem : (s.interruptEntry).mem = s.mem := rfl
@[simp] theorem State.interruptEntry_cfg : (s.interruptEntry).cfg = s.cfg := rfl
@[simp] theorem State.interruptEntry_deviceAnswers : (s.interruptEntry).deviceAnswers = s.deviceAnswers := rfl
@[simp] theorem State.interruptEntry_deviceCalls : (s.interruptEntry).deviceCalls = s.deviceCalls := rfl
@[simp] theorem State.interruptEntry_draws : (s.interruptEntry).draws = s.draws := rfl

end InterruptEntry

section Jump

variable (s : State) (y : Word)

@[simp] theorem State.jump_ar : (s.jump y).ar = s.ar := rfl
@[simp] theorem State.jump_br : (s.jump y).br = s.br := rfl
@[simp] theorem State.jump_pc : (s.jump y).pc = (s.newa s.pc y) := rfl
@[simp] theorem State.jump_c : (s.jump y).c = s.c := rfl
@[simp] theorem State.jump_ext : (s.jump y).ext = (s.ext && !s.extoff) := rfl
@[simp] theorem State.jump_extoff : (s.jump y).extoff = (false) := rfl
@[simp] theorem State.jump_pme : (s.jump y).pme = s.pme := rfl
@[simp] theorem State.jump_dp : (s.jump y).dp = s.dp := rfl
@[simp] theorem State.jump_sc : (s.jump y).sc = s.sc := rfl
@[simp] theorem State.jump_ss1 : (s.jump y).ss1 = s.ss1 := rfl
@[simp] theorem State.jump_ss2 : (s.jump y).ss2 = s.ss2 := rfl
@[simp] theorem State.jump_ss3 : (s.jump y).ss3 = s.ss3 := rfl
@[simp] theorem State.jump_ss4 : (s.jump y).ss4 = s.ss4 := rfl
@[simp] theorem State.jump_intReq : (s.jump y).intReq = s.intReq := rfl
@[simp] theorem State.jump_intOn : (s.jump y).intOn = s.intOn := rfl
@[simp] theorem State.jump_intNodef : (s.jump y).intNodef = s.intNodef := rfl
@[simp] theorem State.jump_intStart : (s.jump y).intStart = s.intStart := rfl
@[simp] theorem State.jump_intEnb : (s.jump y).intEnb = s.intEnb := rfl
@[simp] theorem State.jump_xintReq : (s.jump y).xintReq = s.xintReq := rfl
@[simp] theorem State.jump_xintEnb : (s.jump y).xintEnb = s.xintEnb := rfl
@[simp] theorem State.jump_dma : (s.jump y).dma = s.dma := rfl
@[simp] theorem State.jump_chanReq : (s.jump y).chanReq = s.chanReq := rfl
@[simp] theorem State.jump_run : (s.jump y).run = s.run := rfl
@[simp] theorem State.jump_mem : (s.jump y).mem = s.mem := rfl
@[simp] theorem State.jump_cfg : (s.jump y).cfg = s.cfg := rfl
@[simp] theorem State.jump_deviceAnswers : (s.jump y).deviceAnswers = s.deviceAnswers := rfl
@[simp] theorem State.jump_deviceCalls : (s.jump y).deviceCalls = s.deviceCalls := rfl
@[simp] theorem State.jump_draws : (s.jump y).draws = s.draws := rfl

end Jump

section Add16

variable (s : State) (v1 v2 : Word)

@[simp] theorem State.add16_ar : (s.add16 v1 v2).ar = (v1 + v2) := rfl
@[simp] theorem State.add16_br : (s.add16 v1 v2).br = s.br := rfl
@[simp] theorem State.add16_pc : (s.add16 v1 v2).pc = s.pc := rfl
@[simp] theorem State.add16_c : (s.add16 v1 v2).c = (overflow16 v1 v2 (v1 + v2)) := rfl
@[simp] theorem State.add16_ext : (s.add16 v1 v2).ext = s.ext := rfl
@[simp] theorem State.add16_extoff : (s.add16 v1 v2).extoff = s.extoff := rfl
@[simp] theorem State.add16_pme : (s.add16 v1 v2).pme = s.pme := rfl
@[simp] theorem State.add16_dp : (s.add16 v1 v2).dp = s.dp := rfl
@[simp] theorem State.add16_sc : (s.add16 v1 v2).sc = s.sc := rfl
@[simp] theorem State.add16_ss1 : (s.add16 v1 v2).ss1 = s.ss1 := rfl
@[simp] theorem State.add16_ss2 : (s.add16 v1 v2).ss2 = s.ss2 := rfl
@[simp] theorem State.add16_ss3 : (s.add16 v1 v2).ss3 = s.ss3 := rfl
@[simp] theorem State.add16_ss4 : (s.add16 v1 v2).ss4 = s.ss4 := rfl
@[simp] theorem State.add16_intReq : (s.add16 v1 v2).intReq = s.intReq := rfl
@[simp] theorem State.add16_intOn : (s.add16 v1 v2).intOn = s.intOn := rfl
@[simp] theorem State.add16_intNodef : (s.add16 v1 v2).intNodef = s.intNodef := rfl
@[simp] theorem State.add16_intStart : (s.add16 v1 v2).intStart = s.intStart := rfl
@[simp] theorem State.add16_intEnb : (s.add16 v1 v2).intEnb = s.intEnb := rfl
@[simp] theorem State.add16_xintReq : (s.add16 v1 v2).xintReq = s.xintReq := rfl
@[simp] theorem State.add16_xintEnb : (s.add16 v1 v2).xintEnb = s.xintEnb := rfl
@[simp] theorem State.add16_dma : (s.add16 v1 v2).dma = s.dma := rfl
@[simp] theorem State.add16_chanReq : (s.add16 v1 v2).chanReq = s.chanReq := rfl
@[simp] theorem State.add16_run : (s.add16 v1 v2).run = s.run := rfl
@[simp] theorem State.add16_mem : (s.add16 v1 v2).mem = s.mem := rfl
@[simp] theorem State.add16_cfg : (s.add16 v1 v2).cfg = s.cfg := rfl
@[simp] theorem State.add16_deviceAnswers : (s.add16 v1 v2).deviceAnswers = s.deviceAnswers := rfl
@[simp] theorem State.add16_deviceCalls : (s.add16 v1 v2).deviceCalls = s.deviceCalls := rfl
@[simp] theorem State.add16_draws : (s.add16 v1 v2).draws = s.draws := rfl

end Add16

section AddDouble

variable (s : State) (v : Double)

@[simp] theorem State.addDouble_ar : (s.addDouble v).ar = ((w31 s.ar s.br + v).extractLsb' 15 16) := rfl
@[simp] theorem State.addDouble_br :
    (s.addDouble v).br =
    (BitVec.ofBool (s.br.getLsbD 15) ++ (w31 s.ar s.br + v).extractLsb' 0 15) := rfl
@[simp] theorem State.addDouble_pc : (s.addDouble v).pc = s.pc := rfl
@[simp] theorem State.addDouble_c : (s.addDouble v).c = (overflow31 (w31 s.ar s.br) v (w31 s.ar s.br + v)) := rfl
@[simp] theorem State.addDouble_ext : (s.addDouble v).ext = s.ext := rfl
@[simp] theorem State.addDouble_extoff : (s.addDouble v).extoff = s.extoff := rfl
@[simp] theorem State.addDouble_pme : (s.addDouble v).pme = s.pme := rfl
@[simp] theorem State.addDouble_dp : (s.addDouble v).dp = s.dp := rfl
@[simp] theorem State.addDouble_sc : (s.addDouble v).sc = (0) := rfl
@[simp] theorem State.addDouble_ss1 : (s.addDouble v).ss1 = s.ss1 := rfl
@[simp] theorem State.addDouble_ss2 : (s.addDouble v).ss2 = s.ss2 := rfl
@[simp] theorem State.addDouble_ss3 : (s.addDouble v).ss3 = s.ss3 := rfl
@[simp] theorem State.addDouble_ss4 : (s.addDouble v).ss4 = s.ss4 := rfl
@[simp] theorem State.addDouble_intReq : (s.addDouble v).intReq = s.intReq := rfl
@[simp] theorem State.addDouble_intOn : (s.addDouble v).intOn = s.intOn := rfl
@[simp] theorem State.addDouble_intNodef : (s.addDouble v).intNodef = s.intNodef := rfl
@[simp] theorem State.addDouble_intStart : (s.addDouble v).intStart = s.intStart := rfl
@[simp] theorem State.addDouble_intEnb : (s.addDouble v).intEnb = s.intEnb := rfl
@[simp] theorem State.addDouble_xintReq : (s.addDouble v).xintReq = s.xintReq := rfl
@[simp] theorem State.addDouble_xintEnb : (s.addDouble v).xintEnb = s.xintEnb := rfl
@[simp] theorem State.addDouble_dma : (s.addDouble v).dma = s.dma := rfl
@[simp] theorem State.addDouble_chanReq : (s.addDouble v).chanReq = s.chanReq := rfl
@[simp] theorem State.addDouble_run : (s.addDouble v).run = s.run := rfl
@[simp] theorem State.addDouble_mem : (s.addDouble v).mem = s.mem := rfl
@[simp] theorem State.addDouble_cfg : (s.addDouble v).cfg = s.cfg := rfl
@[simp] theorem State.addDouble_deviceAnswers : (s.addDouble v).deviceAnswers = s.deviceAnswers := rfl
@[simp] theorem State.addDouble_deviceCalls : (s.addDouble v).deviceCalls = s.deviceCalls := rfl
@[simp] theorem State.addDouble_draws : (s.addDouble v).draws = s.draws := rfl

end AddDouble

section Put31z

variable (s : State) (p : Double)

@[simp] theorem State.put31z_ar : (s.put31z p).ar = (p.extractLsb' 15 16) := rfl
@[simp] theorem State.put31z_br : (s.put31z p).br = (0#1 ++ p.extractLsb' 0 15) := rfl
@[simp] theorem State.put31z_pc : (s.put31z p).pc = s.pc := rfl
@[simp] theorem State.put31z_c : (s.put31z p).c = s.c := rfl
@[simp] theorem State.put31z_ext : (s.put31z p).ext = s.ext := rfl
@[simp] theorem State.put31z_extoff : (s.put31z p).extoff = s.extoff := rfl
@[simp] theorem State.put31z_pme : (s.put31z p).pme = s.pme := rfl
@[simp] theorem State.put31z_dp : (s.put31z p).dp = s.dp := rfl
@[simp] theorem State.put31z_sc : (s.put31z p).sc = s.sc := rfl
@[simp] theorem State.put31z_ss1 : (s.put31z p).ss1 = s.ss1 := rfl
@[simp] theorem State.put31z_ss2 : (s.put31z p).ss2 = s.ss2 := rfl
@[simp] theorem State.put31z_ss3 : (s.put31z p).ss3 = s.ss3 := rfl
@[simp] theorem State.put31z_ss4 : (s.put31z p).ss4 = s.ss4 := rfl
@[simp] theorem State.put31z_intReq : (s.put31z p).intReq = s.intReq := rfl
@[simp] theorem State.put31z_intOn : (s.put31z p).intOn = s.intOn := rfl
@[simp] theorem State.put31z_intNodef : (s.put31z p).intNodef = s.intNodef := rfl
@[simp] theorem State.put31z_intStart : (s.put31z p).intStart = s.intStart := rfl
@[simp] theorem State.put31z_intEnb : (s.put31z p).intEnb = s.intEnb := rfl
@[simp] theorem State.put31z_xintReq : (s.put31z p).xintReq = s.xintReq := rfl
@[simp] theorem State.put31z_xintEnb : (s.put31z p).xintEnb = s.xintEnb := rfl
@[simp] theorem State.put31z_dma : (s.put31z p).dma = s.dma := rfl
@[simp] theorem State.put31z_chanReq : (s.put31z p).chanReq = s.chanReq := rfl
@[simp] theorem State.put31z_run : (s.put31z p).run = s.run := rfl
@[simp] theorem State.put31z_mem : (s.put31z p).mem = s.mem := rfl
@[simp] theorem State.put31z_cfg : (s.put31z p).cfg = s.cfg := rfl
@[simp] theorem State.put31z_deviceAnswers : (s.put31z p).deviceAnswers = s.deviceAnswers := rfl
@[simp] theorem State.put31z_deviceCalls : (s.put31z p).deviceCalls = s.deviceCalls := rfl
@[simp] theorem State.put31z_draws : (s.put31z p).draws = s.draws := rfl

end Put31z

section SetShiftRegs

variable (s : State) (r : ShiftRegs)

@[simp] theorem State.setShiftRegs_ar : (s.setShiftRegs r).ar = (r.ar) := rfl
@[simp] theorem State.setShiftRegs_br : (s.setShiftRegs r).br = (r.br) := rfl
@[simp] theorem State.setShiftRegs_pc : (s.setShiftRegs r).pc = s.pc := rfl
@[simp] theorem State.setShiftRegs_c : (s.setShiftRegs r).c = (r.c) := rfl
@[simp] theorem State.setShiftRegs_ext : (s.setShiftRegs r).ext = s.ext := rfl
@[simp] theorem State.setShiftRegs_extoff : (s.setShiftRegs r).extoff = s.extoff := rfl
@[simp] theorem State.setShiftRegs_pme : (s.setShiftRegs r).pme = s.pme := rfl
@[simp] theorem State.setShiftRegs_dp : (s.setShiftRegs r).dp = s.dp := rfl
@[simp] theorem State.setShiftRegs_sc : (s.setShiftRegs r).sc = s.sc := rfl
@[simp] theorem State.setShiftRegs_ss1 : (s.setShiftRegs r).ss1 = s.ss1 := rfl
@[simp] theorem State.setShiftRegs_ss2 : (s.setShiftRegs r).ss2 = s.ss2 := rfl
@[simp] theorem State.setShiftRegs_ss3 : (s.setShiftRegs r).ss3 = s.ss3 := rfl
@[simp] theorem State.setShiftRegs_ss4 : (s.setShiftRegs r).ss4 = s.ss4 := rfl
@[simp] theorem State.setShiftRegs_intReq : (s.setShiftRegs r).intReq = s.intReq := rfl
@[simp] theorem State.setShiftRegs_intOn : (s.setShiftRegs r).intOn = s.intOn := rfl
@[simp] theorem State.setShiftRegs_intNodef : (s.setShiftRegs r).intNodef = s.intNodef := rfl
@[simp] theorem State.setShiftRegs_intStart : (s.setShiftRegs r).intStart = s.intStart := rfl
@[simp] theorem State.setShiftRegs_intEnb : (s.setShiftRegs r).intEnb = s.intEnb := rfl
@[simp] theorem State.setShiftRegs_xintReq : (s.setShiftRegs r).xintReq = s.xintReq := rfl
@[simp] theorem State.setShiftRegs_xintEnb : (s.setShiftRegs r).xintEnb = s.xintEnb := rfl
@[simp] theorem State.setShiftRegs_dma : (s.setShiftRegs r).dma = s.dma := rfl
@[simp] theorem State.setShiftRegs_chanReq : (s.setShiftRegs r).chanReq = s.chanReq := rfl
@[simp] theorem State.setShiftRegs_run : (s.setShiftRegs r).run = s.run := rfl
@[simp] theorem State.setShiftRegs_mem : (s.setShiftRegs r).mem = s.mem := rfl
@[simp] theorem State.setShiftRegs_cfg : (s.setShiftRegs r).cfg = s.cfg := rfl
@[simp] theorem State.setShiftRegs_deviceAnswers : (s.setShiftRegs r).deviceAnswers = s.deviceAnswers := rfl
@[simp] theorem State.setShiftRegs_deviceCalls : (s.setShiftRegs r).deviceCalls = s.deviceCalls := rfl
@[simp] theorem State.setShiftRegs_draws : (s.setShiftRegs r).draws = s.draws := rfl

end SetShiftRegs

section ClearAr

variable (s : State) (k : Bool)

@[simp] theorem State.clearAr_ar : (s.clearAr k).ar = (if k then 0 else s.ar) := rfl
@[simp] theorem State.clearAr_br : (s.clearAr k).br = s.br := rfl
@[simp] theorem State.clearAr_pc : (s.clearAr k).pc = s.pc := rfl
@[simp] theorem State.clearAr_c : (s.clearAr k).c = s.c := rfl
@[simp] theorem State.clearAr_ext : (s.clearAr k).ext = s.ext := rfl
@[simp] theorem State.clearAr_extoff : (s.clearAr k).extoff = s.extoff := rfl
@[simp] theorem State.clearAr_pme : (s.clearAr k).pme = s.pme := rfl
@[simp] theorem State.clearAr_dp : (s.clearAr k).dp = s.dp := rfl
@[simp] theorem State.clearAr_sc : (s.clearAr k).sc = s.sc := rfl
@[simp] theorem State.clearAr_ss1 : (s.clearAr k).ss1 = s.ss1 := rfl
@[simp] theorem State.clearAr_ss2 : (s.clearAr k).ss2 = s.ss2 := rfl
@[simp] theorem State.clearAr_ss3 : (s.clearAr k).ss3 = s.ss3 := rfl
@[simp] theorem State.clearAr_ss4 : (s.clearAr k).ss4 = s.ss4 := rfl
@[simp] theorem State.clearAr_intReq : (s.clearAr k).intReq = s.intReq := rfl
@[simp] theorem State.clearAr_intOn : (s.clearAr k).intOn = s.intOn := rfl
@[simp] theorem State.clearAr_intNodef : (s.clearAr k).intNodef = s.intNodef := rfl
@[simp] theorem State.clearAr_intStart : (s.clearAr k).intStart = s.intStart := rfl
@[simp] theorem State.clearAr_intEnb : (s.clearAr k).intEnb = s.intEnb := rfl
@[simp] theorem State.clearAr_xintReq : (s.clearAr k).xintReq = s.xintReq := rfl
@[simp] theorem State.clearAr_xintEnb : (s.clearAr k).xintEnb = s.xintEnb := rfl
@[simp] theorem State.clearAr_dma : (s.clearAr k).dma = s.dma := rfl
@[simp] theorem State.clearAr_chanReq : (s.clearAr k).chanReq = s.chanReq := rfl
@[simp] theorem State.clearAr_run : (s.clearAr k).run = s.run := rfl
@[simp] theorem State.clearAr_mem : (s.clearAr k).mem = s.mem := rfl
@[simp] theorem State.clearAr_cfg : (s.clearAr k).cfg = s.cfg := rfl
@[simp] theorem State.clearAr_deviceAnswers : (s.clearAr k).deviceAnswers = s.deviceAnswers := rfl
@[simp] theorem State.clearAr_deviceCalls : (s.clearAr k).deviceCalls = s.deviceCalls := rfl
@[simp] theorem State.clearAr_draws : (s.clearAr k).draws = s.draws := rfl

end ClearAr

section SetMask

variable (s : State) (v : Word)

@[simp] theorem State.setMask_ar : (s.setMask v).ar = s.ar := rfl
@[simp] theorem State.setMask_br : (s.setMask v).br = s.br := rfl
@[simp] theorem State.setMask_pc : (s.setMask v).pc = s.pc := rfl
@[simp] theorem State.setMask_c : (s.setMask v).c = s.c := rfl
@[simp] theorem State.setMask_ext : (s.setMask v).ext = s.ext := rfl
@[simp] theorem State.setMask_extoff : (s.setMask v).extoff = s.extoff := rfl
@[simp] theorem State.setMask_pme : (s.setMask v).pme = s.pme := rfl
@[simp] theorem State.setMask_dp : (s.setMask v).dp = s.dp := rfl
@[simp] theorem State.setMask_sc : (s.setMask v).sc = s.sc := rfl
@[simp] theorem State.setMask_ss1 : (s.setMask v).ss1 = s.ss1 := rfl
@[simp] theorem State.setMask_ss2 : (s.setMask v).ss2 = s.ss2 := rfl
@[simp] theorem State.setMask_ss3 : (s.setMask v).ss3 = s.ss3 := rfl
@[simp] theorem State.setMask_ss4 : (s.setMask v).ss4 = s.ss4 := rfl
@[simp] theorem State.setMask_intReq : (s.setMask v).intReq = s.intReq := rfl
@[simp] theorem State.setMask_intOn : (s.setMask v).intOn = s.intOn := rfl
@[simp] theorem State.setMask_intNodef : (s.setMask v).intNodef = s.intNodef := rfl
@[simp] theorem State.setMask_intStart : (s.setMask v).intStart = s.intStart := rfl
@[simp] theorem State.setMask_intEnb : (s.setMask v).intEnb = (v) := rfl
@[simp] theorem State.setMask_xintReq : (s.setMask v).xintReq = s.xintReq := rfl
@[simp] theorem State.setMask_xintEnb : (s.setMask v).xintEnb = s.xintEnb := rfl
@[simp] theorem State.setMask_dma : (s.setMask v).dma = s.dma := rfl
@[simp] theorem State.setMask_chanReq : (s.setMask v).chanReq = s.chanReq := rfl
@[simp] theorem State.setMask_run : (s.setMask v).run = s.run := rfl
@[simp] theorem State.setMask_mem : (s.setMask v).mem = s.mem := rfl
@[simp] theorem State.setMask_cfg : (s.setMask v).cfg = s.cfg := rfl
@[simp] theorem State.setMask_deviceAnswers : (s.setMask v).deviceAnswers = s.deviceAnswers := rfl
@[simp] theorem State.setMask_deviceCalls : (s.setMask v).deviceCalls = s.deviceCalls := rfl
@[simp] theorem State.setMask_draws : (s.setMask v).draws = s.draws := rfl

end SetMask

section SetKeys

variable (s : State) (v : Word)

@[simp] theorem State.setKeys_ar : (s.setKeys v).ar = s.ar := rfl
@[simp] theorem State.setKeys_br : (s.setKeys v).br = s.br := rfl
@[simp] theorem State.setKeys_pc : (s.setKeys v).pc = s.pc := rfl
@[simp] theorem State.setKeys_c : (s.setKeys v).c = (v.getLsbD 15) := rfl
@[simp] theorem State.setKeys_ext : (s.setKeys v).ext = (if s.cfg.optExt then s.ext || v.getLsbD 13 else s.ext) := rfl
@[simp] theorem State.setKeys_extoff :
    (s.setKeys v).extoff =
    (if s.cfg.optExt then !v.getLsbD 13 else s.extoff) := rfl
@[simp] theorem State.setKeys_pme : (s.setKeys v).pme = s.pme := rfl
@[simp] theorem State.setKeys_dp : (s.setKeys v).dp = (if s.cfg.optHsa then v.getLsbD 14 else s.dp) := rfl
@[simp] theorem State.setKeys_sc : (s.setKeys v).sc = ((v.extractLsb' 0 5).setWidth 6) := rfl
@[simp] theorem State.setKeys_ss1 : (s.setKeys v).ss1 = s.ss1 := rfl
@[simp] theorem State.setKeys_ss2 : (s.setKeys v).ss2 = s.ss2 := rfl
@[simp] theorem State.setKeys_ss3 : (s.setKeys v).ss3 = s.ss3 := rfl
@[simp] theorem State.setKeys_ss4 : (s.setKeys v).ss4 = s.ss4 := rfl
@[simp] theorem State.setKeys_intReq : (s.setKeys v).intReq = s.intReq := rfl
@[simp] theorem State.setKeys_intOn : (s.setKeys v).intOn = s.intOn := rfl
@[simp] theorem State.setKeys_intNodef : (s.setKeys v).intNodef = s.intNodef := rfl
@[simp] theorem State.setKeys_intStart : (s.setKeys v).intStart = s.intStart := rfl
@[simp] theorem State.setKeys_intEnb : (s.setKeys v).intEnb = s.intEnb := rfl
@[simp] theorem State.setKeys_xintReq : (s.setKeys v).xintReq = s.xintReq := rfl
@[simp] theorem State.setKeys_xintEnb : (s.setKeys v).xintEnb = s.xintEnb := rfl
@[simp] theorem State.setKeys_dma : (s.setKeys v).dma = s.dma := rfl
@[simp] theorem State.setKeys_chanReq : (s.setKeys v).chanReq = s.chanReq := rfl
@[simp] theorem State.setKeys_run : (s.setKeys v).run = s.run := rfl
@[simp] theorem State.setKeys_mem : (s.setKeys v).mem = s.mem := rfl
@[simp] theorem State.setKeys_cfg : (s.setKeys v).cfg = s.cfg := rfl
@[simp] theorem State.setKeys_deviceAnswers : (s.setKeys v).deviceAnswers = s.deviceAnswers := rfl
@[simp] theorem State.setKeys_deviceCalls : (s.setKeys v).deviceCalls = s.deviceCalls := rfl
@[simp] theorem State.setKeys_draws : (s.setKeys v).draws = s.draws := rfl

end SetKeys

section ChangeRequests

variable (s : State) (dev : DevNum) (r : RequestChange)

@[simp] theorem State.changeRequests_ar : (s.changeRequests dev r).ar = s.ar := rfl
@[simp] theorem State.changeRequests_br : (s.changeRequests dev r).br = s.br := rfl
@[simp] theorem State.changeRequests_pc : (s.changeRequests dev r).pc = s.pc := rfl
@[simp] theorem State.changeRequests_c : (s.changeRequests dev r).c = s.c := rfl
@[simp] theorem State.changeRequests_ext : (s.changeRequests dev r).ext = s.ext := rfl
@[simp] theorem State.changeRequests_extoff : (s.changeRequests dev r).extoff = s.extoff := rfl
@[simp] theorem State.changeRequests_pme : (s.changeRequests dev r).pme = s.pme := rfl
@[simp] theorem State.changeRequests_dp : (s.changeRequests dev r).dp = s.dp := rfl
@[simp] theorem State.changeRequests_sc : (s.changeRequests dev r).sc = s.sc := rfl
@[simp] theorem State.changeRequests_ss1 : (s.changeRequests dev r).ss1 = s.ss1 := rfl
@[simp] theorem State.changeRequests_ss2 : (s.changeRequests dev r).ss2 = s.ss2 := rfl
@[simp] theorem State.changeRequests_ss3 : (s.changeRequests dev r).ss3 = s.ss3 := rfl
@[simp] theorem State.changeRequests_ss4 : (s.changeRequests dev r).ss4 = s.ss4 := rfl
@[simp] theorem State.changeRequests_intReq :
    (s.changeRequests dev r).intReq =
    ((s.intReq &&& ~~~r.intClear) ||| r.intSet) := rfl
@[simp] theorem State.changeRequests_intOn : (s.changeRequests dev r).intOn = s.intOn := rfl
@[simp] theorem State.changeRequests_intNodef : (s.changeRequests dev r).intNodef = s.intNodef := rfl
@[simp] theorem State.changeRequests_intStart : (s.changeRequests dev r).intStart = s.intStart := rfl
@[simp] theorem State.changeRequests_intEnb : (s.changeRequests dev r).intEnb = s.intEnb := rfl
@[simp] theorem State.changeRequests_xintReq :
    (s.changeRequests dev r).xintReq =
    ((s.xintReq &&& ~~~r.xintClear) ||| (r.xintSet &&& lineMask s.cfg.nXint)) := rfl
@[simp] theorem State.changeRequests_xintEnb : (s.changeRequests dev r).xintEnb = s.xintEnb := rfl
@[simp] theorem State.changeRequests_dma : (s.changeRequests dev r).dma = s.dma := rfl
@[simp] theorem State.changeRequests_chanReq :
    (s.changeRequests dev r).chanReq =
    ((s.chanReq &&& ~~~(r.chanClear &&& (ownedMask s.cfg dev &&& channelMask s.cfg)))
      ||| (r.chanSet &&& (ownedMask s.cfg dev &&& channelMask s.cfg))) := rfl
@[simp] theorem State.changeRequests_run : (s.changeRequests dev r).run = s.run := rfl
@[simp] theorem State.changeRequests_mem : (s.changeRequests dev r).mem = s.mem := rfl
@[simp] theorem State.changeRequests_cfg : (s.changeRequests dev r).cfg = s.cfg := rfl
@[simp] theorem State.changeRequests_deviceAnswers : (s.changeRequests dev r).deviceAnswers = s.deviceAnswers := rfl
@[simp] theorem State.changeRequests_deviceCalls : (s.changeRequests dev r).deviceCalls = s.deviceCalls := rfl
@[simp] theorem State.changeRequests_draws : (s.changeRequests dev r).draws = s.draws := rfl

end ChangeRequests

section ClearStart

variable (s : State)

@[simp] theorem State.clearStart_ar : (s.clearStart).ar = s.ar := rfl
@[simp] theorem State.clearStart_br : (s.clearStart).br = s.br := rfl
@[simp] theorem State.clearStart_pc : (s.clearStart).pc = s.pc := rfl
@[simp] theorem State.clearStart_c : (s.clearStart).c = s.c := rfl
@[simp] theorem State.clearStart_ext : (s.clearStart).ext = s.ext := rfl
@[simp] theorem State.clearStart_extoff : (s.clearStart).extoff = s.extoff := rfl
@[simp] theorem State.clearStart_pme : (s.clearStart).pme = s.pme := rfl
@[simp] theorem State.clearStart_dp : (s.clearStart).dp = s.dp := rfl
@[simp] theorem State.clearStart_sc : (s.clearStart).sc = s.sc := rfl
@[simp] theorem State.clearStart_ss1 : (s.clearStart).ss1 = s.ss1 := rfl
@[simp] theorem State.clearStart_ss2 : (s.clearStart).ss2 = s.ss2 := rfl
@[simp] theorem State.clearStart_ss3 : (s.clearStart).ss3 = s.ss3 := rfl
@[simp] theorem State.clearStart_ss4 : (s.clearStart).ss4 = s.ss4 := rfl
@[simp] theorem State.clearStart_intReq : (s.clearStart).intReq = s.intReq := rfl
@[simp] theorem State.clearStart_intOn : (s.clearStart).intOn = s.intOn := rfl
@[simp] theorem State.clearStart_intNodef : (s.clearStart).intNodef = s.intNodef := rfl
@[simp] theorem State.clearStart_intStart : (s.clearStart).intStart = (false) := rfl
@[simp] theorem State.clearStart_intEnb : (s.clearStart).intEnb = s.intEnb := rfl
@[simp] theorem State.clearStart_xintReq : (s.clearStart).xintReq = s.xintReq := rfl
@[simp] theorem State.clearStart_xintEnb : (s.clearStart).xintEnb = s.xintEnb := rfl
@[simp] theorem State.clearStart_dma : (s.clearStart).dma = s.dma := rfl
@[simp] theorem State.clearStart_chanReq : (s.clearStart).chanReq = s.chanReq := rfl
@[simp] theorem State.clearStart_run : (s.clearStart).run = s.run := rfl
@[simp] theorem State.clearStart_mem : (s.clearStart).mem = s.mem := rfl
@[simp] theorem State.clearStart_cfg : (s.clearStart).cfg = s.cfg := rfl
@[simp] theorem State.clearStart_deviceAnswers : (s.clearStart).deviceAnswers = s.deviceAnswers := rfl
@[simp] theorem State.clearStart_deviceCalls : (s.clearStart).deviceCalls = s.deviceCalls := rfl
@[simp] theorem State.clearStart_draws : (s.clearStart).draws = s.draws := rfl

end ClearStart

section ClearLine

variable (s : State) (i : Fin 16)

@[simp] theorem State.clearLine_ar : (s.clearLine i).ar = s.ar := rfl
@[simp] theorem State.clearLine_br : (s.clearLine i).br = s.br := rfl
@[simp] theorem State.clearLine_pc : (s.clearLine i).pc = s.pc := rfl
@[simp] theorem State.clearLine_c : (s.clearLine i).c = s.c := rfl
@[simp] theorem State.clearLine_ext : (s.clearLine i).ext = s.ext := rfl
@[simp] theorem State.clearLine_extoff : (s.clearLine i).extoff = s.extoff := rfl
@[simp] theorem State.clearLine_pme : (s.clearLine i).pme = s.pme := rfl
@[simp] theorem State.clearLine_dp : (s.clearLine i).dp = s.dp := rfl
@[simp] theorem State.clearLine_sc : (s.clearLine i).sc = s.sc := rfl
@[simp] theorem State.clearLine_ss1 : (s.clearLine i).ss1 = s.ss1 := rfl
@[simp] theorem State.clearLine_ss2 : (s.clearLine i).ss2 = s.ss2 := rfl
@[simp] theorem State.clearLine_ss3 : (s.clearLine i).ss3 = s.ss3 := rfl
@[simp] theorem State.clearLine_ss4 : (s.clearLine i).ss4 = s.ss4 := rfl
@[simp] theorem State.clearLine_intReq : (s.clearLine i).intReq = s.intReq := rfl
@[simp] theorem State.clearLine_intOn : (s.clearLine i).intOn = s.intOn := rfl
@[simp] theorem State.clearLine_intNodef : (s.clearLine i).intNodef = s.intNodef := rfl
@[simp] theorem State.clearLine_intStart : (s.clearLine i).intStart = s.intStart := rfl
@[simp] theorem State.clearLine_intEnb : (s.clearLine i).intEnb = s.intEnb := rfl
@[simp] theorem State.clearLine_xintReq : (s.clearLine i).xintReq = (s.xintReq &&& ~~~(1#16 <<< i.val)) := rfl
@[simp] theorem State.clearLine_xintEnb : (s.clearLine i).xintEnb = s.xintEnb := rfl
@[simp] theorem State.clearLine_dma : (s.clearLine i).dma = s.dma := rfl
@[simp] theorem State.clearLine_chanReq : (s.clearLine i).chanReq = s.chanReq := rfl
@[simp] theorem State.clearLine_run : (s.clearLine i).run = s.run := rfl
@[simp] theorem State.clearLine_mem : (s.clearLine i).mem = s.mem := rfl
@[simp] theorem State.clearLine_cfg : (s.clearLine i).cfg = s.cfg := rfl
@[simp] theorem State.clearLine_deviceAnswers : (s.clearLine i).deviceAnswers = s.deviceAnswers := rfl
@[simp] theorem State.clearLine_deviceCalls : (s.clearLine i).deviceCalls = s.deviceCalls := rfl
@[simp] theorem State.clearLine_draws : (s.clearLine i).draws = s.draws := rfl

end ClearLine

section ClearChannel

variable (s : State) (i : Fin 20)

@[simp] theorem State.clearChannel_ar : (s.clearChannel i).ar = s.ar := rfl
@[simp] theorem State.clearChannel_br : (s.clearChannel i).br = s.br := rfl
@[simp] theorem State.clearChannel_pc : (s.clearChannel i).pc = s.pc := rfl
@[simp] theorem State.clearChannel_c : (s.clearChannel i).c = s.c := rfl
@[simp] theorem State.clearChannel_ext : (s.clearChannel i).ext = s.ext := rfl
@[simp] theorem State.clearChannel_extoff : (s.clearChannel i).extoff = s.extoff := rfl
@[simp] theorem State.clearChannel_pme : (s.clearChannel i).pme = s.pme := rfl
@[simp] theorem State.clearChannel_dp : (s.clearChannel i).dp = s.dp := rfl
@[simp] theorem State.clearChannel_sc : (s.clearChannel i).sc = s.sc := rfl
@[simp] theorem State.clearChannel_ss1 : (s.clearChannel i).ss1 = s.ss1 := rfl
@[simp] theorem State.clearChannel_ss2 : (s.clearChannel i).ss2 = s.ss2 := rfl
@[simp] theorem State.clearChannel_ss3 : (s.clearChannel i).ss3 = s.ss3 := rfl
@[simp] theorem State.clearChannel_ss4 : (s.clearChannel i).ss4 = s.ss4 := rfl
@[simp] theorem State.clearChannel_intReq : (s.clearChannel i).intReq = s.intReq := rfl
@[simp] theorem State.clearChannel_intOn : (s.clearChannel i).intOn = s.intOn := rfl
@[simp] theorem State.clearChannel_intNodef : (s.clearChannel i).intNodef = s.intNodef := rfl
@[simp] theorem State.clearChannel_intStart : (s.clearChannel i).intStart = s.intStart := rfl
@[simp] theorem State.clearChannel_intEnb : (s.clearChannel i).intEnb = s.intEnb := rfl
@[simp] theorem State.clearChannel_xintReq : (s.clearChannel i).xintReq = s.xintReq := rfl
@[simp] theorem State.clearChannel_xintEnb : (s.clearChannel i).xintEnb = s.xintEnb := rfl
@[simp] theorem State.clearChannel_dma : (s.clearChannel i).dma = s.dma := rfl
@[simp] theorem State.clearChannel_chanReq : (s.clearChannel i).chanReq = (s.chanReq &&& ~~~(1#20 <<< i.val)) := rfl
@[simp] theorem State.clearChannel_run : (s.clearChannel i).run = s.run := rfl
@[simp] theorem State.clearChannel_mem : (s.clearChannel i).mem = s.mem := rfl
@[simp] theorem State.clearChannel_cfg : (s.clearChannel i).cfg = s.cfg := rfl
@[simp] theorem State.clearChannel_deviceAnswers : (s.clearChannel i).deviceAnswers = s.deviceAnswers := rfl
@[simp] theorem State.clearChannel_deviceCalls : (s.clearChannel i).deviceCalls = s.deviceCalls := rfl
@[simp] theorem State.clearChannel_draws : (s.clearChannel i).draws = s.draws := rfl

end ClearChannel

section Fetched

variable (s : State)

@[simp] theorem State.fetched_ar : (s.fetched).ar = s.ar := rfl
@[simp] theorem State.fetched_br : (s.fetched).br = s.br := rfl
@[simp] theorem State.fetched_pc : (s.fetched).pc = (s.skip.pc) := rfl
@[simp] theorem State.fetched_c : (s.fetched).c = s.c := rfl
@[simp] theorem State.fetched_ext : (s.fetched).ext = s.ext := rfl
@[simp] theorem State.fetched_extoff : (s.fetched).extoff = s.extoff := rfl
@[simp] theorem State.fetched_pme : (s.fetched).pme = s.pme := rfl
@[simp] theorem State.fetched_dp : (s.fetched).dp = s.dp := rfl
@[simp] theorem State.fetched_sc : (s.fetched).sc = s.sc := rfl
@[simp] theorem State.fetched_ss1 : (s.fetched).ss1 = s.ss1 := rfl
@[simp] theorem State.fetched_ss2 : (s.fetched).ss2 = s.ss2 := rfl
@[simp] theorem State.fetched_ss3 : (s.fetched).ss3 = s.ss3 := rfl
@[simp] theorem State.fetched_ss4 : (s.fetched).ss4 = s.ss4 := rfl
@[simp] theorem State.fetched_intReq : (s.fetched).intReq = s.intReq := rfl
@[simp] theorem State.fetched_intOn : (s.fetched).intOn = s.intOn := rfl
@[simp] theorem State.fetched_intNodef : (s.fetched).intNodef = (true) := rfl
@[simp] theorem State.fetched_intStart : (s.fetched).intStart = s.intStart := rfl
@[simp] theorem State.fetched_intEnb : (s.fetched).intEnb = s.intEnb := rfl
@[simp] theorem State.fetched_xintReq : (s.fetched).xintReq = s.xintReq := rfl
@[simp] theorem State.fetched_xintEnb : (s.fetched).xintEnb = s.xintEnb := rfl
@[simp] theorem State.fetched_dma : (s.fetched).dma = s.dma := rfl
@[simp] theorem State.fetched_chanReq : (s.fetched).chanReq = s.chanReq := rfl
@[simp] theorem State.fetched_run : (s.fetched).run = s.run := rfl
@[simp] theorem State.fetched_mem : (s.fetched).mem = s.mem := rfl
@[simp] theorem State.fetched_cfg : (s.fetched).cfg = s.cfg := rfl
@[simp] theorem State.fetched_deviceAnswers : (s.fetched).deviceAnswers = s.deviceAnswers := rfl
@[simp] theorem State.fetched_deviceCalls : (s.fetched).deviceCalls = s.deviceCalls := rfl
@[simp] theorem State.fetched_draws : (s.fetched).draws = s.draws := rfl

end Fetched

section SetPrecision

variable (b : Bool) (s : State)

@[simp] theorem State.setPrecision_ar : (s.setPrecision b).ar = s.ar := rfl
@[simp] theorem State.setPrecision_br : (s.setPrecision b).br = s.br := rfl
@[simp] theorem State.setPrecision_pc : (s.setPrecision b).pc = s.pc := rfl
@[simp] theorem State.setPrecision_c : (s.setPrecision b).c = s.c := rfl
@[simp] theorem State.setPrecision_ext : (s.setPrecision b).ext = s.ext := rfl
@[simp] theorem State.setPrecision_extoff : (s.setPrecision b).extoff = s.extoff := rfl
@[simp] theorem State.setPrecision_pme : (s.setPrecision b).pme = s.pme := rfl
@[simp] theorem State.setPrecision_dp : (s.setPrecision b).dp = (b) := rfl
@[simp] theorem State.setPrecision_sc : (s.setPrecision b).sc = s.sc := rfl
@[simp] theorem State.setPrecision_ss1 : (s.setPrecision b).ss1 = s.ss1 := rfl
@[simp] theorem State.setPrecision_ss2 : (s.setPrecision b).ss2 = s.ss2 := rfl
@[simp] theorem State.setPrecision_ss3 : (s.setPrecision b).ss3 = s.ss3 := rfl
@[simp] theorem State.setPrecision_ss4 : (s.setPrecision b).ss4 = s.ss4 := rfl
@[simp] theorem State.setPrecision_intReq : (s.setPrecision b).intReq = s.intReq := rfl
@[simp] theorem State.setPrecision_intOn : (s.setPrecision b).intOn = s.intOn := rfl
@[simp] theorem State.setPrecision_intNodef : (s.setPrecision b).intNodef = s.intNodef := rfl
@[simp] theorem State.setPrecision_intStart : (s.setPrecision b).intStart = s.intStart := rfl
@[simp] theorem State.setPrecision_intEnb : (s.setPrecision b).intEnb = s.intEnb := rfl
@[simp] theorem State.setPrecision_xintReq : (s.setPrecision b).xintReq = s.xintReq := rfl
@[simp] theorem State.setPrecision_xintEnb : (s.setPrecision b).xintEnb = s.xintEnb := rfl
@[simp] theorem State.setPrecision_dma : (s.setPrecision b).dma = s.dma := rfl
@[simp] theorem State.setPrecision_chanReq : (s.setPrecision b).chanReq = s.chanReq := rfl
@[simp] theorem State.setPrecision_run : (s.setPrecision b).run = s.run := rfl
@[simp] theorem State.setPrecision_mem : (s.setPrecision b).mem = s.mem := rfl
@[simp] theorem State.setPrecision_cfg : (s.setPrecision b).cfg = s.cfg := rfl
@[simp] theorem State.setPrecision_deviceAnswers : (s.setPrecision b).deviceAnswers = s.deviceAnswers := rfl
@[simp] theorem State.setPrecision_deviceCalls : (s.setPrecision b).deviceCalls = s.deviceCalls := rfl
@[simp] theorem State.setPrecision_draws : (s.setPrecision b).draws = s.draws := rfl

end SetPrecision

section SetExtend

variable (b : Bool) (s : State)

@[simp] theorem State.setExtend_ar : (s.setExtend b).ar = s.ar := rfl
@[simp] theorem State.setExtend_br : (s.setExtend b).br = s.br := rfl
@[simp] theorem State.setExtend_pc : (s.setExtend b).pc = s.pc := rfl
@[simp] theorem State.setExtend_c : (s.setExtend b).c = s.c := rfl
@[simp] theorem State.setExtend_ext : (s.setExtend b).ext = (s.ext || b) := rfl
@[simp] theorem State.setExtend_extoff : (s.setExtend b).extoff = (!b) := rfl
@[simp] theorem State.setExtend_pme : (s.setExtend b).pme = s.pme := rfl
@[simp] theorem State.setExtend_dp : (s.setExtend b).dp = s.dp := rfl
@[simp] theorem State.setExtend_sc : (s.setExtend b).sc = s.sc := rfl
@[simp] theorem State.setExtend_ss1 : (s.setExtend b).ss1 = s.ss1 := rfl
@[simp] theorem State.setExtend_ss2 : (s.setExtend b).ss2 = s.ss2 := rfl
@[simp] theorem State.setExtend_ss3 : (s.setExtend b).ss3 = s.ss3 := rfl
@[simp] theorem State.setExtend_ss4 : (s.setExtend b).ss4 = s.ss4 := rfl
@[simp] theorem State.setExtend_intReq : (s.setExtend b).intReq = s.intReq := rfl
@[simp] theorem State.setExtend_intOn : (s.setExtend b).intOn = s.intOn := rfl
@[simp] theorem State.setExtend_intNodef : (s.setExtend b).intNodef = s.intNodef := rfl
@[simp] theorem State.setExtend_intStart : (s.setExtend b).intStart = s.intStart := rfl
@[simp] theorem State.setExtend_intEnb : (s.setExtend b).intEnb = s.intEnb := rfl
@[simp] theorem State.setExtend_xintReq : (s.setExtend b).xintReq = s.xintReq := rfl
@[simp] theorem State.setExtend_xintEnb : (s.setExtend b).xintEnb = s.xintEnb := rfl
@[simp] theorem State.setExtend_dma : (s.setExtend b).dma = s.dma := rfl
@[simp] theorem State.setExtend_chanReq : (s.setExtend b).chanReq = s.chanReq := rfl
@[simp] theorem State.setExtend_run : (s.setExtend b).run = s.run := rfl
@[simp] theorem State.setExtend_mem : (s.setExtend b).mem = s.mem := rfl
@[simp] theorem State.setExtend_cfg : (s.setExtend b).cfg = s.cfg := rfl
@[simp] theorem State.setExtend_deviceAnswers : (s.setExtend b).deviceAnswers = s.deviceAnswers := rfl
@[simp] theorem State.setExtend_deviceCalls : (s.setExtend b).deviceCalls = s.deviceCalls := rfl
@[simp] theorem State.setExtend_draws : (s.setExtend b).draws = s.draws := rfl

end SetExtend

section ClearParity

variable (s : State)

@[simp] theorem State.clearParity_ar : (s.clearParity).ar = s.ar := rfl
@[simp] theorem State.clearParity_br : (s.clearParity).br = s.br := rfl
@[simp] theorem State.clearParity_pc : (s.clearParity).pc = s.pc := rfl
@[simp] theorem State.clearParity_c : (s.clearParity).c = s.c := rfl
@[simp] theorem State.clearParity_ext : (s.clearParity).ext = s.ext := rfl
@[simp] theorem State.clearParity_extoff : (s.clearParity).extoff = s.extoff := rfl
@[simp] theorem State.clearParity_pme : (s.clearParity).pme = s.pme := rfl
@[simp] theorem State.clearParity_dp : (s.clearParity).dp = s.dp := rfl
@[simp] theorem State.clearParity_sc : (s.clearParity).sc = s.sc := rfl
@[simp] theorem State.clearParity_ss1 : (s.clearParity).ss1 = s.ss1 := rfl
@[simp] theorem State.clearParity_ss2 : (s.clearParity).ss2 = s.ss2 := rfl
@[simp] theorem State.clearParity_ss3 : (s.clearParity).ss3 = s.ss3 := rfl
@[simp] theorem State.clearParity_ss4 : (s.clearParity).ss4 = s.ss4 := rfl
@[simp] theorem State.clearParity_intReq :
    (s.clearParity).intReq =
    (s.intReq &&& ~~~(1#16 <<< s.cfg.lineMpe.val)) := rfl
@[simp] theorem State.clearParity_intOn : (s.clearParity).intOn = s.intOn := rfl
@[simp] theorem State.clearParity_intNodef : (s.clearParity).intNodef = s.intNodef := rfl
@[simp] theorem State.clearParity_intStart : (s.clearParity).intStart = s.intStart := rfl
@[simp] theorem State.clearParity_intEnb : (s.clearParity).intEnb = s.intEnb := rfl
@[simp] theorem State.clearParity_xintReq : (s.clearParity).xintReq = s.xintReq := rfl
@[simp] theorem State.clearParity_xintEnb : (s.clearParity).xintEnb = s.xintEnb := rfl
@[simp] theorem State.clearParity_dma : (s.clearParity).dma = s.dma := rfl
@[simp] theorem State.clearParity_chanReq : (s.clearParity).chanReq = s.chanReq := rfl
@[simp] theorem State.clearParity_run : (s.clearParity).run = s.run := rfl
@[simp] theorem State.clearParity_mem : (s.clearParity).mem = s.mem := rfl
@[simp] theorem State.clearParity_cfg : (s.clearParity).cfg = s.cfg := rfl
@[simp] theorem State.clearParity_deviceAnswers : (s.clearParity).deviceAnswers = s.deviceAnswers := rfl
@[simp] theorem State.clearParity_deviceCalls : (s.clearParity).deviceCalls = s.deviceCalls := rfl
@[simp] theorem State.clearParity_draws : (s.clearParity).draws = s.draws := rfl

end ClearParity

section ReadShiftCount

variable (s : State)

@[simp] theorem State.readShiftCount_ar : (s.readShiftCount).ar = ((s.sc.extractLsb' 0 5).setWidth 16) := rfl
@[simp] theorem State.readShiftCount_br : (s.readShiftCount).br = s.br := rfl
@[simp] theorem State.readShiftCount_pc : (s.readShiftCount).pc = s.pc := rfl
@[simp] theorem State.readShiftCount_c : (s.readShiftCount).c = s.c := rfl
@[simp] theorem State.readShiftCount_ext : (s.readShiftCount).ext = s.ext := rfl
@[simp] theorem State.readShiftCount_extoff : (s.readShiftCount).extoff = s.extoff := rfl
@[simp] theorem State.readShiftCount_pme : (s.readShiftCount).pme = s.pme := rfl
@[simp] theorem State.readShiftCount_dp : (s.readShiftCount).dp = s.dp := rfl
@[simp] theorem State.readShiftCount_sc : (s.readShiftCount).sc = s.sc := rfl
@[simp] theorem State.readShiftCount_ss1 : (s.readShiftCount).ss1 = s.ss1 := rfl
@[simp] theorem State.readShiftCount_ss2 : (s.readShiftCount).ss2 = s.ss2 := rfl
@[simp] theorem State.readShiftCount_ss3 : (s.readShiftCount).ss3 = s.ss3 := rfl
@[simp] theorem State.readShiftCount_ss4 : (s.readShiftCount).ss4 = s.ss4 := rfl
@[simp] theorem State.readShiftCount_intReq : (s.readShiftCount).intReq = s.intReq := rfl
@[simp] theorem State.readShiftCount_intOn : (s.readShiftCount).intOn = s.intOn := rfl
@[simp] theorem State.readShiftCount_intNodef : (s.readShiftCount).intNodef = s.intNodef := rfl
@[simp] theorem State.readShiftCount_intStart : (s.readShiftCount).intStart = s.intStart := rfl
@[simp] theorem State.readShiftCount_intEnb : (s.readShiftCount).intEnb = s.intEnb := rfl
@[simp] theorem State.readShiftCount_xintReq : (s.readShiftCount).xintReq = s.xintReq := rfl
@[simp] theorem State.readShiftCount_xintEnb : (s.readShiftCount).xintEnb = s.xintEnb := rfl
@[simp] theorem State.readShiftCount_dma : (s.readShiftCount).dma = s.dma := rfl
@[simp] theorem State.readShiftCount_chanReq : (s.readShiftCount).chanReq = s.chanReq := rfl
@[simp] theorem State.readShiftCount_run : (s.readShiftCount).run = s.run := rfl
@[simp] theorem State.readShiftCount_mem : (s.readShiftCount).mem = s.mem := rfl
@[simp] theorem State.readShiftCount_cfg : (s.readShiftCount).cfg = s.cfg := rfl
@[simp] theorem State.readShiftCount_deviceAnswers : (s.readShiftCount).deviceAnswers = s.deviceAnswers := rfl
@[simp] theorem State.readShiftCount_deviceCalls : (s.readShiftCount).deviceCalls = s.deviceCalls := rfl
@[simp] theorem State.readShiftCount_draws : (s.readShiftCount).draws = s.draws := rfl

end ReadShiftCount

section ReadKeys

variable (s : State)

@[simp] theorem State.readKeys_ar : (s.readKeys).ar = (s.keys) := rfl
@[simp] theorem State.readKeys_br : (s.readKeys).br = s.br := rfl
@[simp] theorem State.readKeys_pc : (s.readKeys).pc = s.pc := rfl
@[simp] theorem State.readKeys_c : (s.readKeys).c = s.c := rfl
@[simp] theorem State.readKeys_ext : (s.readKeys).ext = s.ext := rfl
@[simp] theorem State.readKeys_extoff : (s.readKeys).extoff = s.extoff := rfl
@[simp] theorem State.readKeys_pme : (s.readKeys).pme = s.pme := rfl
@[simp] theorem State.readKeys_dp : (s.readKeys).dp = s.dp := rfl
@[simp] theorem State.readKeys_sc : (s.readKeys).sc = s.sc := rfl
@[simp] theorem State.readKeys_ss1 : (s.readKeys).ss1 = s.ss1 := rfl
@[simp] theorem State.readKeys_ss2 : (s.readKeys).ss2 = s.ss2 := rfl
@[simp] theorem State.readKeys_ss3 : (s.readKeys).ss3 = s.ss3 := rfl
@[simp] theorem State.readKeys_ss4 : (s.readKeys).ss4 = s.ss4 := rfl
@[simp] theorem State.readKeys_intReq : (s.readKeys).intReq = s.intReq := rfl
@[simp] theorem State.readKeys_intOn : (s.readKeys).intOn = s.intOn := rfl
@[simp] theorem State.readKeys_intNodef : (s.readKeys).intNodef = s.intNodef := rfl
@[simp] theorem State.readKeys_intStart : (s.readKeys).intStart = s.intStart := rfl
@[simp] theorem State.readKeys_intEnb : (s.readKeys).intEnb = s.intEnb := rfl
@[simp] theorem State.readKeys_xintReq : (s.readKeys).xintReq = s.xintReq := rfl
@[simp] theorem State.readKeys_xintEnb : (s.readKeys).xintEnb = s.xintEnb := rfl
@[simp] theorem State.readKeys_dma : (s.readKeys).dma = s.dma := rfl
@[simp] theorem State.readKeys_chanReq : (s.readKeys).chanReq = s.chanReq := rfl
@[simp] theorem State.readKeys_run : (s.readKeys).run = s.run := rfl
@[simp] theorem State.readKeys_mem : (s.readKeys).mem = s.mem := rfl
@[simp] theorem State.readKeys_cfg : (s.readKeys).cfg = s.cfg := rfl
@[simp] theorem State.readKeys_deviceAnswers : (s.readKeys).deviceAnswers = s.deviceAnswers := rfl
@[simp] theorem State.readKeys_deviceCalls : (s.readKeys).deviceCalls = s.deviceCalls := rfl
@[simp] theorem State.readKeys_draws : (s.readKeys).draws = s.draws := rfl

end ReadKeys

section Normalize

variable (s : State)

@[simp] theorem State.normalize_ar : (s.normalize).ar = ((normalizeLoop 32 0 s.ar s.br).1) := rfl
@[simp] theorem State.normalize_br : (s.normalize).br = ((normalizeLoop 32 0 s.ar s.br).2.1) := rfl
@[simp] theorem State.normalize_pc : (s.normalize).pc = s.pc := rfl
@[simp] theorem State.normalize_c : (s.normalize).c = s.c := rfl
@[simp] theorem State.normalize_ext : (s.normalize).ext = s.ext := rfl
@[simp] theorem State.normalize_extoff : (s.normalize).extoff = s.extoff := rfl
@[simp] theorem State.normalize_pme : (s.normalize).pme = s.pme := rfl
@[simp] theorem State.normalize_dp : (s.normalize).dp = s.dp := rfl
@[simp] theorem State.normalize_sc :
    (s.normalize).sc =
    (BitVec.ofNat 6 ((normalizeLoop 32 0 s.ar s.br).2.2 % 32)) := rfl
@[simp] theorem State.normalize_ss1 : (s.normalize).ss1 = s.ss1 := rfl
@[simp] theorem State.normalize_ss2 : (s.normalize).ss2 = s.ss2 := rfl
@[simp] theorem State.normalize_ss3 : (s.normalize).ss3 = s.ss3 := rfl
@[simp] theorem State.normalize_ss4 : (s.normalize).ss4 = s.ss4 := rfl
@[simp] theorem State.normalize_intReq : (s.normalize).intReq = s.intReq := rfl
@[simp] theorem State.normalize_intOn : (s.normalize).intOn = s.intOn := rfl
@[simp] theorem State.normalize_intNodef : (s.normalize).intNodef = s.intNodef := rfl
@[simp] theorem State.normalize_intStart : (s.normalize).intStart = s.intStart := rfl
@[simp] theorem State.normalize_intEnb : (s.normalize).intEnb = s.intEnb := rfl
@[simp] theorem State.normalize_xintReq : (s.normalize).xintReq = s.xintReq := rfl
@[simp] theorem State.normalize_xintEnb : (s.normalize).xintEnb = s.xintEnb := rfl
@[simp] theorem State.normalize_dma : (s.normalize).dma = s.dma := rfl
@[simp] theorem State.normalize_chanReq : (s.normalize).chanReq = s.chanReq := rfl
@[simp] theorem State.normalize_run : (s.normalize).run = s.run := rfl
@[simp] theorem State.normalize_mem : (s.normalize).mem = s.mem := rfl
@[simp] theorem State.normalize_cfg : (s.normalize).cfg = s.cfg := rfl
@[simp] theorem State.normalize_deviceAnswers : (s.normalize).deviceAnswers = s.deviceAnswers := rfl
@[simp] theorem State.normalize_deviceCalls : (s.normalize).deviceCalls = s.deviceCalls := rfl
@[simp] theorem State.normalize_draws : (s.normalize).draws = s.draws := rfl

end Normalize

section Interchange

variable (s : State)

@[simp] theorem State.interchange_ar : (s.interchange).ar = (s.br) := rfl
@[simp] theorem State.interchange_br : (s.interchange).br = (s.ar) := rfl
@[simp] theorem State.interchange_pc : (s.interchange).pc = s.pc := rfl
@[simp] theorem State.interchange_c : (s.interchange).c = s.c := rfl
@[simp] theorem State.interchange_ext : (s.interchange).ext = s.ext := rfl
@[simp] theorem State.interchange_extoff : (s.interchange).extoff = s.extoff := rfl
@[simp] theorem State.interchange_pme : (s.interchange).pme = s.pme := rfl
@[simp] theorem State.interchange_dp : (s.interchange).dp = s.dp := rfl
@[simp] theorem State.interchange_sc : (s.interchange).sc = (Config.freeSc s.draws) := rfl
@[simp] theorem State.interchange_ss1 : (s.interchange).ss1 = s.ss1 := rfl
@[simp] theorem State.interchange_ss2 : (s.interchange).ss2 = s.ss2 := rfl
@[simp] theorem State.interchange_ss3 : (s.interchange).ss3 = s.ss3 := rfl
@[simp] theorem State.interchange_ss4 : (s.interchange).ss4 = s.ss4 := rfl
@[simp] theorem State.interchange_intReq : (s.interchange).intReq = s.intReq := rfl
@[simp] theorem State.interchange_intOn : (s.interchange).intOn = s.intOn := rfl
@[simp] theorem State.interchange_intNodef : (s.interchange).intNodef = s.intNodef := rfl
@[simp] theorem State.interchange_intStart : (s.interchange).intStart = s.intStart := rfl
@[simp] theorem State.interchange_intEnb : (s.interchange).intEnb = s.intEnb := rfl
@[simp] theorem State.interchange_xintReq : (s.interchange).xintReq = s.xintReq := rfl
@[simp] theorem State.interchange_xintEnb : (s.interchange).xintEnb = s.xintEnb := rfl
@[simp] theorem State.interchange_dma : (s.interchange).dma = s.dma := rfl
@[simp] theorem State.interchange_chanReq : (s.interchange).chanReq = s.chanReq := rfl
@[simp] theorem State.interchange_run : (s.interchange).run = s.run := rfl
@[simp] theorem State.interchange_mem : (s.interchange).mem = s.mem := rfl
@[simp] theorem State.interchange_cfg : (s.interchange).cfg = s.cfg := rfl
@[simp] theorem State.interchange_deviceAnswers : (s.interchange).deviceAnswers = s.deviceAnswers := rfl
@[simp] theorem State.interchange_deviceCalls : (s.interchange).deviceCalls = s.deviceCalls := rfl
@[simp] theorem State.interchange_draws : (s.interchange).draws = (s.draws + 1) := rfl

end Interchange

section Enable

variable (s : State)

@[simp] theorem State.enable_ar : (s.enable).ar = s.ar := rfl
@[simp] theorem State.enable_br : (s.enable).br = s.br := rfl
@[simp] theorem State.enable_pc : (s.enable).pc = s.pc := rfl
@[simp] theorem State.enable_c : (s.enable).c = s.c := rfl
@[simp] theorem State.enable_ext : (s.enable).ext = s.ext := rfl
@[simp] theorem State.enable_extoff : (s.enable).extoff = s.extoff := rfl
@[simp] theorem State.enable_pme : (s.enable).pme = s.pme := rfl
@[simp] theorem State.enable_dp : (s.enable).dp = s.dp := rfl
@[simp] theorem State.enable_sc : (s.enable).sc = s.sc := rfl
@[simp] theorem State.enable_ss1 : (s.enable).ss1 = s.ss1 := rfl
@[simp] theorem State.enable_ss2 : (s.enable).ss2 = s.ss2 := rfl
@[simp] theorem State.enable_ss3 : (s.enable).ss3 = s.ss3 := rfl
@[simp] theorem State.enable_ss4 : (s.enable).ss4 = s.ss4 := rfl
@[simp] theorem State.enable_intReq : (s.enable).intReq = s.intReq := rfl
@[simp] theorem State.enable_intOn : (s.enable).intOn = (true) := rfl
@[simp] theorem State.enable_intNodef : (s.enable).intNodef = (false) := rfl
@[simp] theorem State.enable_intStart : (s.enable).intStart = s.intStart := rfl
@[simp] theorem State.enable_intEnb : (s.enable).intEnb = s.intEnb := rfl
@[simp] theorem State.enable_xintReq : (s.enable).xintReq = s.xintReq := rfl
@[simp] theorem State.enable_xintEnb : (s.enable).xintEnb = s.xintEnb := rfl
@[simp] theorem State.enable_dma : (s.enable).dma = s.dma := rfl
@[simp] theorem State.enable_chanReq : (s.enable).chanReq = s.chanReq := rfl
@[simp] theorem State.enable_run : (s.enable).run = s.run := rfl
@[simp] theorem State.enable_mem : (s.enable).mem = s.mem := rfl
@[simp] theorem State.enable_cfg : (s.enable).cfg = s.cfg := rfl
@[simp] theorem State.enable_deviceAnswers : (s.enable).deviceAnswers = s.deviceAnswers := rfl
@[simp] theorem State.enable_deviceCalls : (s.enable).deviceCalls = s.deviceCalls := rfl
@[simp] theorem State.enable_draws : (s.enable).draws = s.draws := rfl

end Enable

section GateNetwork

variable (s : State) (m : BitVec 10)

@[simp] theorem State.gateNetwork_ar :
    (s.gateNetwork m).ar =
    (transferWord (Config.gateTransfer s.cfg.gateChoice m)
      (if Config.gateResultFromFedBack s.cfg.gateChoice then (phase1 s.cfg.gateChoice m s.ar).arIn else s.ar)
      (phase1 s.cfg.gateChoice m s.ar).out.d) := rfl
@[simp] theorem State.gateNetwork_br : (s.gateNetwork m).br = s.br := rfl
@[simp] theorem State.gateNetwork_pc : (s.gateNetwork m).pc = s.pc := rfl
@[simp] theorem State.gateNetwork_c :
    (s.gateNetwork m).c =
    (transferC (Config.gateTransfer s.cfg.gateChoice m) (s.c && !Config.gateClearsC s.cfg.gateChoice m)
      (phase1 s.cfg.gateChoice m s.ar).out.ovf
      ((if Config.gateTopAfterPhase1 s.cfg.gateChoice then (phase1 s.cfg.gateChoice m s.ar).arIn
        else s.ar).getLsbD 15)) := rfl
@[simp] theorem State.gateNetwork_ext : (s.gateNetwork m).ext = s.ext := rfl
@[simp] theorem State.gateNetwork_extoff : (s.gateNetwork m).extoff = s.extoff := rfl
@[simp] theorem State.gateNetwork_pme : (s.gateNetwork m).pme = s.pme := rfl
@[simp] theorem State.gateNetwork_dp : (s.gateNetwork m).dp = s.dp := rfl
@[simp] theorem State.gateNetwork_sc :
    (s.gateNetwork m).sc =
    (if (phase1 s.cfg.gateChoice m s.ar).clrSc then 0 else s.sc) := rfl
@[simp] theorem State.gateNetwork_ss1 : (s.gateNetwork m).ss1 = s.ss1 := rfl
@[simp] theorem State.gateNetwork_ss2 : (s.gateNetwork m).ss2 = s.ss2 := rfl
@[simp] theorem State.gateNetwork_ss3 : (s.gateNetwork m).ss3 = s.ss3 := rfl
@[simp] theorem State.gateNetwork_ss4 : (s.gateNetwork m).ss4 = s.ss4 := rfl
@[simp] theorem State.gateNetwork_intReq : (s.gateNetwork m).intReq = s.intReq := rfl
@[simp] theorem State.gateNetwork_intOn : (s.gateNetwork m).intOn = s.intOn := rfl
@[simp] theorem State.gateNetwork_intNodef : (s.gateNetwork m).intNodef = s.intNodef := rfl
@[simp] theorem State.gateNetwork_intStart : (s.gateNetwork m).intStart = s.intStart := rfl
@[simp] theorem State.gateNetwork_intEnb : (s.gateNetwork m).intEnb = s.intEnb := rfl
@[simp] theorem State.gateNetwork_xintReq : (s.gateNetwork m).xintReq = s.xintReq := rfl
@[simp] theorem State.gateNetwork_xintEnb : (s.gateNetwork m).xintEnb = s.xintEnb := rfl
@[simp] theorem State.gateNetwork_dma : (s.gateNetwork m).dma = s.dma := rfl
@[simp] theorem State.gateNetwork_chanReq : (s.gateNetwork m).chanReq = s.chanReq := rfl
@[simp] theorem State.gateNetwork_run : (s.gateNetwork m).run = s.run := rfl
@[simp] theorem State.gateNetwork_mem : (s.gateNetwork m).mem = s.mem := rfl
@[simp] theorem State.gateNetwork_cfg : (s.gateNetwork m).cfg = s.cfg := rfl
@[simp] theorem State.gateNetwork_deviceAnswers : (s.gateNetwork m).deviceAnswers = s.deviceAnswers := rfl
@[simp] theorem State.gateNetwork_deviceCalls : (s.gateNetwork m).deviceCalls = s.deviceCalls := rfl
@[simp] theorem State.gateNetwork_draws : (s.gateNetwork m).draws = s.draws := rfl

end GateNetwork

section Inhibit

variable (s : State)

@[simp] theorem State.inhibit_ar : (s.inhibit).ar = s.ar := rfl
@[simp] theorem State.inhibit_br : (s.inhibit).br = s.br := rfl
@[simp] theorem State.inhibit_pc : (s.inhibit).pc = s.pc := rfl
@[simp] theorem State.inhibit_c : (s.inhibit).c = s.c := rfl
@[simp] theorem State.inhibit_ext : (s.inhibit).ext = s.ext := rfl
@[simp] theorem State.inhibit_extoff : (s.inhibit).extoff = s.extoff := rfl
@[simp] theorem State.inhibit_pme : (s.inhibit).pme = s.pme := rfl
@[simp] theorem State.inhibit_dp : (s.inhibit).dp = s.dp := rfl
@[simp] theorem State.inhibit_sc : (s.inhibit).sc = s.sc := rfl
@[simp] theorem State.inhibit_ss1 : (s.inhibit).ss1 = s.ss1 := rfl
@[simp] theorem State.inhibit_ss2 : (s.inhibit).ss2 = s.ss2 := rfl
@[simp] theorem State.inhibit_ss3 : (s.inhibit).ss3 = s.ss3 := rfl
@[simp] theorem State.inhibit_ss4 : (s.inhibit).ss4 = s.ss4 := rfl
@[simp] theorem State.inhibit_intReq : (s.inhibit).intReq = s.intReq := rfl
@[simp] theorem State.inhibit_intOn : (s.inhibit).intOn = (false) := rfl
@[simp] theorem State.inhibit_intNodef : (s.inhibit).intNodef = s.intNodef := rfl
@[simp] theorem State.inhibit_intStart : (s.inhibit).intStart = s.intStart := rfl
@[simp] theorem State.inhibit_intEnb : (s.inhibit).intEnb = s.intEnb := rfl
@[simp] theorem State.inhibit_xintReq : (s.inhibit).xintReq = s.xintReq := rfl
@[simp] theorem State.inhibit_xintEnb : (s.inhibit).xintEnb = s.xintEnb := rfl
@[simp] theorem State.inhibit_dma : (s.inhibit).dma = s.dma := rfl
@[simp] theorem State.inhibit_chanReq : (s.inhibit).chanReq = s.chanReq := rfl
@[simp] theorem State.inhibit_run : (s.inhibit).run = s.run := rfl
@[simp] theorem State.inhibit_mem : (s.inhibit).mem = s.mem := rfl
@[simp] theorem State.inhibit_cfg : (s.inhibit).cfg = s.cfg := rfl
@[simp] theorem State.inhibit_deviceAnswers : (s.inhibit).deviceAnswers = s.deviceAnswers := rfl
@[simp] theorem State.inhibit_deviceCalls : (s.inhibit).deviceCalls = s.deviceCalls := rfl
@[simp] theorem State.inhibit_draws : (s.inhibit).draws = s.draws := rfl

end Inhibit

end Sys2Proof.Machine
end

