-- ==== Sys2Proof/Laws/Memory.lean ====
section
/-! SUPPORT. The laws of memory: a read after a write, what a write leaves alone, and that every memory operation keeps
the canonical form. -/

namespace Sys2Proof.Machine

/-! ## Byte cells -/

theorem Memory.readByte_erase (m : Memory) (a b : Nat) :
    (m.erase a).readByte b = if b = a then unlistedByte else m.readByte b := by
  induction m with
  | nil => simp [Memory.erase, Memory.readByte]
  | cons cell m ih =>
    obtain ⟨k, v⟩ := cell
    by_cases hk : k = a
    · subst hk
      simp only [Memory.erase, if_true, ih, Memory.readByte]
      by_cases hb : b = k
      · simp [hb]
      · simp [hb, Ne.symm hb]
    · simp only [Memory.erase, if_neg hk, Memory.readByte, ih]
      by_cases hkb : k = b
      · subst hkb; simp [hk]
      · simp [hkb]

theorem Memory.readByte_insert_of_absent (m : Memory) (a : Nat) (v : Byte) (b : Nat) (h : ∀ c ∈ m, c.1 ≠ a) :
    (m.insert a v).readByte b = if b = a then v else m.readByte b := by
  induction m with
  | nil =>
    by_cases hb : b = a
    · simp [Memory.insert, Memory.readByte, hb]
    · simp [Memory.insert, Memory.readByte, hb, Ne.symm hb]
  | cons cell m ih =>
    obtain ⟨k, w⟩ := cell
    have hk : k ≠ a := h (k, w) (by simp)
    have ih := ih fun c hc => h c (by simp [hc])
    by_cases hlt : a < k
    · by_cases hb : b = a
      · simp [Memory.insert, hlt, Memory.readByte, hb]
      · simp [Memory.insert, hlt, Memory.readByte, hb, Ne.symm hb]
    · simp only [Memory.insert, if_neg hlt, Memory.readByte, ih]
      by_cases hb : b = a
      · subst hb; simp [hk]
      · simp [hb]

theorem Memory.absent_of_mem_erase (m : Memory) (a : Nat) : ∀ c ∈ m.erase a, c.1 ≠ a := by
  induction m with
  | nil => simp [Memory.erase]
  | cons cell m ih =>
    obtain ⟨k, v⟩ := cell
    by_cases hk : k = a
    · simpa [Memory.erase, hk] using ih
    · simp only [Memory.erase, if_neg hk, List.mem_cons]
      rintro c (rfl | hc)
      · exact hk
      · exact ih c hc

/-- A byte read after a byte write. -/
theorem Memory.readByte_writeByte (m : Memory) (a : Nat) (v : Byte) (b : Nat) :
    (m.writeByte a v).readByte b = if b = a then v else m.readByte b := by
  unfold Memory.writeByte
  split
  · next h => rw [Memory.readByte_erase, h]
  · rw [Memory.readByte_insert_of_absent _ _ _ _ (Memory.absent_of_mem_erase m a), Memory.readByte_erase]
    split <;> simp_all

/-! ## Words -/

/-- A byte read after a word write: the two bytes of the word, and every other byte as before. -/
theorem Memory.readByte_writeWord (m : Memory) (a : Addr) (v : Word) (b : Nat) :
    (m.writeWord a v).readByte b =
      if b = 2 * a.toNat then v.extractLsb' 8 8
      else if b = 2 * a.toNat + 1 then v.extractLsb' 0 8
      else m.readByte b := by
  simp only [Memory.writeWord, Memory.readByte_writeByte]
  split_ifs <;> first | rfl | omega

theorem Memory.readByte_writeWord_of_ne (m : Memory) (a : Addr) (v : Word) {b : Nat} (h0 : b ≠ 2 * a.toNat)
    (h1 : b ≠ 2 * a.toNat + 1) : (m.writeWord a v).readByte b = m.readByte b := by
  rw [Memory.readByte_writeWord, if_neg h0, if_neg h1]

theorem append_bytes (v : Word) : (v.extractLsb' 8 8 ++ v.extractLsb' 0 8 : Word) = v := by
  ext i hi
  simp only [BitVec.getElem_append, BitVec.getElem_extractLsb']
  split <;> simp_all [BitVec.getLsbD_eq_getElem]

theorem Memory.readWord_writeWord_self (m : Memory) (a : Addr) (v : Word) : (m.writeWord a v).readWord a = v := by
  simp [Memory.readWord, Memory.readByte_writeWord, append_bytes]

theorem Memory.readWord_writeWord_of_ne (m : Memory) {a b : Addr} (v : Word) (h : b ≠ a) :
    (m.writeWord a v).readWord b = m.readWord b := by
  have hn : b.toNat ≠ a.toNat := fun e => h (BitVec.eq_of_toNat_eq e)
  simp only [Memory.readWord]
  rw [Memory.readByte_writeWord_of_ne, Memory.readByte_writeWord_of_ne] <;> omega

/-- A word read after a word write. -/
theorem Memory.readWord_writeWord (m : Memory) (a b : Addr) (v : Word) :
    (m.writeWord a v).readWord b = if b = a then v else m.readWord b := by
  split
  · next h => rw [h, Memory.readWord_writeWord_self]
  · next h => exact Memory.readWord_writeWord_of_ne m v h

/-- Words that agree byte by byte agree. -/
theorem Memory.readWord_congr {m m' : Memory} (a : Addr) (h : ∀ k, m'.readByte k = m.readByte k) :
    m'.readWord a = m.readWord a := by
  simp [Memory.readWord, h]

/-! ## The memory primitives -/

theorem State.memRead_of_mem_cfg {s t : State} (hm : t.mem = s.mem) (hc : t.cfg = s.cfg) (a : Addr) :
    t.memRead a = s.memRead a := by
  simp [State.memRead, hm, hc]

theorem State.memRead_setCell (s : State) (a b : Addr) (v : Word) :
    (s.setCell a v).memRead b = if b = a ∧ a.toNat < s.cfg.memSize then v else s.memRead b := by
  simp only [State.memRead, State.setCell_cfg, State.setCell_mem]
  by_cases ha : a.toNat < s.cfg.memSize
  · simp only [ha, if_true, Memory.readWord_writeWord, and_true]
    by_cases hb : b = a
    · simp [hb, ha]
    · simp [hb]
  · simp [ha]

/-- `MemRead` after `MemWrite` (20_memory.md R73, R74). -/
theorem State.memRead_memWrite (s : State) (a b : Addr) (v : Word) :
    (s.memWrite a v).memRead b = if b = a ∧ s.writable a then v else s.memRead b := by
  simp only [State.memRead, State.memWrite_cfg, State.memWrite_mem]
  by_cases ha : s.writable a
  · have hlt : a.toNat < s.cfg.memSize := by simp [State.writable] at ha; exact ha.2
    simp only [ha, if_true, Memory.readWord_writeWord, and_true]
    by_cases hb : b = a
    · simp [hb, hlt]
    · simp [hb]
  · simp [ha]

/-- A store changes no byte outside its word. -/
theorem State.readByte_memWrite_of_ne (s : State) (a : Addr) (v : Word) {k : Nat} (h0 : k ≠ 2 * a.toNat)
    (h1 : k ≠ 2 * a.toNat + 1) : (s.memWrite a v).mem.readByte k = s.mem.readByte k := by
  simp only [State.memWrite_mem]
  split
  · exact Memory.readByte_writeWord_of_ne _ _ _ h0 h1
  · rfl

theorem State.readByte_setCell_of_ne (s : State) (a : Addr) (v : Word) {k : Nat} (h0 : k ≠ 2 * a.toNat)
    (h1 : k ≠ 2 * a.toNat + 1) : (s.setCell a v).mem.readByte k = s.mem.readByte k := by
  simp only [State.setCell_mem]
  split
  · exact Memory.readByte_writeWord_of_ne _ _ _ h0 h1
  · rfl

/-! ## The canonical form -/

theorem Memory.wfFrom_mono {m : Memory} {lo lo' : Nat} (h : Memory.wfFrom lo m = true) (hle : lo' ≤ lo) :
    Memory.wfFrom lo' m = true := by
  cases m with
  | nil => rfl
  | cons cell m =>
    obtain ⟨k, v⟩ := cell
    simp only [Memory.wfFrom, Bool.and_eq_true, decide_eq_true_eq] at h ⊢
    exact ⟨⟨⟨by omega, h.1.1.2⟩, h.1.2⟩, h.2⟩

theorem Memory.wfFrom_erase {m : Memory} {lo : Nat} (a : Nat) (h : Memory.wfFrom lo m = true) :
    Memory.wfFrom lo (m.erase a) = true := by
  induction m generalizing lo with
  | nil => rfl
  | cons cell m ih =>
    obtain ⟨k, v⟩ := cell
    simp only [Memory.wfFrom, Bool.and_eq_true, decide_eq_true_eq] at h
    simp only [Memory.erase]
    split
    · exact Memory.wfFrom_mono (ih h.2) (by omega)
    · simp only [Memory.wfFrom, Bool.and_eq_true, decide_eq_true_eq]
      exact ⟨h.1, ih h.2⟩

theorem Memory.wfFrom_insert {m : Memory} {lo a : Nat} {v : Byte} (h : Memory.wfFrom lo m = true) (hlo : lo ≤ a)
    (ha : a < 65536) (hv : v ≠ unlistedByte) (habs : ∀ c ∈ m, c.1 ≠ a) :
    Memory.wfFrom lo (m.insert a v) = true := by
  induction m generalizing lo with
  | nil => simp [Memory.insert, Memory.wfFrom, hlo, ha, hv]
  | cons cell m ih =>
    obtain ⟨k, w⟩ := cell
    have hk : k ≠ a := habs (k, w) (by simp)
    simp only [Memory.wfFrom, Bool.and_eq_true, decide_eq_true_eq] at h
    simp only [Memory.insert]
    split
    · next hlt =>
      simp only [Memory.wfFrom, Bool.and_eq_true, decide_eq_true_eq, Bool.not_eq_true', decide_eq_false_iff_not]
      exact ⟨⟨⟨hlo, ha⟩, hv⟩, ⟨⟨by omega, h.1.1.2⟩, by simpa using h.1.2⟩, h.2⟩
    · simp only [Memory.wfFrom, Bool.and_eq_true, decide_eq_true_eq]
      exact ⟨h.1, ih h.2 (by omega) fun c hc => habs c (by simp [hc])⟩

theorem Memory.wf_writeByte {m : Memory} {a : Nat} (v : Byte) (h : m.wf = true) (ha : a < 65536) :
    (m.writeByte a v).wf = true := by
  unfold Memory.writeByte Memory.wf
  split
  · exact Memory.wfFrom_erase a h
  · next hv =>
    exact Memory.wfFrom_insert (Memory.wfFrom_erase a h) (Nat.zero_le _) ha hv (Memory.absent_of_mem_erase m a)

/-- A word write keeps the canonical form. -/
theorem Memory.wf_writeWord {m : Memory} (a : Addr) (v : Word) (h : m.wf = true) : (m.writeWord a v).wf = true :=
  Memory.wf_writeByte _ (Memory.wf_writeByte _ h (by omega)) (by omega)

/-- Dropping the cells above a memory size keeps the canonical form. -/
theorem Memory.wf_below {m : Memory} (size : Nat) (h : m.wf = true) : (m.below size).wf = true := by
  suffices ∀ lo, Memory.wfFrom lo m = true → Memory.wfFrom lo (m.below size) = true from this 0 h
  clear h
  induction m with
  | nil => intro lo _; rfl
  | cons cell m ih =>
    obtain ⟨k, v⟩ := cell
    intro lo h
    simp only [Memory.wfFrom, Bool.and_eq_true, decide_eq_true_eq] at h
    simp only [Memory.below, List.filter_cons]
    split
    · simp only [Memory.wfFrom, Bool.and_eq_true, decide_eq_true_eq]
      exact ⟨h.1, ih _ h.2⟩
    · exact Memory.wfFrom_mono (ih _ h.2) (by omega)

theorem State.wf_setCell {s : State} (a : Addr) (v : Word) (h : s.mem.wf = true) : (s.setCell a v).mem.wf = true := by
  simp only [State.setCell_mem]
  split
  · exact Memory.wf_writeWord a v h
  · exact h

theorem State.wf_memWrite {s : State} (a : Addr) (v : Word) (h : s.mem.wf = true) :
    (s.memWrite a v).mem.wf = true := by
  simp only [State.memWrite_mem]
  split
  · exact Memory.wf_writeWord a v h
  · exact h

/-- The reset memory is in the canonical form. -/
theorem State.wf_reset : State.reset.mem.wf = true := rfl

end Sys2Proof.Machine
end

