-- ==== Sys2Proof/Laws/Ops.lean ====
section
/-! SUPPORT. What each shared operation can do, said once: the lemmas that proofs about meanings cite instead of
unfolding the operations. -/

namespace Sys2Proof.Machine

/-! ## Operand access -/

theorem State.withEa_of_some {s : State} {op : MemOp} {y : Addr} (h : s.ea op = some y) (body : Addr → Result) :
    s.withEa op body = body y := by
  simp [State.withEa, h]

theorem State.withEa_of_none {s : State} {op : MemOp} (h : s.ea op = none) (body : Addr → Result) :
    s.withEa op body = .next (s.stop .ind) := by
  simp [State.withEa, h]

/-- A memory-reference meaning either stops with `IND` or runs its body at the effective address. -/
theorem State.withEa_cases (s : State) (op : MemOp) (body : Addr → Result) :
    (s.ea op = none ∧ s.withEa op body = .next (s.stop .ind)) ∨
      ∃ y, s.ea op = some y ∧ s.withEa op body = body y := by
  cases h : s.ea op with
  | none => exact .inl ⟨rfl, State.withEa_of_none h body⟩
  | some y => exact .inr ⟨y, rfl, State.withEa_of_some h body⟩

theorem State.storeThen_of_break {s : State} {y : Addr} (h : s.writeBreak y = true) (v : Word)
    (rest : State → Result) : s.storeThen y v rest = .next ((s.memWrite y v).stop .wbkpt) := by
  simp [State.storeThen, h]

theorem State.storeThen_of_no_break {s : State} {y : Addr} (h : s.writeBreak y = false) (v : Word)
    (rest : State → Result) : s.storeThen y v rest = rest (s.memWrite y v) := by
  simp [State.storeThen, h]

/-- A store is performed as `MemWrite` performs it; then the instruction stops with `WBKPT` or goes on. -/
theorem State.storeThen_cases (s : State) (y : Addr) (v : Word) (rest : State → Result) :
    (s.writeBreak y = true ∧ s.storeThen y v rest = .next ((s.memWrite y v).stop .wbkpt)) ∨
      (s.writeBreak y = false ∧ s.storeThen y v rest = rest (s.memWrite y v)) := by
  cases h : s.writeBreak y with
  | true => exact .inl ⟨rfl, State.storeThen_of_break h v rest⟩
  | false => exact .inr ⟨rfl, State.storeThen_of_no_break h v rest⟩

/-- A double-precision meaning stops with `IND`, faults at an address `DP_ODD` does not allow, or runs its body on the
pair. -/
theorem State.withPair_cases (s : State) (name : DoubleOp) (op : MemOp) (body : Addr → Addr → Result) :
    (s.ea op = none ∧ s.withPair name op body = .next (s.stop .ind)) ∨
      (∃ y, s.ea op = some y ∧ s.pairAllowed y = false ∧
        s.withPair name op body = .fault (.oddDoubleAddress name y)) ∨
      ∃ y, s.ea op = some y ∧ s.pairAllowed y = true ∧ s.withPair name op body = body (evenOf y) (oddOf y) := by
  unfold State.withPair
  rcases s.withEa_cases op fun y => if s.pairAllowed y then body (evenOf y) (oddOf y)
    else .fault (.oddDoubleAddress name y) with ⟨h, he⟩ | ⟨y, h, he⟩
  · exact .inl ⟨h, he⟩
  · cases hp : s.pairAllowed y with
    | false => exact .inr (.inl ⟨y, h, hp, by rw [he]; simp [hp]⟩)
    | true => exact .inr (.inr ⟨y, h, hp, by rw [he]; simp [hp]⟩)

/-- MPY and DIV run their body where the option is present, and are illegal without it. -/
theorem State.needsHsa_cases (s : State) (body : Result) :
    (s.cfg.optHsa = true ∧ s.needsHsa body = body) ∨ (s.cfg.optHsa = false ∧ s.needsHsa body = .next s.illegal) := by
  cases h : s.cfg.optHsa <;> simp [State.needsHsa, h]

/-! ## Addresses -/

theorem State.newa_extended {s : State} (h : s.ext = true) (x : Addr) (y : Word) : s.newa x y = y.setWidth 15 := by
  simp only [State.newa, newaWord, h, if_true]
  ext i hi
  interval_cases i <;> simp

/-- In non-extended mode the bank merge takes bits 13:0 of y and bit 14 of x (20_memory.md R80). -/
theorem State.getLsbD_newa_banked {s : State} (h : s.ext = false) (x : Addr) (y : Word) {i : Nat} (hi : i < 15) :
    (s.newa x y).getLsbD i = if i = 14 then x.getLsbD 14 else y.getLsbD i := by
  simp only [State.newa, newaWord, h]
  interval_cases i <;> simp

theorem State.xrAddr_extended {s : State} (h : s.ext = true) : s.xrAddr = 0 := by simp [State.xrAddr, h]

theorem State.xrAddr_banked {s : State} (h : s.ext = false) : s.xrAddr = s.pc &&& 0o40000#15 := by
  simp [State.xrAddr, h]

/-- XR reads what was last written to it, where its cell exists (20_memory.md R79). -/
theorem State.xr_setXr {s : State} (h : s.xrAddr.toNat < s.cfg.memSize) (v : Word) : (s.setXr v).xr = v := by
  show (s.setCell s.xrAddr v).memRead s.xrAddr = v
  rw [State.memRead_setCell, if_pos ⟨rfl, h⟩]

/-! ## Skips -/

theorem State.skipIf_true (s : State) : s.skipIf true = s.skip := rfl

theorem State.skipIf_false (s : State) : s.skipIf false = s := rfl

theorem State.stopOn_none (s : State) : s.stopOn none = s := rfl

theorem State.stopOn_some (s : State) (r : StopReason) : s.stopOn (some r) = s.stop r := rfl

/-! ## Repeated shift steps -/

theorem repeatStep_zero (step : ShiftRegs → ShiftRegs) (r : ShiftRegs) : repeatStep step 0 r = r := rfl

theorem repeatStep_succ (step : ShiftRegs → ShiftRegs) (n : Nat) (r : ShiftRegs) :
    repeatStep step (n + 1) r = step (repeatStep step n r) := by
  induction n generalizing r with
  | zero => rfl
  | succ n ih =>
    show repeatStep step (n + 1) (step r) = step (repeatStep step (n + 1) r)
    rw [ih]; rfl

theorem repeatStep_add (step : ShiftRegs → ShiftRegs) (m n : Nat) (r : ShiftRegs) :
    repeatStep step (m + n) r = repeatStep step n (repeatStep step m r) := by
  induction m generalizing r with
  | zero => simp [repeatStep]
  | succ m ih => rw [Nat.succ_add]; exact ih (step r)

/-- A property that a step keeps is kept by any number of them. -/
theorem repeatStep_induct {step : ShiftRegs → ShiftRegs} (P : ShiftRegs → Prop) (hstep : ∀ r, P r → P (step r))
    (n : Nat) {r : ShiftRegs} (h : P r) : P (repeatStep step n r) := by
  induction n generalizing r with
  | zero => exact h
  | succ n ih => exact ih (hstep r h)

/-- A regular shift: AR and BR as the repeated step leaves them (unchanged for a count of 0), a C, a free SC, and
nothing else (44_shift.md R240, R241). -/
theorem State.regularShift_eq (s : State) (step : ShiftRegs → ShiftRegs) (n : BitVec 6) :
    s.regularShift step n =
      { s with
        ar := (repeatStep step n.toNat s.shiftRegs).ar
        br := (repeatStep step n.toNat s.shiftRegs).br
        c := if n = 0 then Config.freeC s.draws else (repeatStep step n.toNat s.shiftRegs).c
        sc := Config.freeSc (if n = 0 then s.draws + 1 else s.draws)
        draws := if n = 0 then s.draws + 2 else s.draws + 1 } := by
  by_cases h : n = 0
  · subst h; rfl
  · simp only [State.regularShift, h, if_false]; rfl

/-- An arithmetic left shift, in the same form (44_shift.md R249, R252). -/
theorem State.arithmeticLeft_eq (s : State) (step : ShiftRegs → ShiftRegs) (n : BitVec 6) :
    s.arithmeticLeft step n =
      { s with
        ar := (repeatStep step n.toNat { s.shiftRegs with c := false }).ar
        br := (repeatStep step n.toNat { s.shiftRegs with c := false }).br
        c := if n = 0 then Config.freeC s.draws else (repeatStep step n.toNat { s.shiftRegs with c := false }).c
        sc := Config.freeSc (if n = 0 then s.draws + 1 else s.draws)
        draws := if n = 0 then s.draws + 2 else s.draws + 1 } := by
  by_cases h : n = 0
  · subst h; rfl
  · simp only [State.arithmeticLeft, h, if_false]; rfl

/-! ## Control words -/

/-- A control word changes AR, BR, EXT, EXTOFF, DP, SC, INT_REQ, INT_ON, INT_NODEF, RUN and the count of draws, and
nothing else (43_control.md R211). -/
theorem controlOps_frame (m : BitVec 10) (s : State) :
    (controlOps m s).state =
      { s with
        ar := (controlOps m s).state.ar, br := (controlOps m s).state.br, ext := (controlOps m s).state.ext
        extoff := (controlOps m s).state.extoff, dp := (controlOps m s).state.dp, sc := (controlOps m s).state.sc
        intReq := (controlOps m s).state.intReq, intOn := (controlOps m s).state.intOn
        intNodef := (controlOps m s).state.intNodef, draws := (controlOps m s).state.draws } := by
  let Fr : ControlRun → Prop := fun r => r.state =
    { s with
      ar := r.state.ar, br := r.state.br, ext := r.state.ext, extoff := r.state.extoff, dp := r.state.dp
      sc := r.state.sc, intReq := r.state.intReq, intOn := r.state.intOn, intNodef := r.state.intNodef
      draws := r.state.draws }
  let Keeps : (State → State) → Prop := fun f => ∀ t : State, f t =
    { t with
      ar := (f t).ar, br := (f t).br, ext := (f t).ext, extoff := (f t).extoff, dp := (f t).dp
      sc := (f t).sc, intReq := (f t).intReq, intOn := (f t).intOn, intNodef := (f t).intNodef
      draws := (f t).draws }
  have plain : ∀ {f : State → State}, Keeps f → ∀ r, Fr r → Fr (r.plain f) := by
    rintro f hf ⟨t, b⟩ hr
    have hr : t = _ := hr
    show f t = _
    rw [hr]
    exact (hf _).trans rfl
  have gated : ∀ {f : State → State} (o : Bool), Keeps f → ∀ r, Fr r → Fr (r.gated o f) := by
    intro f o hf r hr
    cases o with
    | false => exact hr
    | true => exact plain hf r hr
  have onBit : ∀ {g : ControlRun → ControlRun} (b : Bool), (∀ r, Fr r → Fr (g r)) → ∀ r, Fr r → Fr (r.onBit b g) := by
    intro g b hg r hr
    cases b with
    | false => exact hr
    | true => exact hg r hr
  have excl : ∀ r, Fr r → Fr (r.exclusive m) := by
    intro r hr
    unfold ControlRun.exclusive ControlRun.readback
    split_ifs
    · exact plain (f := State.readKeys) (fun _ => rfl) r hr
    · exact gated (f := State.readShiftCount) _ (fun _ => rfl) r hr
    · exact gated (f := State.normalize) _ (fun _ => rfl) r hr
    · exact plain (f := State.interchange) (fun _ => rfl) r hr
    · exact hr
  have h0 : Fr { state := s, bad := false } := rfl
  have h1 := onBit (m.getLsbD 2)
    (fun r hr => gated (f := State.setPrecision (m.getLsbD 1)) r.state.cfg.optHsa (fun _ => rfl) r hr) _ h0
  have h2 := onBit (m.getLsbD 3)
    (fun r hr => gated (f := State.setExtend (m.getLsbD 1)) r.state.cfg.optExt (fun _ => rfl) r hr) _ h1
  have h3 := onBit (m.getLsbD 4) (fun r hr => plain (f := State.clearParity) (fun _ => rfl) r hr) _ h2
  have h5 := onBit (m.getLsbD 8) (fun r hr => plain (f := State.enable) (fun _ => rfl) r hr) _ (excl _ h3)
  exact onBit (m.getLsbD 9) (fun r hr => plain (f := State.inhibit) (fun _ => rfl) r hr) _ h5

/-! ## The gate network -/

/-- `OPERATE_GATE`: a named word's meaning on its bits, the configured network on all others (46_operate.md R315). -/
theorem State.operateGate_cases (s : State) (m : BitVec 10) :
    (∃ named, namedMeaning m = some named ∧ s.operateGate m = named s) ∨
      (namedMeaning m = none ∧ s.operateGate m = .next (s.gateNetwork m)) := by
  unfold State.operateGate
  cases namedMeaning m with
  | none => exact .inr ⟨rfl, rfl⟩
  | some named => exact .inl ⟨named, rfl, rfl⟩

/-- A named word, an undefined one and the network write AR, C and SC and nothing else (46_operate.md R315). -/
theorem State.operateGate_frame (s : State) (m : BitVec 10) :
    ∃ (a : Word) (c : Bool) (q : BitVec 6), s.operateGate m = .next { s with ar := a, c := c, sc := q } := by
  rcases s.operateGate_cases m with ⟨f, hf, e⟩ | ⟨_, e⟩
  · obtain ⟨row, hrow, rfl⟩ := Option.map_eq_some_iff.1 hf
    have table : ∀ row ∈ namedTable, ∃ (a : Word) (c : Bool) (q : BitVec 6),
        row.2 s = .next { s with ar := a, c := c, sc := q } := by
      simp only [namedTable, List.forall_mem_cons]
      refine ⟨?_, ?_, ?_, ?_, ?_, ?_, ?_, ?_, ?_, ?_, ?_, ?_, ?_, ?_, ?_, ?_, List.forall_mem_nil _⟩ <;>
        exact ⟨_, _, _, rfl⟩
    exact e ▸ table row (List.mem_of_find?_eq_some hrow)
  · exact ⟨_, _, _, e⟩

/-! ## Device calls -/

/-- A device call changes the request bits, the CPU device's registers (INT_ENB, C, DP, EXT, EXTOFF, SC) and the
model's own record of calls, and nothing else (47_io.md R321, R330, R331). -/
theorem State.afterIo_frame (s : State) (k : IoCall) :
    s.afterIo k =
      { s with
        c := (s.afterIo k).c, ext := (s.afterIo k).ext, extoff := (s.afterIo k).extoff, dp := (s.afterIo k).dp
        sc := (s.afterIo k).sc, intReq := (s.afterIo k).intReq, intEnb := (s.afterIo k).intEnb
        xintReq := (s.afterIo k).xintReq, chanReq := (s.afterIo k).chanReq
        deviceAnswers := (s.afterIo k).deviceAnswers, deviceCalls := (s.afterIo k).deviceCalls
        draws := (s.afterIo k).draws } := by
  unfold State.afterIo State.cpuDeviceState
  split_ifs <;> rfl

/-- A call that is not OTK leaves the CPU's registers but INT_ENB alone (47_io.md R329, R331; 10_state.md R56). -/
theorem State.afterIo_registers {s : State} {k : IoCall} (h : ¬(k.op = .ota ∧ k.fnc = 0o10#4)) :
    (s.afterIo k).c = s.c ∧ (s.afterIo k).ext = s.ext ∧ (s.afterIo k).extoff = s.extoff ∧
      (s.afterIo k).dp = s.dp ∧ (s.afterIo k).sc = s.sc := by
  unfold State.afterIo State.cpuDeviceState
  split_ifs <;> exact ⟨rfl, rfl, rfl, rfl, rfl⟩

/-- A call to an external device or to the stub leaves INT_ENB alone (10_state.md R56). -/
theorem State.afterIo_intEnb {s : State} {k : IoCall} (h : k.dev ≠ cpuDevice) : (s.afterIo k).intEnb = s.intEnb := by
  unfold State.afterIo
  rw [if_neg h]
  split_ifs <;> rfl

/-- An unregistered device changes nothing (47_io.md R322). -/
theorem State.afterIo_stub {s : State} {k : IoCall} (h : k.dev ≠ cpuDevice) (hr : s.isRegistered k.dev = false) :
    s.afterIo k = s ∧ s.ioReply k = s.stubReply k := by
  simp [State.afterIo, State.ioReply, h, hr]

end Sys2Proof.Machine
end

