-- ==== Sys2Proof/Laws/Results.lean ====
section
/-! SUPPORT. How a property of every next state passes through the shared operations: what a proof about all
instructions, or about the channel phase, cites at each of them. -/

namespace Sys2Proof.Machine

/-- The property holds of the next state, where there is one. -/
def NextHolds (P : State → Prop) : Result → Prop
  | .next t => P t
  | .fault _ => True
  | .refused _ => True

theorem nextHolds_of_eq {P : State → Prop} {r : Result} {t : State} (h : NextHolds P r) (e : r = .next t) : P t := by
  subst e; exact h

theorem nextHolds_withEa {P : State → Prop} (s : State) (op : MemOp) (body : Addr → Result) (hstop : P (s.stop .ind))
    (hbody : ∀ y, s.ea op = some y → NextHolds P (body y)) : NextHolds P (s.withEa op body) := by
  rcases s.withEa_cases op body with ⟨_, h⟩ | ⟨y, hy, h⟩ <;> rw [h]
  · exact hstop
  · exact hbody y hy

theorem nextHolds_storeThen {P : State → Prop} (s : State) (y : Addr) (v : Word) (rest : State → Result)
    (hstop : P ((s.memWrite y v).stop .wbkpt)) (hrest : NextHolds P (rest (s.memWrite y v))) :
    NextHolds P (s.storeThen y v rest) := by
  rcases s.storeThen_cases y v rest with ⟨_, h⟩ | ⟨_, h⟩ <;> rw [h]
  · exact hstop
  · exact hrest

theorem nextHolds_withPair {P : State → Prop} (s : State) (name : DoubleOp) (op : MemOp)
    (body : Addr → Addr → Result) (hstop : P (s.stop .ind)) (hbody : ∀ y z, NextHolds P (body y z)) :
    NextHolds P (s.withPair name op body) := by
  rcases s.withPair_cases name op body with ⟨_, h⟩ | ⟨y, _, _, h⟩ | ⟨y, _, _, h⟩ <;> rw [h]
  · exact hstop
  · trivial
  · exact hbody _ _

theorem nextHolds_needsHsa {P : State → Prop} (s : State) (body : Result) (hill : P s.illegal)
    (hbody : s.cfg.optHsa = true → NextHolds P body) : NextHolds P (s.needsHsa body) := by
  rcases s.needsHsa_cases body with ⟨h, e⟩ | ⟨_, e⟩ <;> rw [e]
  · exact hbody h
  · exact hill

/-- A control word: what each sub-operation keeps, the whole word keeps. -/
theorem controlOps_keeps {P : State → Prop} (m : BitVec 10) {s : State} (hs : P s)
    (hprec : ∀ t, t.cfg.optHsa = true → P t → P (t.setPrecision (m.getLsbD 1)))
    (hext : ∀ t, t.cfg.optExt = true → P t → P (t.setExtend (m.getLsbD 1)))
    (hpar : ∀ t, P t → P t.clearParity) (hkeys : ∀ t, P t → P t.readKeys)
    (hsca : ∀ t, P t → P t.readShiftCount) (hnrm : ∀ t, P t → P t.normalize)
    (hiab : ∀ t, P t → P t.interchange) (henb : ∀ t, P t → P t.enable) (hinh : ∀ t, P t → P t.inhibit) :
    P (controlOps m s).state := by
  have onBit : ∀ (r : ControlRun) (b : Bool) (g : ControlRun → ControlRun),
      P r.state → (P r.state → P (g r).state) → P (r.onBit b g).state := by
    intro r b g hr hg
    cases b with
    | false => exact hr
    | true => exact hg hr
  have gated : ∀ (r : ControlRun) (o : Bool) (f : State → State),
      P r.state → (o = true → P (f r.state)) → P (r.gated o f).state := by
    intro r o f hr hf
    cases o with
    | false => exact hr
    | true => exact hf rfl
  have excl : ∀ r : ControlRun, P r.state → P (r.exclusive m).state := by
    intro r hr
    unfold ControlRun.exclusive ControlRun.readback
    split_ifs
    · exact hkeys _ hr
    · exact gated r _ _ hr fun _ => hsca _ hr
    · exact gated r _ _ hr fun _ => hnrm _ hr
    · exact hiab _ hr
    · exact hr
  unfold controlOps
  refine onBit _ _ _ (onBit _ _ _ (excl _ (onBit _ _ _ (onBit _ _ _ (onBit _ _ _ hs ?_) ?_) ?_)) ?_) ?_
  · exact fun h => gated _ _ _ h fun o => hprec _ o h
  · exact fun h => gated _ _ _ h fun o => hext _ o h
  · exact fun h => hpar _ h
  · exact fun h => henb _ h
  · exact fun h => hinh _ h

theorem nextHolds_controlWord {P : State → Prop} (m : BitVec 10) (s : State) (h : P (controlOps m s).state)
    (hill : P (controlOps m s).state → P (controlOps m s).state.illegal) : NextHolds P (controlWord m s) := by
  show P _
  split
  · exact hill h
  · exact h

/-! ## The channel phase -/

/-- A channel write of a control word is a write of its cell, or, past the 32768 words, nothing (20_memory.md R77). -/
theorem State.chanWrite_cases (s : State) (n : Nat) (v : Word) :
    (n < 32768 ∧ s.chanWrite n v = s.setCell (BitVec.ofNat 15 n) v) ∨ (32768 ≤ n ∧ s.chanWrite n v = s) := by
  by_cases h : n < 32768
  · exact .inl ⟨h, by simp only [State.chanWrite, h, if_true]; rfl⟩
  · exact .inr ⟨by omega, by simp only [State.chanWrite, h, if_false]⟩

/-- P holds of the state a part of an iteration goes on in, and Q of the one it stops in. -/
def PhaseHolds (P Q : State → Prop) : Phase → Prop
  | .go t => P t
  | .halt t => Q t
  | .fault _ => True

theorem phaseHolds_bind {P Q : State → Prop} (p : Phase) (rest : State → Phase) (h : PhaseHolds P Q p)
    (hrest : ∀ t, P t → PhaseHolds P Q (rest t)) : PhaseHolds P Q (p.bind rest) := by
  cases p with
  | go t => exact hrest t h
  | halt t => exact h
  | fault f => trivial

theorem phaseHolds_haltOn {P Q : State → Prop} (s : State) (reason : Option StopReason) (h : P s)
    (hstop : ∀ r, Q (s.stop r)) : PhaseHolds P Q (s.haltOn reason) := by
  cases reason with
  | none => exact h
  | some r => exact hstop r

theorem transferCall_dev (s : State) (t : TransferWord) (dev : DevNum) : (s.transferCall t dev).dev = dev := by
  unfold State.transferCall; split <;> rfl

/-- What every operation the channel engine is made of keeps, the channel phase keeps, and what a stop makes of it holds
where the phase stops (48_channels.md R351 to R359). Of the calls it makes, an output has function code 0. -/
theorem scanChannels_keeps {P Q : State → Prop} (hstop : ∀ t r, P t → Q (t.stop r))
    (hio : ∀ t k, (k.op = .ota → k.fnc = 0) → P t → P (t.afterIo k)) (hcell : ∀ t a v, P t → P (t.setCell a v))
    (hdma : ∀ t d, P t → P { t with dma := d }) (hclear : ∀ t i, P t → P (t.clearChannel i)) (s : State)
    (order : List (Fin 20)) (h : P s) : PhaseHolds P Q (s.scanChannels order) := by
  have htransfer : ∀ t w dev, P t → PhaseHolds P Q (t.transfer w dev) := by
    intro t w dev ht
    have h0 : P (t.afterIo (t.transferCall w dev)) := by
      refine hio _ _ ?_ ht
      unfold State.transferCall; split <;> simp
    have hgo := phaseHolds_haltOn (P := P) (Q := Q) _ (t.ioReply (t.transferCall w dev)).stop h0 fun r => hstop _ r h0
    unfold State.transfer
    simp only
    split_ifs
    · exact hstop _ _ h0
    · exact phaseHolds_bind _ _ hgo fun u hu => hcell _ _ _ hu
    · exact phaseHolds_bind _ _ hgo fun u hu => hu
  have hchan : ∀ t n v, P t → P (t.chanWrite n v) := by
    intro t n v ht
    rcases t.chanWrite_cases n v with ⟨_, e⟩ | ⟨_, e⟩ <;> rw [e]
    · exact hcell _ _ _ ht
    · exact ht
  have hfinish : ∀ t complete dev, P t → PhaseHolds P Q (t.finishBlock complete dev) := by
    intro t complete dev ht
    have h0 : P (t.afterIo (endCall dev)) := hio _ _ (by simp [endCall]) ht
    unfold State.finishBlock
    split
    · exact phaseHolds_haltOn _ _ h0 fun r => hstop _ r h0
    · exact ht
  induction order generalizing s with
  | nil => exact h
  | cons i order ih =>
    unfold State.scanChannels
    split
    · refine phaseHolds_bind _ _ ?_ fun t ht => ih t ht
      unfold State.serviceChannel
      split
      · have h1 := hclear s i h
        unfold State.serviceFor
        split
        · exact phaseHolds_bind _ _ (htransfer _ _ _ h1) fun t ht => hfinish _ _ _ (hdma _ _ ht)
        · exact phaseHolds_bind _ _ (htransfer _ _ _ h1) fun t ht => hfinish _ _ _ (hchan _ _ _ ht)
      · trivial
    · exact ih s h

/-- A channel phase that completes leaves RUN and the configuration alone (48_channels.md R351, R360). -/
theorem serviceChannels_go_keeps {s u : State} (h : s.serviceChannels = .go u) : u.run = s.run ∧ u.cfg = s.cfg := by
  have keeps := scanChannels_keeps (P := fun t => t.run = s.run ∧ t.cfg = s.cfg) (Q := fun _ => True)
    (fun _ _ _ => trivial)
    (fun t k _ ht => ⟨(congrArg State.run (t.afterIo_frame k)).trans ht.1,
      (congrArg State.cfg (t.afterIo_frame k)).trans ht.2⟩)
    (fun _ _ _ ht => ht) (fun _ _ ht => ht) (fun _ _ ht => ht) s channelOrder ⟨rfl, rfl⟩
  rw [← State.serviceChannels, h] at keeps
  exact keeps

/-- With no request the channel phase does nothing (48_channels.md R351). -/
theorem scanChannels_quiet {s : State} (h : s.chanReq = 0) (order : List (Fin 20)) : s.scanChannels order = .go s := by
  induction order with
  | nil => rfl
  | cons i order ih => simp [State.scanChannels, h, ih]

/-- The channel phase begins with the lowest requested channel (48_channels.md R351). -/
theorem serviceChannels_lowest {s : State} {i : Fin 20} (h : s.chanReq.getLsbD i.val = true)
    (hlow : ∀ j : Fin 20, j < i → s.chanReq.getLsbD j.val = false) :
    s.serviceChannels = (s.serviceChannel i).bind fun t => t.scanChannels (channelOrder.drop (i.val + 1)) := by
  have skip : ∀ (l pre : List (Fin 20)), (∀ j ∈ pre, j < i) →
      s.scanChannels (pre ++ i :: l) = (s.serviceChannel i).bind fun t => t.scanChannels l := by
    intro l pre hp
    induction pre with
    | nil => simp [State.scanChannels, h]
    | cons j pre ih =>
      have : s.chanReq.getLsbD j.val = false := hlow j (hp j (by simp))
      simp only [List.cons_append, State.scanChannels, this]
      exact ih fun k hk => hp k (by simp [hk])
  have split : ∀ j : Fin 20, channelOrder = channelOrder.take j.val ++ j :: channelOrder.drop (j.val + 1) := by
    decide
  have below : ∀ j : Fin 20, ∀ k ∈ channelOrder.take j.val, k < j := by decide
  unfold State.serviceChannels
  conv_lhs => rw [split i]
  exact skip _ _ (below i)

/-- A call to a registered device other than the CPU's own (47_io.md R320, R321). -/
theorem afterIo_registered {s : State} {k : IoCall} (h : k.dev ≠ cpuDevice) (hr : k.dev ∈ s.cfg.registered) :
    s.afterIo k = s.afterAnswer k ∧ s.ioReply k = (s.deviceAnswer k).reply := by
  have hr' : s.isRegistered k.dev = true := by simpa [State.isRegistered] using hr
  simp [State.afterIo, State.ioReply, h, hr']

/-- The word of a block after a transfer: the same direction bit, the next address (48_channels.md R357, R359). -/
theorem advanced_fields (w : Word) :
    (transferOf w).advanced.getLsbD 15 = w.getLsbD 15 ∧
      (transferOf w).advanced.toNat % 32768 = (w.toNat + 1) % 32768 := by
  have e : (transferOf w).advanced = BitVec.ofBool (w.getLsbD 15) ++ (w.extractLsb' 0 15 + 1#15) := rfl
  rw [e]
  constructor
  · rw [BitVec.getLsbD_append]; simp
  · rw [BitVec.toNat_append]
    simp only [BitVec.toNat_add, BitVec.extractLsb'_toNat, Nat.shiftRight_zero]
    rw [Nat.shiftLeft_eq, Nat.mul_comm, ← Nat.two_pow_add_eq_or_of_lt (Nat.mod_lt _ (by decide))]
    simp

end Sys2Proof.Machine
end

