-- ==== Sys2Proof/Laws/Iteration.lean ====
section
/-! SUPPORT. What a store and a device call leave, in the terms of Safety.lean, and the phases of an iteration one by
one. -/

namespace Sys2Proof.Machine

/-! ## Stores -/

theorem writable_iff (s : State) (y : Addr) : s.writable y = true ↔ WritePerformed s y := by
  simp [State.writable, WritePerformed]

/-- `MemWrite` leaves what Safety.lean says a store leaves. -/
theorem memWrite_storesWord (s : State) (y : Addr) (v : Word) : StoresWord s (s.memWrite y v).mem y v := by
  refine ⟨fun h => ?_, fun h => ?_, fun k h0 h1 => s.readByte_memWrite_of_ne y v h0 h1⟩
  · rw [State.memWrite_mem, if_pos ((writable_iff s y).2 h), Memory.readWord_writeWord_self]
  · intro k; rw [State.memWrite_mem, if_neg fun h' => h ((writable_iff s y).1 h')]

/-- `ChanWrite` leaves what Safety.lean says it leaves. -/
theorem setCell_storesCell (s : State) (y : Addr) (v : Word) : StoresCell s (s.setCell y v).mem y v := by
  refine ⟨fun h => ?_, fun h => ?_, fun k h0 h1 => s.readByte_setCell_of_ne y v h0 h1⟩
  · rw [State.setCell_mem, if_pos h, Memory.readWord_writeWord_self]
  · intro k; rw [State.setCell_mem, if_neg (by omega)]

/-- A store, then the stop of a write breakpoint or the rest. -/
theorem storeThen_eq (s : State) (y : Addr) (v : Word) (rest : State → Result) :
    s.storeThen y v rest =
      if y ∈ s.cfg.writeBkpt then .next { s with mem := (s.memWrite y v).mem, run := .stopped .wbkpt }
      else rest { s with mem := (s.memWrite y v).mem } := by
  simp only [State.storeThen, State.writeBreak, List.contains_iff_mem]; rfl

theorem xrAddr_eq (s : State) : s.xrAddr = shadowAddress s := by
  unfold State.xrAddr shadowAddress
  split
  · rfl
  · generalize s.pc = p
    split <;> ext i hi <;> interval_cases i <;> simp_all

/-! ## The phases -/

theorem stdReady_iff (s : State) : s.stdReady = true ↔ StandardReady s := by
  simp [State.stdReady, StandardReady, and_assoc]

theorem extReady_iff (s : State) : s.extReady = true ↔ ExtendedReady s := by
  have h := stdReady_iff s
  cases hs : s.stdReady <;> simp [hs] at h <;> simp [State.extReady, ExtendedReady, hs, h, and_assoc]

/-- After a channel phase that completes, the iteration goes on in the state it left (48_channels.md R361). -/
theorem step_of_afterChannels {s u : State} (h : AfterChannels s u) : step s = u.runInstruction := by
  obtain ⟨hr, hw, hc⟩ := h
  simp [step, hr, hw, hc]

/-- With no channel requested the channel phase leaves the state as it is. -/
theorem afterChannels_of_quiet {s : State} (hr : s.run = .running) (hw : s.cfg.wf = true) (hc : s.chanReq = 0) :
    AfterChannels s s :=
  ⟨hr, hw, scanChannels_quiet hc _⟩

/-- After a channel phase that completes, the CPU still runs, under the same configuration. -/
theorem AfterChannels.running {s u : State} (h : AfterChannels s u) : u.run = .running ∧ u.cfg = s.cfg := by
  obtain ⟨hr, _, hc⟩ := h
  exact hr ▸ serviceChannels_go_keeps hc

theorem nextInstruction_plain {s : State} (h1 : ¬StandardReady s) (h2 : ¬ExtendedReady s) :
    s.nextInstruction = s.clearStart.plainFetch := by
  rw [← stdReady_iff] at h1
  rw [← extReady_iff] at h2
  simp [State.nextInstruction, h1, h2]

/-- The synthesized word decodes to JST* through the vector (49_main_loop.md R374). -/
theorem decode_interruptWord (dp : Bool) (v : Addr) (h : v.toNat < 0o1000) :
    decode dp (interruptWord v) = vectorJump v := by
  obtain ⟨w, rfl⟩ : ∃ w : BitVec 9, v = w.setWidth 15 := ⟨v.setWidth 9, by bv_omega⟩
  clear h
  revert w
  cases dp <;> decide

/-! ## Request bits -/

/-- One bit of the mask of the channels a device owns (10_state.md R47). -/
theorem getLsbD_ownedMask (k : Config) (dev : DevNum) (i : Fin 20) :
    (ownedMask k dev).getLsbD i.val = decide (k.chanMap[i] = some dev) := by
  have gen : ∀ (l : List (Fin 20)) (m : BitVec 20),
      (l.foldl (fun m j => if k.chanMap[j] = some dev then m ||| (1#20 <<< j.val) else m) m).getLsbD i.val =
        (m.getLsbD i.val || (decide (i ∈ l) && decide (k.chanMap[i] = some dev))) := by
    intro l
    induction l with
    | nil => simp
    | cons j l ih =>
      intro m
      have bit : (1#20 <<< j.val).getLsbD i.val = decide (i = j) := by clear * -; revert i j; decide
      rw [List.foldl_cons, ih]
      by_cases hij : i = j
      · subst hij
        split <;> simp_all
      · have hd : decide (i = j) = false := decide_eq_false hij
        split
        · rw [BitVec.getLsbD_or, bit, hd]; simp [hij]
        · simp [hij]
  have all : i ∈ channelOrder := by clear * -; revert i; decide
  unfold ownedMask
  rw [gen]
  simp [all]

/-- One bit of the mask of the bits below n. -/
theorem getLsbD_lowMask {w : Nat} (n j : Nat) (h : j < w) : ((1#w <<< n) - 1#w).getLsbD j = decide (j < n) := by
  by_cases hn : n < w
  · have e : (1#w <<< n) - 1#w = BitVec.ofNat w (2 ^ n - 1) := by
      apply BitVec.eq_of_toNat_eq
      have := Nat.pow_lt_pow_right (a := 2) (by decide) hn
      have h1 : 1 < 2 ^ w := Nat.one_lt_two_pow (by omega)
      have h2 := Nat.two_pow_pos n
      simp [BitVec.toNat_sub, BitVec.toNat_shiftLeft, Nat.shiftLeft_eq, Nat.mod_eq_of_lt this, Nat.mod_eq_of_lt h1]
      rw [Nat.mod_eq_of_lt (by omega : 2 ^ n - 1 < 2 ^ w)]
      have : 2 ^ w - 1 + 2 ^ n = 2 ^ n - 1 + 2 ^ w := by omega
      rw [this, Nat.add_mod_right, Nat.mod_eq_of_lt (by omega)]
    rw [e, BitVec.getLsbD_ofNat, Nat.testBit_two_pow_sub_one]
    simp [h]
  · have e : 1#w <<< n = 0#w := by
      apply BitVec.eq_of_toNat_eq
      rw [BitVec.toNat_shiftLeft, Nat.shiftLeft_eq]
      obtain ⟨d, rfl⟩ : ∃ d, n = w + d := ⟨n - w, by omega⟩
      rw [Nat.pow_add, Nat.mul_left_comm, Nat.mul_mod_right]; rfl
    rw [e, BitVec.zero_sub, BitVec.neg_one_eq_allOnes, BitVec.getLsbD_allOnes]
    simp; omega

/-- One bit of the mask of the lines below a count (10_state.md R44). -/
theorem getLsbD_lineMask (n : Nat) (j : Fin 16) : (lineMask n).getLsbD j.val = decide (j.val < n) :=
  getLsbD_lowMask n j.val j.isLt

/-- One bit of the mask of the configured channels (48_channels.md R350). -/
theorem getLsbD_channelMask (k : Config) (i : Fin 20) :
    (channelMask k).getLsbD i.val = true ↔ ChannelConfigured k i := by
  have e : channelMask k = ((1#20 <<< min k.nDma 4) - 1#20) ||| (((1#20 <<< k.nDmc) - 1#20) <<< 4) := rfl
  rw [e, BitVec.getLsbD_or, getLsbD_lowMask _ _ i.isLt, BitVec.getLsbD_shiftLeft, getLsbD_lowMask _ _ (by omega)]
  have := i.isLt
  simp [ChannelConfigured]
  omega

/-- What a device does to its request bits, in the terms of Safety.lean (10_state.md R56). -/
theorem changeRequests_requestsAfter (s : State) (dev : DevNum) (q : RequestChange) :
    RequestsAfter s dev q (s.changeRequests dev q).intReq (s.changeRequests dev q).xintReq
      (s.changeRequests dev q).chanReq := by
  refine ⟨fun j => ?_, fun j => ?_, fun i => ⟨fun h => ?_, fun h => ?_⟩⟩
  · simp
  · rw [State.changeRequests_xintReq, BitVec.getLsbD_or, BitVec.getLsbD_and, BitVec.getLsbD_and, getLsbD_lineMask]
    simp
  · have ho := getLsbD_ownedMask s.cfg dev i
    have hm := (getLsbD_channelMask s.cfg i).2 h.2
    rw [State.changeRequests_chanReq]
    simp only [BitVec.getLsbD_or, BitVec.getLsbD_and, BitVec.getLsbD_not, ho, hm, h.1]
    simp
  · have ho := getLsbD_ownedMask s.cfg dev i
    have hown : ((ownedMask s.cfg dev).getLsbD i.val && (channelMask s.cfg).getLsbD i.val) = false := by
      rw [Bool.and_eq_false_iff, ho, decide_eq_false_iff_not, ← Bool.not_eq_true, getLsbD_channelMask]
      exact not_and_or.1 h
    rw [State.changeRequests_chanReq]
    simp only [BitVec.getLsbD_or, BitVec.getLsbD_and, BitVec.getLsbD_not, hown]
    simp

end Sys2Proof.Machine
end

