-- ==== Sys2Proof/Laws/PerInstr.lean ====
section
/-! SUPPORT. The families of statements about every instruction, one lemma for each constructor. -/

namespace Sys2Proof.Laws.OneWordClass

/-- The word of an instruction belongs to the instruction's class (30_encoding.md R101). -/
def Statement (i : Instr) : Prop := classOf (encode i) = i.cls

theorem jmp (op : MemOp) : Statement (.jmp op) := classOf_memRefWord (by decide) op
theorem lda (op : MemOp) : Statement (.lda op) := classOf_memRefWord (by decide) op
theorem dld (op : MemOp) : Statement (.dld op) := classOf_memRefWord (by decide) op
theorem ana (op : MemOp) : Statement (.ana op) := classOf_memRefWord (by decide) op
theorem sta (op : MemOp) : Statement (.sta op) := classOf_memRefWord (by decide) op
theorem dst (op : MemOp) : Statement (.dst op) := classOf_memRefWord (by decide) op
theorem era (op : MemOp) : Statement (.era op) := classOf_memRefWord (by decide) op
theorem add (op : MemOp) : Statement (.add op) := classOf_memRefWord (by decide) op
theorem dad (op : MemOp) : Statement (.dad op) := classOf_memRefWord (by decide) op
theorem sub (op : MemOp) : Statement (.sub op) := classOf_memRefWord (by decide) op
theorem dsb (op : MemOp) : Statement (.dsb op) := classOf_memRefWord (by decide) op
theorem jst (op : MemOp) : Statement (.jst op) := classOf_memRefWord (by decide) op
theorem cas (op : MemOp) : Statement (.cas op) := classOf_memRefWord (by decide) op
theorem irs (op : MemOp) : Statement (.irs op) := classOf_memRefWord (by decide) op
theorem ima (op : MemOp) : Statement (.ima op) := classOf_memRefWord (by decide) op
theorem mpy (op : MemOp) : Statement (.mpy op) := classOf_memRefWord (by decide) op
theorem div (op : MemOp) : Statement (.div op) := classOf_memRefWord (by decide) op
theorem stx (op : XferOp) : Statement (.stx op) := classOf_xferWord _ op
theorem ldx (op : XferOp) : Statement (.ldx op) := classOf_xferWord _ op
theorem hlt (bits : BitVec 9) : Statement (.hlt bits) := classOf_control _
theorem controlMicro (bits : BitVec 9) : Statement (.controlMicro bits) := classOf_control _
theorem sgl : Statement .sgl := rfl
theorem dbl : Statement .dbl := rfl
theorem dxa : Statement .dxa := rfl
theorem exa : Statement .exa := rfl
theorem rmp : Statement .rmp := rfl
theorem sca : Statement .sca := rfl
theorem ink : Statement .ink := rfl
theorem nrm : Statement .nrm := rfl
theorem iab : Statement .iab := rfl
theorem enb : Statement .enb := rfl
theorem inh : Statement .inh := rfl
theorem lrl (n : BitVec 6) : Statement (.lrl n) := classOf_shiftWord _ n
theorem lrs (n : BitVec 6) : Statement (.lrs n) := classOf_shiftWord _ n
theorem lrr (n : BitVec 6) : Statement (.lrr n) := classOf_shiftWord _ n
theorem quirk3 (n : BitVec 6) : Statement (.quirk3 n) := classOf_shiftWord _ n
theorem lgr (n : BitVec 6) : Statement (.lgr n) := classOf_shiftWord _ n
theorem ars (n : BitVec 6) : Statement (.ars n) := classOf_shiftWord _ n
theorem arr (n : BitVec 6) : Statement (.arr n) := classOf_shiftWord _ n
theorem quirk7 (n : BitVec 6) : Statement (.quirk7 n) := classOf_shiftWord _ n
theorem lll (n : BitVec 6) : Statement (.lll n) := classOf_shiftWord _ n
theorem lls (n : BitVec 6) : Statement (.lls n) := classOf_shiftWord _ n
theorem llr (n : BitVec 6) : Statement (.llr n) := classOf_shiftWord _ n
theorem quirk13 (n : BitVec 6) : Statement (.quirk13 n) := classOf_shiftWord _ n
theorem lgl (n : BitVec 6) : Statement (.lgl n) := classOf_shiftWord _ n
theorem als (n : BitVec 6) : Statement (.als n) := classOf_shiftWord _ n
theorem alr (n : BitVec 6) : Statement (.alr n) := classOf_shiftWord _ n
theorem quirk17 (n : BitVec 6) : Statement (.quirk17 n) := classOf_shiftWord _ n
theorem skip (sense : Bool) (cond : BitVec 9) : Statement (.skip sense cond) := classOf_skip _
theorem skp : Statement .skp := rfl
theorem nop : Statement .nop := rfl
theorem ssc : Statement .ssc := rfl
theorem src : Statement .src := rfl
theorem ss1 : Statement .ss1 := rfl
theorem sr1 : Statement .sr1 := rfl
theorem ss2 : Statement .ss2 := rfl
theorem sr2 : Statement .sr2 := rfl
theorem ss3 : Statement .ss3 := rfl
theorem sr3 : Statement .sr3 := rfl
theorem ss4 : Statement .ss4 := rfl
theorem sr4 : Statement .sr4 := rfl
theorem sss : Statement .sss := rfl
theorem ssr : Statement .ssr := rfl
theorem snz : Statement .snz := rfl
theorem sze : Statement .sze := rfl
theorem sln : Statement .sln := rfl
theorem slz : Statement .slz := rfl
theorem sps : Statement .sps := rfl
theorem spn : Statement .spn := rfl
theorem smi : Statement .smi := rfl
theorem spl : Statement .spl := rfl
theorem chs : Statement .chs := rfl
theorem cra : Statement .cra := rfl
theorem ssp : Statement .ssp := rfl
theorem rcb : Statement .rcb := rfl
theorem csa : Statement .csa := rfl
theorem cma : Statement .cma := rfl
theorem tca : Statement .tca := rfl
theorem ssm : Statement .ssm := rfl
theorem scb : Statement .scb := rfl
theorem car : Statement .car := rfl
theorem cal : Statement .cal := rfl
theorem icl : Statement .icl := rfl
theorem aoa : Statement .aoa := rfl
theorem aca : Statement .aca := rfl
theorem icr : Statement .icr := rfl
theorem ica : Statement .ica := rfl
theorem undefinedOperate (bits : BitVec 10) : Statement (.undefinedOperate bits) := classOf_operate bits
theorem ocp (fnc : BitVec 4) (dev : DevNum) : Statement (.ocp fnc dev) := classOf_ioWord _ fnc dev
theorem sks (fnc : BitVec 4) (dev : DevNum) : Statement (.sks fnc dev) := classOf_ioWord _ fnc dev
theorem ina (clear : Bool) (fnc : BitVec 3) (dev : DevNum) : Statement (.ina clear fnc dev) := classOf_ioWord _ _ dev
theorem ota (fnc : BitVec 4) (dev : DevNum) : Statement (.ota fnc dev) := classOf_ioWord _ fnc dev
theorem smk : Statement .smk := rfl
theorem otk : Statement .otk := rfl

end Sys2Proof.Laws.OneWordClass
end

