-- ==== Sys2Proof/Tests/Slice0.lean ====
section
/-! SUPPORT. The model's own tests: ill-formed instructions, the decoding of every constructor from a word written out
from the spec's encoding, one small step for every instruction with the result the spec's example or test vector gives,
and a witness for the hypotheses of each statement that has some. -/

open Sys2Proof Sys2Proof.Machine

namespace Sys2Proof.Tests

/-! ## Well-formedness: a class row that spells a named word is refused -/

theorem test_wf_refuses_control_word_of_sgl : (Instr.controlMicro 0o2#9).wf = false := by decide
theorem test_wf_refuses_skip_word_of_nop : (Instr.skip true 0o0#9).wf = false := by decide
theorem test_wf_refuses_operate_word_of_chs : (Instr.undefinedOperate 0o24#10).wf = false := by decide
theorem test_wf_refuses_ota_word_of_smk : (Instr.ota 0#4 0o20#6).wf = false := by decide
theorem test_wf_refuses_ota_word_of_otk : (Instr.ota 0o10#4 0o20#6).wf = false := by decide
theorem test_wf_accepts_other_words :
    (Instr.controlMicro 0o0#9).wf = true ∧ (Instr.skip true 0o3#9).wf = true ∧
      (Instr.undefinedOperate 0#10).wf = true ∧ (Instr.ota 0o10#4 0o21#6).wf = true := by decide

/-! ## Decoding: words of opcode_table.json's rows, operands from 30_encoding.md -/

/-- A memory-reference operand. -/
def op (i x s : Bool) (d : BitVec 9) : MemOp := { indirect := i, indexed := x, sector := s, disp := d }

/-- A direct operand in sector 0. -/
def dir (d : BitVec 9) : MemOp := op false false false d

theorem test_decode_memory_reference :
    decode false 0o002200#16 = .jmp (dir 0o200#9) ∧
      decode false 0o104010#16 = .lda (op true false false 0o10#9) ∧
      decode true 0o004010#16 = .dld (dir 0o10#9) ∧
      decode false 0o046010#16 = .ana (op false true false 0o10#9) ∧
      decode false 0o011200#16 = .sta (op false false true 0o200#9) ∧
      decode true 0o010200#16 = .dst (dir 0o200#9) ∧
      decode false 0o012777#16 = .era (dir 0o777#9) ∧
      decode false 0o014001#16 = .add (dir 0o1#9) ∧
      decode true 0o014001#16 = .dad (dir 0o1#9) ∧
      decode false 0o016001#16 = .sub (dir 0o1#9) ∧
      decode true 0o016001#16 = .dsb (dir 0o1#9) ∧
      decode false 0o120063#16 = .jst (op true false false 0o63#9) ∧
      decode false 0o022001#16 = .cas (dir 0o1#9) ∧
      decode false 0o024000#16 = .irs (dir 0#9) ∧
      decode false 0o166600#16 = .ima (op true true false 0o600#9) ∧
      decode false 0o034001#16 = .mpy (dir 0o1#9) ∧
      decode false 0o076001#16 = .div (op false true false 0o1#9) ∧
      decode false 0o032300#16 = .stx { indirect := false, sector := false, disp := 0o300#9 } ∧
      decode false 0o173110#16 = .ldx { indirect := true, sector := true, disp := 0o110#9 } := by decide

theorem test_decode_control :
    decode false 0o000000#16 = .hlt 0#9 ∧
      decode false 0o001776#16 = .hlt 0o777#9 ∧
      decode false 0o000001#16 = .controlMicro 0#9 ∧
      decode false 0o000005#16 = .sgl ∧
      decode false 0o000007#16 = .dbl ∧
      decode false 0o000011#16 = .dxa ∧
      decode false 0o000013#16 = .exa ∧
      decode false 0o000021#16 = .rmp ∧
      decode false 0o000041#16 = .sca ∧
      decode false 0o000043#16 = .ink ∧
      decode false 0o000101#16 = .nrm ∧
      decode false 0o000201#16 = .iab ∧
      decode false 0o000401#16 = .enb ∧
      decode false 0o001001#16 = .inh := by decide

theorem test_decode_shift :
    decode false 0o040060#16 = .lrl 0o20#6 ∧
      decode false 0o040177#16 = .lrs 1#6 ∧
      decode false 0o040277#16 = .lrr 1#6 ∧
      decode false 0o040377#16 = .quirk3 1#6 ∧
      decode false 0o040477#16 = .lgr 1#6 ∧
      decode false 0o040576#16 = .ars 2#6 ∧
      decode false 0o040677#16 = .arr 1#6 ∧
      decode false 0o040700#16 = .quirk7 0#6 ∧
      decode false 0o041077#16 = .lll 1#6 ∧
      decode false 0o041177#16 = .lls 1#6 ∧
      decode false 0o041201#16 = .llr 0o77#6 ∧
      decode false 0o041377#16 = .quirk13 1#6 ∧
      decode false 0o041475#16 = .lgl 3#6 ∧
      decode false 0o041577#16 = .als 1#6 ∧
      decode false 0o041674#16 = .alr 4#6 ∧
      decode false 0o041740#16 = .quirk17 0o40#6 := by decide

theorem test_decode_skip :
    decode false 0o101140#16 = .skip true 0o140#9 ∧
      decode false 0o100000#16 = .skp ∧
      decode false 0o101000#16 = .nop ∧
      decode false 0o101001#16 = .ssc ∧
      decode false 0o100001#16 = .src ∧
      decode false 0o101020#16 = .ss1 ∧
      decode false 0o100020#16 = .sr1 ∧
      decode false 0o101010#16 = .ss2 ∧
      decode false 0o100010#16 = .sr2 ∧
      decode false 0o101004#16 = .ss3 ∧
      decode false 0o100004#16 = .sr3 ∧
      decode false 0o101002#16 = .ss4 ∧
      decode false 0o100002#16 = .sr4 ∧
      decode false 0o101036#16 = .sss ∧
      decode false 0o100036#16 = .ssr ∧
      decode false 0o101040#16 = .snz ∧
      decode false 0o100040#16 = .sze ∧
      decode false 0o101100#16 = .sln ∧
      decode false 0o100100#16 = .slz ∧
      decode false 0o101200#16 = .sps ∧
      decode false 0o100200#16 = .spn ∧
      decode false 0o101400#16 = .smi ∧
      decode false 0o100400#16 = .spl := by decide

theorem test_decode_operate :
    decode false 0o140024#16 = .chs ∧
      decode false 0o140040#16 = .cra ∧
      decode false 0o140100#16 = .ssp ∧
      decode false 0o140200#16 = .rcb ∧
      decode false 0o140320#16 = .csa ∧
      decode false 0o140401#16 = .cma ∧
      decode false 0o140407#16 = .tca ∧
      decode false 0o140500#16 = .ssm ∧
      decode false 0o140600#16 = .scb ∧
      decode false 0o141044#16 = .car ∧
      decode false 0o141050#16 = .cal ∧
      decode false 0o141140#16 = .icl ∧
      decode false 0o141206#16 = .aoa ∧
      decode false 0o141216#16 = .aca ∧
      decode false 0o141240#16 = .icr ∧
      decode false 0o141340#16 = .ica ∧
      decode false 0o141341#16 = .undefinedOperate 0o1341#10 := by decide

theorem test_decode_io :
    decode false 0o030104#16 = .ocp 1#4 0o4#6 ∧
      decode false 0o070104#16 = .sks 1#4 0o4#6 ∧
      decode false 0o131004#16 = .ina true 0#3 0o4#6 ∧
      decode false 0o130704#16 = .ina false 7#3 0o4#6 ∧
      decode false 0o170004#16 = .ota 0#4 0o4#6 ∧
      decode false 0o170020#16 = .smk ∧
      decode false 0o171020#16 = .otk := by decide

theorem test_decode_takes_one_word_only : decodeTableWord 32 0o004010 = none ∧ decodeTableWord 16 0o000013 = some .exa := by
  decide

/-! ## One step of each instruction -/

/-- PC as it is while the instruction at 0o100 executes. -/
def base : State := { State.reset with pc := 0o101#15 }

/-- A word put in memory. -/
def put (a : Addr) (v : Word) (s : State) : State := { s with mem := s.mem.writeWord a v }

/-- AR, BR, C and PC of a next state. -/
def regs : Result → Option (Word × Word × Bool × Addr)
  | .next t => some (t.ar, t.br, t.c, t.pc)
  | _ => none

/-- A memory word of a next state, and PC. -/
def word (a : Addr) : Result → Option (Word × Addr)
  | .next t => some (t.memRead a, t.pc)
  | _ => none

/-- EXT, EXTOFF, DP, INT_ON and INT_NODEF of a next state. -/
def modes : Result → Option (Bool × Bool × Bool × Bool × Bool)
  | .next t => some (t.ext, t.extoff, t.dp, t.intOn, t.intNodef)
  | _ => none

/-- AR and SC of a next state. -/
def count : Result → Option (Word × BitVec 6)
  | .next t => some (t.ar, t.sc)
  | _ => none

/-- RUN of a next state, and PC. -/
def ended : Result → Option (Run × Addr)
  | .next t => some (t.run, t.pc)
  | _ => none

/-- A state whose device 4 is registered and has an answer ready. -/
def withDevice (skip : Bool) (stop : Option StopReason) (data : Word) (s : State) : State :=
  { s with
    cfg := { s.cfg with registered := [4#6] }
    deviceAnswers :=
      [{ reply := { skip := skip, stop := stop, data := data }
         requests := { intClear := 0, intSet := 0, xintClear := 0, xintSet := 0, chanClear := 0, chanSet := 0 } }] }

/-- R171. -/
theorem test_jmp : regs (exec (.jmp (dir 0o200#9)) (base)) = some (0, 0, false, 0o200) := by decide
/-- R150, R172. -/
theorem test_lda : regs (exec (.lda (dir 0o10#9)) (put 0o10 0o123456 base)) = some (0o123456, 0, false, 0o101) := by decide
/-- R143. -/
theorem test_lda_indirect_indexed : regs (exec (.lda (op true false false 0o200#9)) (put 0o205 0o177777 (put 0o200 0o40203 (put 0 2 base)))) = some (0o177777, 0, false, 0o101) := by decide
/-- R173. -/
theorem test_ana : regs (exec (.ana (dir 0o200#9)) (put 0o200 0o012345 ({ base with ar := 0o177400 }))) = some (0o012000, 0, false, 0o101) := by decide
/-- R174. -/
theorem test_sta : word 0o200 (exec (.sta (dir 0o200#9)) ({ base with ar := 5 })) = some (5, 0o101) := by decide
/-- R75. -/
theorem test_sta_protected : word 0o17 (exec (.sta (dir 0o17#9)) ({ base with ar := 5 })) = some (0, 0o101) := by decide
/-- R175. -/
theorem test_era : regs (exec (.era (dir 0o200#9)) (put 0o200 0o17 ({ base with ar := 0o177777 }))) = some (0o177760, 0, false, 0o101) := by decide
/-- R176. -/
theorem test_add : regs (exec (.add (dir 0o200#9)) (put 0o200 1 ({ base with ar := 0o77777 }))) = some (0o100000, 0, true, 0o101) := by decide
/-- R177. -/
theorem test_sub : regs (exec (.sub (dir 0o200#9)) (put 0o200 0o100000 ({ base with c := true }))) = some (0o100000, 0, false, 0o101) := by decide
/-- R178. -/
theorem test_jst : word 0o120 (exec (.jst (dir 0o120#9)) ({ base with pc := 0o102 })) = some (0o102, 0o121) := by decide
/-- R181. -/
theorem test_cas_less : regs (exec (.cas (dir 0o200#9)) (put 0o200 5 ({ base with ar := 3 }))) = some (3, 0, false, 0o103) := by decide
/-- R181. -/
theorem test_cas_signed : regs (exec (.cas (dir 0o200#9)) (put 0o200 0o100000 ({ base with ar := 0o77777 }))) = some (0o77777, 0, false, 0o101) := by decide
/-- R182. -/
theorem test_irs : word 0o200 (exec (.irs (dir 0o200#9)) (put 0o200 0o177777 base)) = some (0, 0o102) := by decide
/-- R183. -/
theorem test_ima : regs (exec (.ima (dir 0o200#9)) (put 0o200 2 ({ base with ar := 1 }))) = some (2, 0, false, 0o101) ∧
      word 0o200 (exec (.ima (dir 0o200#9)) (put 0o200 2 ({ base with ar := 1 }))) = some (1, 0o101) := by decide
/-- R184. -/
theorem test_stx : word 0o300 (exec (.stx { indirect := false, sector := false, disp := 0o300#9 }) (put 0 0o17 base)) = some (0o17, 0o101) := by decide
/-- R185. -/
theorem test_ldx : word 0 (exec (.ldx { indirect := false, sector := false, disp := 0o110#9 }) (put 0o110 0o177774 base)) = some (0o177774, 0o101) := by decide
/-- R186. -/
theorem test_mpy : (regs (exec (.mpy (dir 0o200#9)) (put 0o200 3 ({ base with ar := 0o177776 })))).map (fun r => (r.1, r.2.1)) =
      some (0o177777, 0o77772) := by decide
/-- R187. -/
theorem test_div : regs (exec (.div (dir 0o200#9)) (put 0o200 4 ({ base with br := 0o17, c := true }))) = some (3, 3, false, 0o101) := by decide
/-- R187: -15 / 4. -/
theorem test_div_of_negative : regs (exec (.div (dir 0o200#9)) (put 0o200 4 ({ base with ar := 0o177777, br := 0o77761 }))) = some (0o177775, 0o177775, false, 0o101) := by decide
/-- R189. -/
theorem test_dld : regs (exec (.dld (dir 0o200#9)) (put 0o201 2 (put 0o200 1 base))) = some (1, 2, false, 0o101) := by decide
/-- R191. -/
theorem test_dst : word 0o200 (exec (.dst (dir 0o200#9)) ({ base with ar := 1, br := 2 })) = some (1, 0o101) ∧
      word 0o201 (exec (.dst (dir 0o200#9)) ({ base with ar := 1, br := 2 })) = some (2, 0o101) := by decide
/-- R192. -/
theorem test_dad : regs (exec (.dad (dir 0o200#9)) (put 0o201 1 ({ base with br := 0o77777 }))) = some (1, 0, false, 0o101) := by decide
/-- R193. -/
theorem test_dsb : regs (exec (.dsb (dir 0o200#9)) (put 0o201 3 ({ base with br := 5 }))) = some (0, 2, false, 0o101) := by decide
/-- R190. -/
theorem test_dld_odd : exec (.dld (dir 0o201#9)) base = .fault (.oddDoubleAddress .dld 0o201) := rfl
/-- R212. -/
theorem test_hlt : ended (exec (.hlt 0#9) base) = some (.stopped .halt, 0o101) := by decide
/-- R224: 0o000417. -/
theorem test_control_combined : modes (exec (.controlMicro 0o207#9) (base)) = some (true, false, true, true, false) := by decide
/-- R214. -/
theorem test_sgl : modes (exec (.sgl) ({ base with dp := true })) = some (false, false, false, false, false) := by decide
/-- R214. -/
theorem test_dbl : modes (exec (.dbl) (base)) = some (false, false, true, false, false) := by decide
/-- R215. -/
theorem test_dxa : modes (exec (.dxa) ({ base with ext := true })) = some (true, true, false, false, false) := by decide
/-- R215. -/
theorem test_exa : modes (exec (.exa) ({ base with extoff := true })) = some (true, false, false, false, false) := by decide
/-- R216, LINE_MPE = 1. -/
theorem test_rmp : (match exec .rmp { base with intReq := 7 } with | .next t => some t.intReq | _ => none) = some 5 := by decide
/-- R217. -/
theorem test_sca : count (exec (.sca) ({ base with sc := 0o17 })) = some (0o17, 0o17) := by decide
/-- R218. -/
theorem test_ink : count (exec (.ink) ({ base with c := true, dp := true, pme := true, sc := 5 })) = some (0o160005, 5) := by decide
/-- R219. -/
theorem test_nrm : count (exec (.nrm) ({ base with ar := 0o10000 })) = some (0o40000, 2) := by decide
/-- R219. -/
theorem test_nrm_of_zero : count (exec (.nrm) ({ base with sc := 7 })) = some (0, 0) := by decide
/-- R220. -/
theorem test_iab : regs (exec (.iab) ({ base with ar := 1, br := 2 })) = some (2, 1, false, 0o101) := by decide
/-- R222. -/
theorem test_enb : modes (exec (.enb) ({ base with intNodef := true })) = some (false, false, false, true, false) := by decide
/-- R223. -/
theorem test_inh : modes (exec (.inh) ({ base with intOn := true, intNodef := true })) = some (false, false, false, false, true) := by decide
/-- R242. -/
theorem test_lrl : regs (exec (.lrl 16#6) ({ base with ar := 0o123456, c := true })) = some (0, 0o123456, false, 0o101) := by decide
/-- R243. -/
theorem test_lrs : regs (exec (.lrs 1#6) ({ base with ar := 0o100000, br := 0o100000 })) = some (0o140000, 0o100000, false, 0o101) := by decide
/-- R244. -/
theorem test_lrr : regs (exec (.lrr 1#6) ({ base with br := 1 })) = some (0o100000, 0, true, 0o101) := by decide
/-- R245. -/
theorem test_lgr : regs (exec (.lgr 1#6) ({ base with ar := 3 })) = some (1, 0, true, 0o101) := by decide
/-- R246. -/
theorem test_ars : regs (exec (.ars 2#6) ({ base with ar := 0o100000 })) = some (0o160000, 0, false, 0o101) := by decide
/-- R247. -/
theorem test_arr : regs (exec (.arr 1#6) ({ base with ar := 1 })) = some (0o100000, 0, true, 0o101) := by decide
/-- R248. -/
theorem test_lll : regs (exec (.lll 1#6) ({ base with ar := 0o100000, br := 0o100000 })) = some (1, 0, true, 0o101) := by decide
/-- R249. -/
theorem test_lls : regs (exec (.lls 1#6) ({ base with ar := 0o40000 })) = some (0o100000, 0, true, 0o101) := by decide
/-- R250. -/
theorem test_llr : regs (exec (.llr 1#6) ({ base with ar := 0o100000 })) = some (0, 1, true, 0o101) := by decide
/-- R251. -/
theorem test_lgl : regs (exec (.lgl 3#6) ({ base with ar := 0o100001, c := true })) = some (0o10, 0, false, 0o101) := by decide
/-- R252. -/
theorem test_als : regs (exec (.als 1#6) ({ base with ar := 0o40000 })) = some (0o100000, 0, true, 0o101) := by decide
/-- R253. -/
theorem test_alr : regs (exec (.alr 4#6) ({ base with ar := 0o170000 })) = some (0o17, 0, true, 0o101) := by decide
/-- example of its rule. -/
theorem test_skp : ended (exec (.skp) (base)) = some (.running, 0o102) := by decide
/-- example of its rule. -/
theorem test_nop : ended (exec (.nop) (base)) = some (.running, 0o101) := by decide
/-- example of its rule. -/
theorem test_ssc : ended (exec (.ssc) ({ base with c := true })) = some (.running, 0o102) := by decide
/-- example of its rule. -/
theorem test_src : ended (exec (.src) ({ base with c := true })) = some (.running, 0o101) := by decide
/-- example of its rule. -/
theorem test_ss1 : ended (exec (.ss1) ({ base with ss1 := true })) = some (.running, 0o102) := by decide
/-- example of its rule. -/
theorem test_sr1 : ended (exec (.sr1) ({ base with ss1 := true })) = some (.running, 0o101) := by decide
/-- example of its rule. -/
theorem test_ss2 : ended (exec (.ss2) (base)) = some (.running, 0o101) := by decide
/-- example of its rule. -/
theorem test_sr2 : ended (exec (.sr2) (base)) = some (.running, 0o102) := by decide
/-- example of its rule. -/
theorem test_ss3 : ended (exec (.ss3) ({ base with ss3 := true })) = some (.running, 0o102) := by decide
/-- example of its rule. -/
theorem test_sr3 : ended (exec (.sr3) ({ base with ss3 := true })) = some (.running, 0o101) := by decide
/-- example of its rule. -/
theorem test_ss4 : ended (exec (.ss4) ({ base with ss4 := true })) = some (.running, 0o102) := by decide
/-- example of its rule. -/
theorem test_sr4 : ended (exec (.sr4) (base)) = some (.running, 0o102) := by decide
/-- example of its rule. -/
theorem test_sss : ended (exec (.sss) ({ base with ss3 := true })) = some (.running, 0o102) := by decide
/-- example of its rule. -/
theorem test_ssr : ended (exec (.ssr) ({ base with ss3 := true })) = some (.running, 0o101) := by decide
/-- example of its rule. -/
theorem test_snz : ended (exec (.snz) ({ base with ar := 0o100000 })) = some (.running, 0o102) := by decide
/-- example of its rule. -/
theorem test_sze : ended (exec (.sze) (base)) = some (.running, 0o102) := by decide
/-- example of its rule. -/
theorem test_sln : ended (exec (.sln) ({ base with ar := 3 })) = some (.running, 0o102) := by decide
/-- example of its rule. -/
theorem test_slz : ended (exec (.slz) ({ base with ar := 3 })) = some (.running, 0o101) := by decide
/-- example of its rule. -/
theorem test_sps : ended (exec (.sps) (base)) = some (.running, 0o101) := by decide
/-- example of its rule. -/
theorem test_spn : ended (exec (.spn) (base)) = some (.running, 0o102) := by decide
/-- example of its rule. -/
theorem test_smi : ended (exec (.smi) ({ base with ar := 0o177777 })) = some (.running, 0o102) := by decide
/-- example of its rule. -/
theorem test_spl : ended (exec (.spl) (base)) = some (.running, 0o102) := by decide
/-- R294. -/
theorem test_skip_any : ended (exec (.skip true 0o140#9) ({ base with ar := 2 })) = some (.running, 0o102) := by decide
/-- R294. -/
theorem test_skip_none : ended (exec (.skip false 0o140#9) ({ base with ar := 2 })) = some (.running, 0o101) := by decide
/-- example of its rule. -/
theorem test_chs : regs (exec (.chs) ({ base with ar := 5 })) = some (0o100005, 0, false, 0o101) := by decide
/-- example of its rule. -/
theorem test_cra : regs (exec (.cra) ({ base with ar := 0o123456 })) = some (0, 0, false, 0o101) := by decide
/-- example of its rule. -/
theorem test_ssp : regs (exec (.ssp) ({ base with ar := 0o177777 })) = some (0o77777, 0, false, 0o101) := by decide
/-- example of its rule. -/
theorem test_rcb : regs (exec (.rcb) ({ base with c := true })) = some (0, 0, false, 0o101) := by decide
/-- example of its rule. -/
theorem test_csa : regs (exec (.csa) ({ base with ar := 0o100007 })) = some (7, 0, true, 0o101) := by decide
/-- example of its rule. -/
theorem test_cma : regs (exec (.cma) ({ base with ar := 0o123456 })) = some (0o54321, 0, false, 0o101) := by decide
/-- example of its rule. -/
theorem test_tca : regs (exec (.tca) ({ base with ar := 0o123456 })) = some (0o54322, 0, false, 0o101) := by decide
/-- example of its rule. -/
theorem test_ssm : regs (exec (.ssm) ({ base with ar := 5 })) = some (0o100005, 0, false, 0o101) := by decide
/-- example of its rule. -/
theorem test_scb : regs (exec (.scb) (base)) = some (0, 0, true, 0o101) := by decide
/-- example of its rule. -/
theorem test_car : regs (exec (.car) ({ base with ar := 0o123456 })) = some (0o123400, 0, false, 0o101) := by decide
/-- example of its rule. -/
theorem test_cal : regs (exec (.cal) ({ base with ar := 0o123456 })) = some (0o56, 0, false, 0o101) := by decide
/-- example of its rule. -/
theorem test_icl : regs (exec (.icl) ({ base with ar := 0o123456 })) = some (0o247, 0, false, 0o101) := by decide
/-- example of its rule. -/
theorem test_aoa : regs (exec (.aoa) ({ base with ar := 0o77777 })) = some (0o100000, 0, true, 0o101) := by decide
/-- example of its rule. -/
theorem test_aca : regs (exec (.aca) ({ base with ar := 5, c := true })) = some (6, 0, false, 0o101) := by decide
/-- example of its rule. -/
theorem test_icr : regs (exec (.icr) ({ base with ar := 0o123456 })) = some (0o27000, 0, false, 0o101) := by decide
/-- example of its rule. -/
theorem test_ica : regs (exec (.ica) ({ base with ar := 0o123456 })) = some (0o27247, 0, false, 0o101) := by decide
/-- R314. -/
theorem test_undefined_operate_stops : ended (exec (.undefinedOperate 0#10) base) = some (.stopped .rsrv, 0o101) := by decide
/-- R325. -/
theorem test_ocp_ignores_skip : ended (exec (.ocp 1#4 4#6) (withDevice true none 0 base)) = some (.running, 0o101) := by decide
/-- R326. -/
theorem test_sks : ended (exec (.sks 1#4 4#6) (withDevice true none 0 base)) = some (.running, 0o102) := by decide
/-- R324. -/
theorem test_ina : regs (exec (.ina true 0#3 4#6) (withDevice true none 0o101 base)) = some (0o101, 0, false, 0o102) := by decide
/-- R323, R327. -/
theorem test_ota_stop_after_skip : ended (exec (.ota 0#4 4#6) (withDevice true (some (.device 9)) 0 base)) = some (.stopped (.device 9), 0o102) := by decide
/-- R322. -/
theorem test_ocp_unregistered : ended (exec (.ocp 1#4 4#6) base) = some (.stopped .iodv, 0o101) := by decide
/-- R332. -/
theorem test_ina_bad_function : regs (exec (.ina true 0#3 0o20#6) ({ base with ar := 5 })) = some (0, 0, false, 0o101) := by decide
/-- R330. -/
theorem test_smk : (match exec .smk { base with ar := 0o40 } with | .next t => some t.intEnb | _ => none) = some 0o40 := by decide
/-- R331. -/
theorem test_otk : regs (exec .otk { base with ar := 0o100017 }) = some (0o100017, 0, true, 0o101) ∧
      count (exec .otk { base with ar := 0o100017 }) = some (0o100017, 0o17) := by decide

/-- The fetch-execute scenario of R380. -/
theorem test_step_fetches_and_executes :
    regs (step (put 0o10 0o123456 (put 1 0o004010 { State.reset with pc := 1 }))) = some (0o123456, 0, false, 2) := by
  decide

/-- `withFetchWord` places the word that the next step runs. -/
theorem test_withFetchWord_runs_the_word :
    modes (step (State.reset.withFetchWord 16 0o000013)) = some (true, false, false, false, true) := by decide

/-! ## Channels: one service (48_channels.md R362) -/

/-- DMA channel 0 on device 4, requested, with two answers ready. -/
def withDma (ad : Word) (wc : BitVec 15) (s : State) : State :=
  { withDevice true none 0o111 s with
    cfg := { s.cfg with registered := [4#6], chanMap := (Vector.replicate 20 none).set 0 (some 4#6) }
    deviceAnswers := (withDevice true none 0o111 s).deviceAnswers ++ (withDevice false none 0 s).deviceAnswers
    chanReq := 1, dma := (Vector.replicate 4 { ad := 0, wc := 0, eor := false }).set 0 ⟨ad, wc, false⟩ }

/-- DMC channel 0 on device 4, requested, with two answers ready and its block at 0o20. -/
def withDmc (start last : Word) (s : State) : State :=
  { put 0o20 start (put 0o21 last (withDma 0 0 s)) with
    cfg := { s.cfg with registered := [4#6], chanMap := (Vector.replicate 20 none).set 4 (some 4#6) }
    chanReq := 0o20 }

/-- The registers of DMA channel 0, the number of device calls and a memory word after the channel phase. -/
def served (a : Addr) : Phase → Option (DmaChannel × Nat × Word)
  | .go t => some (t.dma[0], t.deviceCalls.length, t.memRead a)
  | _ => none

theorem test_dma_moves_a_word :
    served 0o1000 (withDma 0o101000 3 base).serviceChannels = some (⟨0o101001, 2, false⟩, 1, 0o111) := by decide

theorem test_dma_ends_its_block :
    served 0o1002 (withDma 0o101002 1 base).serviceChannels = some (⟨0o101003, 0, true⟩, 2, 0o111) := by decide

theorem test_dmc_moves_a_word_and_ends :
    served 0o1000 (withDmc 0o101000 0o1000 base).serviceChannels = some (⟨0, 0, false⟩, 2, 0o111) ∧
      served 0o20 (withDmc 0o101000 0o1000 base).serviceChannels = some (⟨0, 0, false⟩, 2, 0o101001) := by decide

/-- Two DMA channels of device 4 and two answers with a skip; of channel 1 the request is either there, or raised by the
first answer. -/
def withTwo (requested raised : BitVec 20) : State :=
  let s := withDma 0o101000 3 base
  { s with
    cfg := { s.cfg with chanMap := s.cfg.chanMap.set 1 (some 4#6) }
    dma := s.dma.set 1 ⟨0o101100, 3, false⟩, chanReq := requested
    deviceAnswers := (withDevice true none 0o33 s).deviceAnswers.map (fun a =>
      { a with requests := { a.requests with chanSet := raised } }) ++ (withDevice true none 0o44 s).deviceAnswers }

/-- CH5, and the request raised during the scan (R351). -/
theorem test_two_channels_in_one_scan :
    served 0o1000 (withTwo 3 0).serviceChannels = some (⟨0o101001, 2, false⟩, 2, 0o33) ∧
      served 0o1100 (withTwo 3 0).serviceChannels = some (⟨0o101001, 2, false⟩, 2, 0o44) ∧
      served 0o1100 (withTwo 1 2).serviceChannels = some (⟨0o101001, 2, false⟩, 2, 0o44) := by decide

/-- Control words past the memory read 0 and are not written: an end word alone, then a whole block (R71, R72). -/
theorem test_dmc_block_past_the_memory :
    let s := withDmc 0 0 base
    served 0o77777 ({ s with cfg := { s.cfg with dmcBase := 0o77777 } } : State).serviceChannels =
      some (⟨0, 0, false⟩, 2, 1) ∧
    served 0o77776 ({ put 0o77776 7 s with
      chanReq := 0o40, cfg := { s.cfg with dmcBase := 0o77776, chanMap := s.cfg.chanMap.set 5 (some 4#6) } } :
        State).serviceChannels = some (⟨0, 0, false⟩, 2, 7) := by decide

/-- R315, law (c). -/
theorem test_gate_on_named_words :
    let s := { base with ar := 5, c := true, cfg := { Config.default with stopInst := false } }
    regs (exec (.undefinedOperate 0o1216#10) s) = some (6, 0, false, 0o101) ∧
      regs (exec (.undefinedOperate 0o0024#10) s) = some (0o100005, 0, true, 0o101) := by decide

/-- No well-formed undefined operate word is a named one. -/
theorem test_named_words_are_not_undefined :
    ∀ m : BitVec 10, (namedMeaning m).isSome = !(Instr.undefinedOperate m).wf := by decide

/-- R55, R451. -/
theorem test_reset_needs_a_stopped_cpu :
    base.apply .reset = none ∧ (({ base with run := .stopped .halt } : State).apply .reset).isSome = true := by decide

/-- A channel whose device requests an interrupt line that is enabled, with its vector, in the answer to the transfer. -/
def raisesInterrupt : State :=
  let s := put 0o63 0o400 (withDma 0o101000 3 base)
  { s with
    intOn := true, intNodef := true, intEnb := 4
    deviceAnswers := (withDevice true none 0o11 s).deviceAnswers.map fun a =>
      { a with requests := { a.requests with intSet := 4 } } }

/-- ML4. -/
theorem test_channel_request_interrupts_in_the_same_iteration :
    word 0o1000 (step raisesInterrupt) = some (0o11, 0o401) ∧ word 0o400 (step raisesInterrupt) = some (0o101, 0o401) := by
  decide

/-- A channel that moves an instruction word to PC: it is the one fetched (R361). -/
theorem test_channel_word_is_fetched_in_the_same_iteration :
    regs (step { withDma 0o100101 3 base with
      ar := 5, deviceAnswers := (withDevice true none 0o140024 base).deviceAnswers }) =
      some (0o100005, 0, false, 0o102) := by decide

theorem test_dmaer_ends_the_iteration :
    ended (step { withDma 0o101000 3 base with deviceAnswers := (withDevice false none 0 base).deviceAnswers }) =
      some (.stopped .dmaer, 0o101) := by decide

theorem test_interrupt_saves_pc_and_jumps_behind_the_link :
    word 0o1000 (step (put 0o63 0o1000 { base with intOn := true, intNodef := true, intReq := 4, intEnb := 4 })) =
      some (0o101, 0o1001) := by decide

/-! ## Witnesses: the hypotheses of each statement can be met -/

/-- A state in which an indirect chain does not end, in either mode. -/
def looping : State := put 0 0o100000 base

/-- An operand that begins the endless chain. -/
def loop : MemOp := op true false false 0

/-- A small memory, without the options. -/
def bare : State := { base with cfg := { Config.default with memSize := 16384, optExt := false, optHsa := false } }

theorem witness_DecodeEncodeRoundTrip :
    (Instr.dld (dir 1#9)).wf = true ∧ (Instr.dld (dir 1#9)).pickedUnder true = true ∧
      (Instr.lda (dir 1#9)).wf = true ∧ (Instr.lda (dir 1#9)).pickedUnder false = true := by decide

theorem witness_EveryWordIsOneInstruction :
    Instr.enb.wf = true ∧ Instr.enb.pickedUnder true = true ∧ encode .enb = 0o000401#16 := by decide

/-- No channel requested, and a channel served. -/
theorem witness_StepRunsDecodedInstruction :
    (∃ u, AfterChannels looping u ∧ ¬StandardReady u ∧ ¬ExtendedReady u ∧ u.pc ∉ u.cfg.execBkpt ∧
      decode u.dp (u.memRead u.pc) = .hlt 0#9) ∧
    ∃ u, AfterChannels (withDma 0o101000 3 base) u ∧ ¬StandardReady u ∧ ¬ExtendedReady u ∧ u.pc ∉ u.cfg.execBkpt ∧
      u.memRead 0o1000 = 0o111 := by
  constructor <;> refine ⟨_, ⟨rfl, rfl, rfl⟩, ?_⟩ <;> unfold ExtendedReady StandardReady <;> decide

theorem witness_StepKeepsInvariant : State.reset.Inv ∧ ∃ t, step State.reset = .next t :=
  ⟨⟨rfl, fun a h => absurd h (by show ¬32768 ≤ a.toNat; omega), rfl, rfl, rfl, by decide, by decide⟩, _, rfl⟩

/-- A state with a ready standard interrupt, a direct vector and a breakpoint at PC. -/
def stdPending : State :=
  put 0o63 0o1000
    { base with
      intOn := true, intNodef := true, intReq := 4, intEnb := 4, cfg := { Config.default with execBkpt := [0o101] } }

theorem witness_StandardInterruptTaken :
    (∃ u, AfterChannels stdPending u ∧ StandardReady u ∧ u.cfg.optExt = true ∧
      u.memRead u.cfg.stdVec = (0o1000#15).setWidth 16 ∧ 0o1000#15 ∉ u.cfg.writeBkpt) ∧
    ¬StandardReady raisesInterrupt ∧ ∃ u, AfterChannels raisesInterrupt u ∧ StandardReady u ∧ u.cfg.optExt = true ∧
      u.memRead u.cfg.stdVec = (0o400#15).setWidth 16 ∧ 0o400#15 ∉ u.cfg.writeBkpt := by
  refine ⟨⟨_, ⟨rfl, rfl, rfl⟩, ?_⟩, ?_, ⟨_, ⟨rfl, rfl, rfl⟩, ?_⟩⟩ <;> unfold StandardReady <;> decide

/-- A state with the extended lines 3, 7 and 15 ready. -/
def extPending : State := { base with intOn := true, intNodef := true, xintReq := 0x8088, xintEnb := 0x8088 }

theorem witness_ExtendedInterruptTaken :
    ∃ u, AfterChannels extPending u ∧ ExtendedReady u ∧
      (u.xintReq &&& u.xintEnb).getLsbD (3 : Fin 16).val = true ∧
      ∀ j : Fin 16, j < 3 → (u.xintReq &&& u.xintEnb).getLsbD j.val = false := by
  refine ⟨_, ⟨rfl, rfl, rfl⟩, ?_⟩
  unfold ExtendedReady StandardReady; decide

/-- An ENB with a request pending, and the state behind it, whose own channel phase has nothing to serve. -/
theorem witness_EnbDefersInterrupts :
    ∃ u t v, AfterChannels (put 0o101 0o000401 { base with intReq := 1, intEnb := 1, intNodef := true }) u ∧
      ¬StandardReady u ∧ ¬ExtendedReady u ∧ u.pc ∉ u.cfg.execBkpt ∧ decode u.dp (u.memRead u.pc) = .enb ∧
      step (put 0o101 0o000401 { base with intReq := 1, intEnb := 1, intNodef := true }) = .next t ∧
      AfterChannels t v ∧ v.pc ∉ v.cfg.execBkpt := by
  refine ⟨_, _, _, ⟨rfl, rfl, rfl⟩, ?_, ?_, ?_, ?_, rfl, ⟨rfl, rfl, rfl⟩, ?_⟩ <;>
    (try unfold ExtendedReady) <;> (try unfold StandardReady) <;> decide

theorem witness_FetchEdges :
    (∃ u, AfterChannels { base with cfg := { Config.default with execBkpt := [0o101] } } u ∧ ¬StandardReady u ∧
      ¬ExtendedReady u ∧ u.pc ∈ u.cfg.execBkpt) ∧
      ∃ u, AfterChannels { base with cfg := { Config.default with memSize := 0o101 } } u ∧ ¬StandardReady u ∧
        ¬ExtendedReady u ∧ u.pc ∉ u.cfg.execBkpt ∧ u.cfg.memSize ≤ u.pc.toNat := by
  constructor <;> refine ⟨_, ⟨rfl, rfl, rfl⟩, ?_⟩ <;> unfold ExtendedReady StandardReady <;> decide

theorem witness_StoppedCpuHasNoStep :
    ({ base with run := .stopped .halt } : State).run = .stopped .halt ∧
      let s := { base with cfg := { Config.default with memSize := 32769 } }
      s.run = .running ∧ s.cfg.wf = false := by decide

theorem witness_StartButtonCleared :
    ∃ s1 t, ({ base with intStart := true } : State).serviceChannels = .go s1 ∧
      step { base with intStart := true } = .next t := ⟨_, _, rfl, rfl⟩

theorem witness_StepKeepsConfigurationAndSwitches : ∃ t, step base = .next t := ⟨_, rfl⟩

theorem witness_WritersOfBrAndC :
    Instr.nop.wf = true ∧ (∃ t, exec .nop base = .next t) ∧ ¬MayWriteBr .nop ∧ ¬MayWriteC .nop :=
  ⟨rfl, ⟨_, rfl⟩, by simp [MayWriteBr], by simp [MayWriteC, Instr.cls]⟩

theorem witness_WritersOfModes :
    Instr.nop.wf = true ∧ (∃ t, exec .nop base = .next t) ∧ ¬MayWriteExtend .nop ∧ ¬MayWriteDp .nop ∧
      Instr.nop ≠ .smk :=
  ⟨rfl, ⟨_, rfl⟩, by simp [MayWriteExtend], by simp [MayWriteDp], by decide⟩

theorem witness_WritersOfMemory :
    (∃ t, exec (.sta (dir 0o17#9)) base = .next t) ∧ (∃ t, exec .nop base = .next t) ∧ ¬MayStore .nop ∧
      1 ≤ (1#15).toNat ∧ (1#15).toNat ≤ 0o17 ∧ 1 ≤ (0o17#15).toNat ∧ (0o17#15).toNat ≤ 0o17 :=
  ⟨⟨_, rfl⟩, ⟨_, rfl⟩, by simp [MayStore], by decide⟩

theorem witness_MemoryWriteGate :
    1 ≤ (1#15).toNat ∧ (0o17#15).toNat ≤ 0o17 ∧ bare.cfg.memSize ≤ (0o40000#15).toNat := by decide

theorem witness_XrIsTheShadowCell :
    (shadowAddress bare).toNat < bare.cfg.memSize ∧
      bare.cfg.memSize ≤ (shadowAddress { bare with pc := 0o40000 }).toNat := by
  unfold shadowAddress; decide

theorem witness_AddressesWrapInTheirBank : ({ base with ext := true } : State).ext = true ∧ base.ext = false := by decide

theorem witness_EffectiveAddressExtended :
    (let s := { looping with ext := true }
     let y : Nat → Word := fun _ => 0o100000
     s.ext = true ∧
      (y 0).toNat = (if loop.indirect then 32768 else 0) + loop.disp.toNat +
        (if loop.sector then (s.pc - 1).toNat / 512 * 512 else 0) ∧
      (∀ i, i < s.cfg.indMax → y (i + 1) = s.memRead ((y i).setWidth 15)) ∧
      ∀ i, i ≤ s.cfg.indMax → (y i).getLsbD 15 = true) ∧
    let s := put 0o200 0o300 { base with ext := true, cfg := { Config.default with indMax := 1 } }
    let i := op true true true 0o100#9
    let s := put 0o100 0o200 s
    let y : Nat → Word := fun n => if n = 0 then 0o100100 else 0o200
    s.ext = true ∧
      (y 0).toNat = (if i.indirect then 32768 else 0) + i.disp.toNat +
        (if i.sector then (s.pc - 1).toNat / 512 * 512 else 0) ∧
      (∀ k, k < s.cfg.indMax → y (k + 1) = s.memRead ((y k).setWidth 15)) ∧
      1 ≤ s.cfg.indMax ∧ (∀ k, k < 1 → (y k).getLsbD 15 = true) ∧ (y 1).getLsbD 15 = false := by decide

theorem witness_EffectiveAddressBanked :
    (let w : Nat → Word := fun _ => 0o100000
     let y : Nat → Addr := fun _ => 0
     looping.ext = false ∧
      (0o100000#16).toNat = (if loop.indirect then 32768 else 0) + loop.disp.toNat +
        (if loop.sector then (looping.pc - 1).toNat / 512 * 512 else 0) ∧
      (w 0).getLsbD 15 = loop.indirect ∧
      y 0 = looping.newa looping.pc (0o100000#16 + if loop.indexed then looping.xr else 0) ∧
      (∀ i, i < looping.cfg.indMax → w (i + 1) = looping.memRead (y i) ∧
        y (i + 1) = looping.newa (y i) (w (i + 1) + if (w (i + 1)).getLsbD 14 then looping.xr else 0)) ∧
      ∀ i, i ≤ looping.cfg.indMax → (w i).getLsbD 15 = true) ∧
    let s := put 0o101 0o200 (put 0 1 { base with cfg := { Config.default with indMax := 1 } })
    let i := op true true true 0o100#9
    let w : Nat → Word := fun n => if n = 0 then 0o100000 else 0o200
    let y : Nat → Addr := fun n => if n = 0 then 0o101 else 0o200
    s.ext = false ∧
      (0o100100#16).toNat = (if i.indirect then 32768 else 0) + i.disp.toNat +
        (if i.sector then (s.pc - 1).toNat / 512 * 512 else 0) ∧
      (w 0).getLsbD 15 = i.indirect ∧ y 0 = s.newa s.pc (0o100100#16 + if i.indexed then s.xr else 0) ∧
      (∀ k, k < s.cfg.indMax → w (k + 1) = s.memRead (y k) ∧
        y (k + 1) = s.newa (y k) (w (k + 1) + if (w (k + 1)).getLsbD 14 then s.xr else 0)) ∧
      1 ≤ s.cfg.indMax ∧ (∀ k, k < 1 → (w k).getLsbD 15 = true) ∧ (w 1).getLsbD 15 = false := by decide

/-- Both cases of a memory-reference statement: a chain that does not end, and an address. -/
theorem witness_LoadAndLogic : looping.ea loop = none ∧ base.ea (dir 0o200#9) = some 0o200 := by decide
theorem witness_AddAndSubtract : looping.ea loop = none ∧ base.ea (dir 0o200#9) = some 0o200 := by decide
theorem witness_StoreAndInterchange : looping.ea loop = none ∧ base.ea (dir 0o17#9) = some 0o17 := by decide
theorem witness_StoreAndLoadIndex :
    looping.ea (op true false false 0) = none ∧ base.ea (op false false true 0o200#9) = some 0o200 := by decide
theorem witness_JumpAndCompare : looping.ea loop = none ∧ base.ea (dir 0o200#9) = some 0o200 := by decide
theorem witness_JumpAndStore : looping.ea loop = none ∧ base.ea (dir 0o17#9) = some 0o17 := by decide
theorem witness_IncrementReplaceSkip : looping.ea loop = none ∧ base.ea (dir 0#9) = some 0 := by decide

theorem witness_Multiply :
    bare.cfg.optHsa = false ∧ looping.cfg.optHsa = true ∧ looping.ea loop = none ∧
      (let s := put 0o200 0o100000 { base with ar := 0o100000 }
       s.ea (dir 0o200#9) = some 0o200 ∧ s.ar.toInt * (s.memRead 0o200).toInt = 1073741824) ∧
      let s := put 0o200 3 { base with ar := 0o177776 }
      s.ea (dir 0o200#9) = some 0o200 ∧ s.ar.toInt * (s.memRead 0o200).toInt = -6 := by decide

/-- A divisor of 0, the largest quotient that fits and the least that does not, each with its quotient and remainder. -/
theorem witness_Divide :
    bare.cfg.optHsa = false ∧ looping.cfg.optHsa = true ∧ looping.ea loop = none ∧
      (base.ea (dir 0o200#9) = some 0o200 ∧ (base.memRead 0o200).toInt = 0) ∧
      (let s := put 0o200 1 { base with br := 0o77777 }
       s.ea (dir 0o200#9) = some 0o200 ∧ (s.memRead 0o200).toInt = 1 ∧
        s.ar.toInt * 32768 + (s.br.toNat % 32768 : Nat) = 32767 ∧ (32767 : Int) = 32767 * 1 + 0 ∧
        (0 : Int).natAbs < (1 : Int).natAbs ∧ (0 : Int) ≤ 0 * 32767) ∧
      let s := put 0o200 0o177776 { base with ar := 0o177775, br := 0o177777 }
      s.ea (dir 0o200#9) = some 0o200 ∧ (s.memRead 0o200).toInt = -2 ∧
        s.ar.toInt * 32768 + (s.br.toNat % 32768 : Nat) = -65537 ∧ (-65537 : Int) = 32768 * -2 + -1 ∧
        (-1 : Int).natAbs < (-2 : Int).natAbs ∧ (0 : Int) ≤ -1 * -65537 := by decide

theorem witness_DoubleLoadAndAdd :
    looping.ea loop = none ∧ base.ea (dir 0o200#9) = some 0o200 ∧ (0o200#15).getLsbD 0 = false := by decide
theorem witness_DoubleStore :
    looping.ea loop = none ∧ base.ea (dir 0o200#9) = some 0o200 ∧ (0o200#15).getLsbD 0 = false := by decide

theorem witness_OddDoubleAddress :
    base.ea (dir 0o201#9) = some 0o201 ∧ (0o201#15).getLsbD 0 = true ∧ base.cfg.dpOdd = .fault ∧
      0o201#15 &&& 0o77776#15 = 0o200#15 ∧ 0o201#15 ||| 1#15 = 0o201#15 ∧
      let s := { base with cfg := { Config.default with dpOdd := .pair } }
      s.ea (dir 0o201#9) = some 0o201 ∧ s.cfg.dpOdd = .pair := by decide

theorem witness_Normalize : bare.cfg.optHsa = false ∧ base.cfg.optHsa = true := by decide

theorem witness_ControlWordsCombine :
    ∀ k, (fun n => (0o777#9).getLsbD (n - 1)) (k + 1) = (0o777#9).getLsbD k := fun _ => rfl

theorem witness_LogicalShifts : (1#6) ≠ 0 ∧ (63#6) ≠ 0 := by decide
theorem witness_Rotates : (1#6) ≠ 0 ∧ (32#6) ≠ 0 := by decide
theorem witness_ArithmeticRightShifts : (1#6) ≠ 0 ∧ (31#6) ≠ 0 := by decide
theorem witness_ArithmeticLeftShifts : (1#6) ≠ 0 ∧ (63#6) ≠ 0 := by decide
theorem witness_ShiftsByZero : Instr.als 0 ∈ [Instr.lrl 0, .als 0] := by decide

theorem witness_SkipWordsCombine :
    (∃ b : Fin 9, (0o003#9).getLsbD b.val = true ∧ conditionHolds { base with ss4 := true } b = true) ∧
      ∀ b : Fin 9, (0o003#9).getLsbD b.val = true → conditionHolds base b = false := by decide

theorem witness_UndefinedOperateWords :
    base.cfg.stopInst = true ∧ Instr.aca.cls = .operate ∧ (encode .aca).extractLsb' 0 10 = 0o1216#10 ∧
      ({ base with cfg := { Config.default with stopInst := false } } : State).cfg.stopInst = false := by decide

theorem witness_IoWithoutDevice :
    (4#6) ≠ 0o20#6 ∧ 4#6 ∉ base.cfg.registered ∧ (1#4) ≠ 0#4 ∧ (1#4) ≠ 0o10#4 := by decide

theorem witness_IoToRegisteredDevice :
    (4#6) ≠ 0o20#6 ∧ 4#6 ∈ (withDevice true none 0 base).cfg.registered := by decide

theorem witness_SetMaskAndKeys : ∃ keys : State, keys = { base with c := base.ar.getLsbD 15 } := ⟨_, rfl⟩

/-- What the channel statements ask of the answer to a transfer: a skip and no stop. -/
def goodAnswer : List DeviceAnswer → Bool
  | a :: _ => a.reply.skip && a.reply.stop.isNone
  | _ => false

theorem witness_DmaTransfersOneWord :
    (let s := withDma 0o101000 3 base
     s.cfg.chanMap[(0 : Fin 20)] = some 4#6 ∧ (4#6) ≠ 0o20#6 ∧ 4#6 ∈ s.cfg.registered ∧
      goodAnswer s.deviceAnswers = true ∧ s.dma[0].wc ≠ 1 ∧ WithoutRequest s 0 0 ∧
      s.chanReq.getLsbD (0 : Fin 20).val = true ∧ NoRequest s 0 (0 : Fin 20).val) ∧
      let s := withDma 0o1000 1 base
      s.cfg.chanMap[(0 : Fin 20)] = some 4#6 ∧ goodAnswer s.deviceAnswers = true ∧ s.dma[0].wc = 1 ∧
        s.deviceAnswers.length = 2 ∧ WithoutRequest s 0 0 := by
  unfold WithoutRequest NoRequest; decide

theorem witness_DmcTransfersOneWord :
    (let s := withDmc 0o101000 0o1001 base
     s.cfg.chanMap[(4 : Fin 20)] = some 4#6 ∧ 4#6 ∈ s.cfg.registered ∧ goodAnswer s.deviceAnswers = true ∧
      0o20 = s.cfg.dmcBase.toNat + 2 * ((4 : Fin 20).val - 4) ∧ WithoutRequest s 4 0 ∧
      (controlWordAt s 0o20).toNat % 32768 ≠ (controlWordAt s (0o20 + 1)).toNat % 32768) ∧
    (let s := withDmc 0o101000 0o1000 base
     goodAnswer s.deviceAnswers = true ∧ s.deviceAnswers.length = 2 ∧ WithoutRequest s 4 0 ∧
      (controlWordAt s 0o20).toNat % 32768 = (controlWordAt s (0o20 + 1)).toNat % 32768) ∧
      let s := withDmc 0 0 base
      let s := { s with cfg := { s.cfg with dmcBase := 0o77777 } }
      s.cfg.chanMap[(4 : Fin 20)] = some 4#6 ∧ 32767 = s.cfg.dmcBase.toNat + 2 * ((4 : Fin 20).val - 4) ∧
        controlWordAt s (32767 + 1) = 0 := by
  unfold WithoutRequest; decide

/-- Channels 0 and 19 requested: no device mapped; a device that answers without a skip, and one with a skip and a stop;
the stub; device 0o20; and a stop of the phase. -/
theorem witness_ChannelFailures :
    (let s := { base with chanReq := 0x80001 }
     s.run = .running ∧ s.cfg.wf = true ∧ s.chanReq.getLsbD (0 : Fin 20).val = true ∧
      NoRequest s 0 (0 : Fin 20).val ∧ WithoutRequest s 0 0x80000 ∧ s.cfg.chanMap[(0 : Fin 20)] = none) ∧
    (let s := { withDma 0o101000 3 base with deviceAnswers := (withDevice false none 0 base).deviceAnswers }
     s.run = .running ∧ s.cfg.wf = true ∧ s.chanReq.getLsbD (0 : Fin 20).val = true ∧ WithoutRequest s 0 0 ∧
      s.cfg.chanMap[(0 : Fin 20)] = some 4#6 ∧ 4#6 ∈ s.cfg.registered ∧
      (s.deviceAnswers.head?.map fun a => a.reply.skip) = some false) ∧
    (let s :=
      { withDma 0o101000 3 base with deviceAnswers := (withDevice true (some (.device 7)) 0 base).deviceAnswers }
     s.cfg.wf = true ∧ s.cfg.chanMap[(0 : Fin 20)] = some 4#6 ∧ 4#6 ∈ s.cfg.registered ∧
      (s.deviceAnswers.head?.map fun a => (a.reply.skip, a.reply.stop)) = some (true, some (.device 7))) ∧
    (let k := { Config.default with chanMap := (Vector.replicate 20 none).set 19 (some 5#6) }
     let s := { base with chanReq := 0x80000, cfg := k }
     s.cfg.wf = true ∧ s.chanReq.getLsbD (19 : Fin 20).val = true ∧ NoRequest s 0 (19 : Fin 20).val ∧
      WithoutRequest s 19 0 ∧ s.cfg.chanMap[(19 : Fin 20)] = some 5#6 ∧ 5#6 ∉ s.cfg.registered) ∧
    let k := { Config.default with chanMap := (Vector.replicate 20 none).set 0 (some 0o20#6) }
    let s := { withDma 0o101000 3 base with cfg := k }
    s.cfg.wf = true ∧ s.cfg.chanMap[(0 : Fin 20)] = some 0o20#6 ∧ (startWord s 0).getLsbD 15 = true := by
  unfold NoRequest WithoutRequest; decide

/-- An end-of-range call whose answer has a stop reason stops the phase (CH12). -/
def endStops : State :=
  { withDma 0o101000 1 base with
    deviceAnswers := (withDevice true none 0o11 base).deviceAnswers ++
      (withDevice true (some (.device 7)) 0 base).deviceAnswers }

/-- CH12: the bookkeeping is done, then the iteration stops. -/
theorem test_end_call_stops_after_the_bookkeeping :
    (match step endStops with
      | .next t => some (t.dma[0], t.run, t.pc)
      | _ => none) = some (⟨0o101001, 0, true⟩, .stopped (.device 7), 0o101) := by decide

theorem witness_ChannelFailures_halt : ∃ t, endStops.serviceChannels = .halt t := ⟨_, rfl⟩

/-- Both ways to two channels in one scan: requested from the start, and raised during the scan. -/
theorem witness_ChannelsKeepTheRegisters :
    (∀ p ∈ [((3 : BitVec 20), (0 : BitVec 20)), (1, 2)], ∃ u t,
      (withTwo p.1 p.2).chanReq.getLsbD (0 : Fin 20).val = true ∧ NoRequest (withTwo p.1 p.2) 0 (0 : Fin 20).val ∧
        (withTwo p.1 p.2).serviceChannel 0 = .go u ∧ NoRequest u ((0 : Fin 20).val + 1) (1 : Fin 20).val ∧
        u.chanReq.getLsbD (1 : Fin 20).val = true ∧ u.serviceChannel 1 = .go t ∧
        NoRequest t ((1 : Fin 20).val + 1) 20 ∧ ServesInTurn (withTwo p.1 p.2) 0 [0, 1] t 20) ∧
      ∃ t, endStops.serviceChannels = .halt t := by
  constructor
  · intro p hp
    simp only [List.mem_cons, List.not_mem_nil, or_false] at hp
    rcases hp with rfl | rfl
    · have h0 : ∃ u, (withTwo 3 0).serviceChannel 0 = .go u ∧ ∃ t, u.serviceChannel 1 = .go t ∧
          NoRequest u 1 1 ∧ u.chanReq.getLsbD 1 = true ∧ NoRequest t 2 20 :=
        ⟨_, rfl, _, rfl, by unfold NoRequest; decide, by decide, by unfold NoRequest; decide⟩
      obtain ⟨u, hu, t, ht, h1, h2, h3⟩ := h0
      have hn : NoRequest (withTwo 3 0) 0 0 := by intro i _ h; omega
      exact ⟨u, t, by decide, hn, hu, h1, h2, ht, h3,
        ⟨by decide, hn, by decide, u, hu, by decide, h1, h2, t, ht, by decide, h3, rfl⟩⟩
    · have h0 : ∃ u, (withTwo 1 2).serviceChannel 0 = .go u ∧ ∃ t, u.serviceChannel 1 = .go t ∧
          NoRequest u 1 1 ∧ u.chanReq.getLsbD 1 = true ∧ NoRequest t 2 20 :=
        ⟨_, rfl, _, rfl, by unfold NoRequest; decide, by decide, by unfold NoRequest; decide⟩
      obtain ⟨u, hu, t, ht, h1, h2, h3⟩ := h0
      have hn : NoRequest (withTwo 1 2) 0 0 := by intro i _ h; omega
      exact ⟨u, t, by decide, hn, hu, h1, h2, ht, h3,
        ⟨by decide, hn, by decide, u, hu, by decide, h1, h2, t, ht, by decide, h3, rfl⟩⟩
  · exact ⟨_, rfl⟩

theorem witness_ResetClears :
    ({ base with run := .stopped .halt } : State).run = .stopped .halt ∧ base.run = .running := by decide

theorem witness_AgentsKeepTheRegisters :
    base.run = .running ∧ ∃ t, base.apply .pressStart = some t :=
  ⟨rfl, _, rfl⟩

end Sys2Proof.Tests
end

/-! ## When an iteration does not begin: a stopped CPU and a configuration outside its ranges -/

namespace Sys2Proof.Machine

theorem step_of_stopped {s : State} {reason : StopReason} (hrun : s.run = .stopped reason) :
    step s = .fault .cpuStopped := by
  simp only [step, hrun]

theorem step_of_badConfiguration {s : State} (hrun : s.run = .running) (hcfg : s.cfg.wf = false) :
    step s = .refused .badConfiguration := by
  simp only [step, hrun, hcfg, Bool.false_eq_true, if_false]

/-- Settles O12: the two answers `step` gives before its channel phase, one for each clause. -/
theorem stoppedCpuHasNoStep : Obligations.StoppedCpuHasNoStep := by
  intro s
  constructor
  · intro reason hrun
    exact step_of_stopped hrun
  · intro hrun hcfg
    exact step_of_badConfiguration hrun hcfg

end Sys2Proof.Machine

/-! ## What each instruction may write, and what every iteration keeps -/

namespace Sys2Proof.Machine

/-- The instructions whose meaning makes the call that sets INT_ENB: SMK and, not a well-formed instruction, the
output it abbreviates (47_io.md R330). -/
def SetsMask (i : Instr) : Prop := i = .smk ∨ i = .ota 0#4 cpuDevice

/-- The instructions whose meaning makes the call that sets the keys: OTK and, not a well-formed instruction, the output
it abbreviates (47_io.md R331). -/
def SetsKeys (i : Instr) : Prop := i = .otk ∨ i = .ota 0o10#4 cpuDevice

theorem eq_smk_of_setsMask {i : Instr} (hw : i.wf = true) : SetsMask i → i = .smk := by
  rintro (rfl | rfl)
  · rfl
  · exact absurd hw (by decide)

theorem eq_otk_of_setsKeys {i : Instr} (hw : i.wf = true) : SetsKeys i → i = .otk := by
  rintro (rfl | rfl)
  · rfl
  · exact absurd hw (by decide)

/-- P outlives every write that instruction i makes (10_state.md R30 to R52). A mode is set only where it was set or
its option is there. Each field has a default for a P that does not speak of what the field writes. -/
structure InstrKeeps (i : Instr) (P : State → Prop) : Prop where
  common : ∀ (t : State) (a : Word) (p : Addr) (q : BitVec 6) (r : BitVec 16) (on nodef : Bool) (w : Run) (d : Nat),
    P t → P { t with
      ar := a, pc := p, sc := q, intReq := r, intOn := on, intNodef := nodef, run := w, draws := d } := by
    intros; assumption
  br : MayWriteBr i → ∀ (t : State) (b : Word), P t → P { t with br := b } := by intros; assumption
  c : MayWriteC i → ∀ (t : State) (c : Bool), P t → P { t with c := c } := by intros; assumption
  extend : MayWriteExtend i → ∀ (t : State) (e x : Bool),
    (e = true ∨ x = true → t.ext = true ∨ t.cfg.optExt = true) →
      P t → P { t with ext := e, extoff := x } := by intros; assumption
  dp : MayWriteDp i → ∀ (t : State) (v : Bool), (v = true → t.cfg.optHsa = true) →
    P t → P { t with dp := v } := by intros; assumption
  store : MayStore i → ∀ (t : State) (a : Addr) (v : Word), P t → P (t.memWrite a v) := by intros; assumption
  setXr : MayStore i → ∀ (t : State) (v : Word), P t → P (t.setXr v) := by intros; assumption
  answer : ∀ (t : State) (k : IoCall), P t → P (t.afterAnswer k) := by intros; assumption
  mask : SetsMask i → ∀ (t : State) (v : Word), P t → P (t.setMask v) := by intros; assumption
  keys : SetsKeys i → ∀ (t : State) (v : Word), P t → P (t.setKeys v) := by intros; assumption

/-! ### The shapes a meaning has -/

section Shapes

variable {i : Instr} {P : State → Prop} {s : State}

theorem InstrKeeps.stop (h : InstrKeeps i P) (hs : P s) (r : StopReason) : P (s.stop r) :=
  h.common s _ _ _ _ _ _ _ _ hs

theorem InstrKeeps.stopOn (h : InstrKeeps i P) (hs : P s) (r : Option StopReason) : P (s.stopOn r) :=
  h.common s _ _ _ _ _ _ _ _ hs

theorem InstrKeeps.skipIf (h : InstrKeeps i P) (hs : P s) (cond : Bool) : P (s.skipIf cond) :=
  h.common s _ _ _ _ _ _ _ _ hs

theorem InstrKeeps.setAr (h : InstrKeeps i P) (hs : P s) (a : Word) : P { s with ar := a } :=
  h.common s _ _ _ _ _ _ _ _ hs

/-- AR, BR, C and SC together: what the arithmetic, the shifts and the operate words write. -/
theorem InstrKeeps.arithmetic (h : InstrKeeps i P) (hs : P s) {b : Word} {c : Bool} (hb : b = s.br ∨ MayWriteBr i)
    (hc : c = s.c ∨ MayWriteC i) (a : Word) (q : BitVec 6) (d : Nat) :
    P { s with ar := a, br := b, c := c, sc := q, draws := d } := by
  have hbr : P { s with br := b } := by
    rcases hb with rfl | hb
    · exact hs
    · exact h.br hb s b hs
  have hbrc : P { s with br := b, c := c } := by
    rcases hc with rfl | hc
    · exact hbr
    · exact h.c hc _ c hbr
  exact h.common _ _ _ _ _ _ _ _ _ hbrc

theorem InstrKeeps.jump (h : InstrKeeps i P) (hi : MayWriteExtend i) (hs : P s) (y : Word) : P (s.jump y) := by
  have hext : P { s with ext := s.ext && !s.extoff, extoff := false } :=
    h.extend hi s _ _ (by simp_all) hs
  exact h.common _ _ _ _ _ _ _ _ _ hext

theorem InstrKeeps.regularShift (h : InstrKeeps i P) (hs : P s) (hc : MayWriteC i) {step : ShiftRegs → ShiftRegs}
    (hb : (∀ r, (step r).br = r.br) ∨ MayWriteBr i) (n : BitVec 6) : NextHolds P (.next (s.regularShift step n)) := by
  have keepsBr : (repeatStep step n.toNat s.shiftRegs).br = s.br ∨ MayWriteBr i :=
    hb.imp_left fun hstep =>
      repeatStep_induct (fun r => r.br = s.br) (fun r hr => (hstep r).trans hr) n.toNat rfl
  rw [State.regularShift_eq]
  exact h.arithmetic hs keepsBr (.inr hc) _ _ _

theorem InstrKeeps.arithmeticLeft (h : InstrKeeps i P) (hs : P s) (hc : MayWriteC i) {step : ShiftRegs → ShiftRegs}
    (hb : (∀ r, (step r).br = r.br) ∨ MayWriteBr i) (n : BitVec 6) : NextHolds P (.next (s.arithmeticLeft step n)) := by
  have keepsBr : (repeatStep step n.toNat { s.shiftRegs with c := false }).br = s.br ∨ MayWriteBr i :=
    hb.imp_left fun hstep =>
      repeatStep_induct (fun r => r.br = s.br) (fun r hr => (hstep r).trans hr) n.toNat rfl
  rw [State.arithmeticLeft_eq]
  exact h.arithmetic hs keepsBr (.inr hc) _ _ _

/-- A device call of an instruction. -/
theorem InstrKeeps.afterIo (h : InstrKeeps i P) (hs : P s) {k : IoCall}
    (hmask : k.dev = cpuDevice → k.op = .ota → k.fnc = 0#4 → SetsMask i)
    (hkeys : k.dev = cpuDevice → k.op = .ota → k.fnc = 0o10#4 → SetsKeys i) : P (s.afterIo k) := by
  unfold State.afterIo State.cpuDeviceState
  split_ifs with hdev hm hk hreg
  · exact h.mask (hmask hdev hm.1 hm.2) s _ hs
  · exact h.keys (hkeys hdev hk.1 hk.2) s _ hs
  · exact hs
  · exact h.answer s k hs
  · exact hs

theorem InstrKeeps.outputAr (h : InstrKeeps i P) (hs : P s) {fnc : BitVec 4} {dev : DevNum}
    (hmask : dev = cpuDevice → fnc = 0#4 → SetsMask i) (hkeys : dev = cpuDevice → fnc = 0o10#4 → SetsKeys i) :
    NextHolds P (outputAr fnc dev s) :=
  h.stopOn (h.skipIf (h.afterIo hs (fun hd _ => hmask hd) fun hd _ => hkeys hd) _) _

theorem ControlRun.onBit_keeps {r : ControlRun} {bit : Bool} {body : ControlRun → ControlRun} (hr : P r.state)
    (hbody : bit = true → P r.state → P (body r).state) : P (r.onBit bit body).state := by
  cases bit with
  | false => exact hr
  | true => exact hbody rfl hr

theorem ControlRun.gated_keeps {r : ControlRun} {option : Bool} {body : State → State} (hr : P r.state)
    (hbody : option = true → P (body r.state)) : P (r.gated option body).state := by
  cases option with
  | false => exact hr
  | true => exact hbody rfl

theorem InstrKeeps.exclusive (h : InstrKeeps i P) {r : ControlRun} (hr : P r.state) (m : BitVec 10)
    (hbr : m.getLsbD 6 = true ∨ m.getLsbD 7 = true → MayWriteBr i) : P (r.exclusive m).state := by
  unfold ControlRun.exclusive ControlRun.readback
  split_ifs with h5 h1 h6 h7
  · exact h.setAr hr _
  · exact ControlRun.gated_keeps hr fun _ => h.setAr hr _
  · exact ControlRun.gated_keeps hr fun _ => h.arithmetic hr (.inr (hbr (.inl h6))) (.inl rfl) _ _ _
  · exact h.arithmetic hr (.inr (hbr (.inr h7))) (.inl rfl) _ _ _
  · exact hr

/-- A control word writes BR, the extend mode and DP only under the bits that ask for it (43_control.md R211). -/
theorem InstrKeeps.controlWord (h : InstrKeeps i P) (hs : P s) {m : BitVec 10}
    (hbr : m.getLsbD 6 = true ∨ m.getLsbD 7 = true → MayWriteBr i) (hext : m.getLsbD 3 = true → MayWriteExtend i)
    (hdp : m.getLsbD 2 = true → MayWriteDp i) : NextHolds P (controlWord m s) := by
  have hops : P (controlOps m s).state := by
    unfold controlOps
    refine ControlRun.onBit_keeps (ControlRun.onBit_keeps (h.exclusive (ControlRun.onBit_keeps
      (ControlRun.onBit_keeps (ControlRun.onBit_keeps hs ?precision) ?extend) ?parity) m hbr) ?enable) ?inhibit
    case precision => exact fun h2 ht => ControlRun.gated_keeps ht fun ho => h.dp (hdp h2) _ _ (fun _ => ho) ht
    case extend =>
      exact fun h3 ht => ControlRun.gated_keeps ht fun ho => h.extend (hext h3) _ _ _ (fun _ => .inr ho) ht
    all_goals exact fun _ ht => h.common _ _ _ _ _ _ _ _ _ ht
  exact nextHolds_controlWord m s hops fun ht => h.stopOn ht _

end Shapes

/-- Every instruction keeps what outlives the writes it may make: the one case split over the instructions. -/
theorem exec_keeps {i : Instr} {P : State → Prop} (h : InstrKeeps i P) {s : State} (hs : P s) :
    NextHolds P (exec i s) := by
  have hind := h.stop hs .ind
  cases i with
  | jmp op => exact nextHolds_withEa s op _ hind fun y _ => h.jump (by simp [MayWriteExtend]) hs _
  | lda op | ana op | era op => exact nextHolds_withEa s op _ hind fun y _ => h.setAr hs _
  | dld op =>
    unfold exec execDld
    exact nextHolds_withPair s .dld op _ hind fun y z =>
      h.arithmetic hs (.inr (by simp [MayWriteBr])) (.inl rfl) _ _ _
  | dad op =>
    unfold exec execDad
    exact nextHolds_withPair s .dad op _ hind fun y z =>
      h.arithmetic hs (.inr (by simp [MayWriteBr])) (.inr (by simp [MayWriteC])) _ _ _
  | dsb op =>
    unfold exec execDsb
    exact nextHolds_withPair s .dsb op _ hind fun y z =>
      h.arithmetic hs (.inr (by simp [MayWriteBr])) (.inr (by simp [MayWriteC])) _ _ _
  | dst op =>
    unfold exec execDst
    refine nextHolds_withPair s .dst op _ hind fun y z => ?_
    have h1 := h.store (by simp [MayStore]) s y s.ar hs
    have h2 := h.store (by simp [MayStore]) _ z s.br h1
    exact nextHolds_storeThen _ _ _ _ (h.stop h1 _)
      (nextHolds_storeThen _ _ _ _ (h.stop h2 _) (h.common _ _ _ _ _ _ _ _ _ h2))
  | add op | sub op =>
    exact nextHolds_withEa s op _ hind fun y _ => h.arithmetic hs (.inl rfl) (.inr (by simp [MayWriteC])) _ _ _
  | sta op =>
    refine nextHolds_withEa s op _ hind fun y _ => ?_
    have h1 := h.store (by simp [MayStore]) s y s.ar hs
    exact nextHolds_storeThen _ _ _ _ (h.stop h1 _) h1
  | stx op =>
    refine nextHolds_withEa s op.toMemOp _ hind fun y _ => ?_
    have h1 := h.store (by simp [MayStore]) s y s.xr hs
    exact nextHolds_storeThen _ _ _ _ (h.stop h1 _) h1
  | jst op =>
    refine nextHolds_withEa s op _ hind fun y _ => ?_
    have h1 := h.store (by simp [MayStore]) s y (s.linkWord y) hs
    exact nextHolds_storeThen _ _ _ _ (h.stop h1 _) (h.jump (by simp [MayWriteExtend]) h1 _)
  | irs op =>
    refine nextHolds_withEa s op _ hind fun y _ => ?_
    have h1 := h.store (by simp [MayStore]) s y (s.memRead y + 1) hs
    exact nextHolds_storeThen _ _ _ _ (h.stop h1 _) (h.skipIf h1 _)
  | ima op =>
    refine nextHolds_withEa s op _ hind fun y _ => ?_
    have h1 := h.store (by simp [MayStore]) s y s.ar hs
    exact nextHolds_storeThen _ _ _ _ (h.stop h1 _) (h.setAr h1 _)
  | cas op =>
    refine nextHolds_withEa s op _ hind fun y _ => ?_
    split_ifs <;> exact h.common s _ _ _ _ _ _ _ _ hs
  | mpy op =>
    exact nextHolds_needsHsa s _ (h.stopOn hs _) fun _ => nextHolds_withEa s op _ hind fun y _ =>
      h.arithmetic hs (.inr (by simp [MayWriteBr])) (.inr (by simp [MayWriteC])) _ _ _
  | div op =>
    refine nextHolds_needsHsa s _ (h.stopOn hs _) fun _ => nextHolds_withEa s op _ hind fun y _ => ?_
    unfold State.divide
    split_ifs <;> exact h.arithmetic hs (.inr (by simp [MayWriteBr])) (.inr (by simp [MayWriteC])) _ _ _
  | ldx op => exact nextHolds_withEa s op.toMemOp _ hind fun y _ => h.setXr (by simp [MayStore]) s _ hs
  | hlt => exact h.stop hs _
  | controlMicro | sgl | dbl | dxa | exa | rmp | sca | ink | nrm | iab | enb | inh =>
    exact h.controlWord hs (by simp [MayWriteBr]) (by simp [MayWriteExtend]) (by simp [MayWriteDp])
  | lrl n | lrs n | lrr n | lll n | llr n =>
    exact h.regularShift hs (by simp [MayWriteC, Instr.cls]) (.inr (by simp [MayWriteBr])) n
  | lgr n | ars n | arr n | lgl n | alr n =>
    refine h.regularShift hs (by simp [MayWriteC, Instr.cls]) (.inl ?_) n
    exact fun _ => rfl
  | lls n => exact h.arithmeticLeft hs (by simp [MayWriteC, Instr.cls]) (.inr (by simp [MayWriteBr])) n
  | als n =>
    refine h.arithmeticLeft hs (by simp [MayWriteC, Instr.cls]) (.inl ?_) n
    exact fun _ => rfl
  | quirk3 n | quirk13 n =>
    exact h.arithmetic hs (.inr (by simp [MayWriteBr])) (.inr (by simp [MayWriteC, Instr.cls])) _ _ _
  | quirk7 n | quirk17 n =>
    exact h.arithmetic hs (.inl rfl) (.inr (by simp [MayWriteC, Instr.cls])) _ _ _
  | skip | skp | nop | ssc | src | ss1 | sr1 | ss2 | sr2 | ss3 | sr3 | ss4 | sr4 | sss | ssr | snz | sze | sln | slz
  | sps | spn | smi | spl => exact h.skipIf hs _
  | chs | cra | ssp | rcb | csa | cma | tca | ssm | scb | car | cal | icl | aoa | aca | icr | ica =>
    exact h.arithmetic hs (.inl rfl) (.inr (by simp [MayWriteC, Instr.cls])) _ _ _
  | undefinedOperate bits =>
    obtain ⟨a, c, q, hgate⟩ := s.operateGate_frame bits
    show NextHolds P (if s.cfg.stopInst then .next (s.stop .rsrv) else s.operateGate bits)
    split_ifs
    · exact h.stop hs _
    · rw [hgate]
      exact h.arithmetic hs (.inl rfl) (.inr (by simp [MayWriteC, Instr.cls])) _ _ _
  | ocp fnc dev => exact h.stopOn (h.afterIo hs (by simp) (by simp)) _
  | sks fnc dev => exact h.stopOn (h.skipIf (h.afterIo hs (by simp) (by simp)) _) _
  | ina clear fnc dev =>
    have hclear : P (s.clearAr clear) := h.setAr hs _
    exact h.stopOn (h.skipIf (h.setAr (h.afterIo hclear (by simp) (by simp)) _) _) _
  | ota fnc dev => exact h.outputAr hs (by simp +contextual [SetsMask]) (by simp +contextual [SetsKeys])
  | smk => exact h.outputAr hs (fun _ _ => .inl rfl) (fun _ => by simp)
  | otk => exact h.outputAr hs (fun _ => by simp) (fun _ _ => .inl rfl)

/-! ### Writers of registers -/

/-- Settles O15: whatever does not speak of BR, or of C, outlives every instruction that may not write it. -/
theorem writersOfBrAndC : Obligations.WritersOfBrAndC := by
  intro i s t hw hnext
  refine ⟨fun hbr => ?_, fun hc => ?_⟩
  · have keeps : InstrKeeps i fun u => u.br = s.br := { br := fun h => absurd h hbr }
    exact nextHolds_of_eq (exec_keeps keeps rfl) hnext
  · have keeps : InstrKeeps i fun u => u.c = s.c :=
      { c := fun h => absurd h hc
        keys := fun h => absurd (.inr (.inr (.inr (eq_otk_of_setsKeys hw h)))) hc }
    exact nextHolds_of_eq (exec_keeps keeps rfl) hnext

/-- Settles O16: whatever does not speak of a mode or of INT_ENB outlives every instruction that may not write it, and
PME, the DMA registers and INT_START outlive every instruction. -/
theorem writersOfModes : Obligations.WritersOfModes := by
  intro i s t hw hnext
  have otk : SetsKeys i → i = .otk := eq_otk_of_setsKeys hw
  have untouched : InstrKeeps i fun u => u.pme = s.pme ∧ u.dma = s.dma ∧ u.intStart = s.intStart := {}
  refine ⟨fun hext => ?_, fun hdp => ?_, fun hsmk => ?_, nextHolds_of_eq (exec_keeps untouched ⟨rfl, rfl, rfl⟩) hnext⟩
  · have keeps : InstrKeeps i fun u => u.ext = s.ext ∧ u.extoff = s.extoff :=
      { extend := fun h => absurd h hext
        keys := fun h => absurd (.inr (.inr (.inl (otk h)))) hext }
    exact nextHolds_of_eq (exec_keeps keeps ⟨rfl, rfl⟩) hnext
  · have keeps : InstrKeeps i fun u => u.dp = s.dp :=
      { dp := fun h => absurd h hdp
        keys := fun h => absurd (.inr (.inr (.inl (otk h)))) hdp }
    exact nextHolds_of_eq (exec_keeps keeps rfl) hnext
  · have keeps : InstrKeeps i fun u => u.intEnb = s.intEnb :=
      { mask := fun h => absurd (eq_smk_of_setsMask hw h) hsmk }
    exact nextHolds_of_eq (exec_keeps keeps rfl) hnext

/-! ### Iterations -/

/-- P holds of the state that phases 2 and 3 of an iteration lead to. -/
def FetchHolds (P : State → Prop) : Fetch → Prop
  | .execute _ t => P t
  | .halt t => P t

/-- P outlives every write that an iteration makes: those of each instruction, of the channel engine, and of the
interrupt check and the fetch (49_main_loop.md R370). The defaults are as in `InstrKeeps`. -/
structure StepKeeps (P : State → Prop) : Prop where
  instr : ∀ i, InstrKeeps i P := by exact fun _ => {}
  setCell : ∀ (t : State) (a : Addr) (v : Word), P t → P (t.setCell a v) := by intros; assumption
  dma : ∀ (t : State) (d : Vector DmaChannel 4), P t → P { t with dma := d } := by intros; assumption
  clearChannel : ∀ (t : State) (j : Fin 20), P t → P (t.clearChannel j) := by intros; assumption
  clearStart : ∀ t : State, P t → P t.clearStart := by intros; assumption
  clearLine : ∀ (t : State) (j : Fin 16), P t → P (t.clearLine j) := by intros; assumption
  interruptEntry : ∀ t : State, P t → P t.interruptEntry := by intros; assumption

section Iterations

variable {P : State → Prop} {s : State}

/-- Any device call is one that some output instruction makes, or writes no register. -/
theorem StepKeeps.afterIo (h : StepKeeps P) (hs : P s) (k : IoCall) : P (s.afterIo k) := by
  obtain ⟨op, fnc, data, dev⟩ := k
  exact (h.instr (.ota fnc dev)).afterIo hs (by simp +contextual [SetsMask]) (by simp +contextual [SetsKeys])

theorem StepKeeps.stop (h : StepKeeps P) (hs : P s) (r : StopReason) : P (s.stop r) := (h.instr .nop).stop hs r

theorem StepKeeps.serviceChannels (h : StepKeeps P) (hs : P s) : PhaseHolds P P s.serviceChannels :=
  scanChannels_keeps (fun _ r ht => h.stop ht r) (fun _ k _ ht => h.afterIo ht k) h.setCell h.dma h.clearChannel s
    channelOrder hs

theorem StepKeeps.plainFetch (h : StepKeeps P) (hs : P s) : FetchHolds P s.plainFetch := by
  unfold State.plainFetch
  split_ifs
  · exact h.stop hs _
  · exact (h.instr .nop).common s _ _ _ _ _ _ _ _ hs

theorem StepKeeps.nextInstruction (h : StepKeeps P) (hs : P s) : FetchHolds P s.nextInstruction := by
  have hstart := h.clearStart s hs
  unfold State.nextInstruction
  split_ifs
  · exact h.interruptEntry _ hstart
  · split
    · exact h.interruptEntry _ (h.clearLine _ _ hstart)
    · exact h.plainFetch hstart
  · exact h.plainFetch hstart

theorem StepKeeps.runInstruction (h : StepKeeps P) (hs : P s) : NextHolds P s.runInstruction := by
  have hfetch := h.nextInstruction hs
  unfold State.runInstruction
  split
  · next e => rw [e] at hfetch; exact hfetch
  · next e => rw [e] at hfetch; exact exec_keeps (h.instr _) hfetch

/-- What outlives every write of an iteration, every step keeps. -/
theorem step_keeps (h : StepKeeps P) (hs : P s) {t : State} (hstep : step s = .next t) : P t := by
  have hchannels := h.serviceChannels hs
  refine nextHolds_of_eq ?_ hstep
  unfold step
  split
  · trivial
  · split_ifs
    · split
      · next e => rw [e] at hchannels; exact h.runInstruction hchannels
      · next e => rw [e] at hchannels; exact hchannels
      · trivial
    · trivial

end Iterations

/-- Settles O14: no write of an iteration is to the configuration, the switches or XINT_ENB. -/
theorem stepKeepsConfigurationAndSwitches : Obligations.StepKeepsConfigurationAndSwitches := by
  intro s t hstep
  have keeps : StepKeeps fun u => u.cfg = s.cfg ∧ u.ss1 = s.ss1 ∧ u.ss2 = s.ss2 ∧ u.ss3 = s.ss3 ∧ u.ss4 = s.ss4 ∧
      u.xintEnb = s.xintEnb := {}
  exact step_keeps keeps ⟨rfl, rfl, rfl, rfl, rfl, rfl⟩ hstep

/-! ### The invariant -/

/-- No bit is set outside a mask. -/
theorem and_not_eq_zero_iff {w : Nat} (x m : BitVec w) :
    x &&& ~~~m = 0#w ↔ ∀ j, x.getLsbD j = true → m.getLsbD j = true := by
  constructor
  · intro h j hx
    have hj := congrArg (BitVec.getLsbD · j) h
    have hw := BitVec.lt_of_getLsbD hx
    simpa [hx, hw] using hj
  · intro h
    refine BitVec.eq_of_getLsbD_eq fun j hj => ?_
    have := h j
    simp_all

theorem clear_within {w : Nat} {x m : BitVec w} (h : x &&& ~~~m = 0#w) (clear : BitVec w) :
    (x &&& clear) &&& ~~~m = 0#w := by
  rw [and_not_eq_zero_iff] at h ⊢
  intro j hj
  exact h j (by simp_all)

theorem set_within {w : Nat} {x y m : BitVec w} (hx : x &&& ~~~m = 0#w) (hy : y &&& ~~~m = 0#w) :
    (x ||| y) &&& ~~~m = 0#w := by
  rw [and_not_eq_zero_iff] at hx hy ⊢
  intro j hj
  rw [BitVec.getLsbD_or, Bool.or_eq_true] at hj
  exact hj.elim (hx j) (hy j)

theorem mask_within {w : Nat} (x m : BitVec w) : (x &&& m) &&& ~~~m = 0#w := by
  rw [and_not_eq_zero_iff]
  intro j hj
  simp_all

/-- A word written to a cell that exists. -/
theorem State.Inv.writeWord {s : State} (hs : s.Inv) {a : Addr} (v : Word) (ha : a.toNat < s.cfg.memSize) :
    ({ s with mem := s.mem.writeWord a v } : State).Inv :=
  { hs with
    mem_wf := Memory.wf_writeWord a v hs.mem_wf
    absent_cells := by
      intro b hb
      have hne : b ≠ a := by rintro rfl; exact absurd hb (by simpa using ha)
      exact (Memory.readWord_writeWord_of_ne _ v hne).trans (hs.absent_cells b hb) }

theorem State.Inv.memWrite {s : State} (hs : s.Inv) (a : Addr) (v : Word) : (s.memWrite a v).Inv := by
  unfold State.memWrite
  split_ifs with hw
  · exact hs.writeWord v ((writable_iff s a).1 hw).2
  · exact hs

theorem State.Inv.setCell {s : State} (hs : s.Inv) (a : Addr) (v : Word) : (s.setCell a v).Inv := by
  unfold State.setCell
  split_ifs with ha
  · exact hs.writeWord v ha
  · exact hs

/-- A device raises no request of a channel or a line that is not configured (10_state.md R44, R56). -/
theorem State.Inv.changeRequests {s : State} (hs : s.Inv) (dev : DevNum) (r : RequestChange) :
    (s.changeRequests dev r).Inv :=
  { hs with
    channels := by
      rw [State.changeRequests_chanReq, State.changeRequests_cfg]
      refine set_within (clear_within hs.channels _) ?_
      rw [← BitVec.and_assoc]
      exact mask_within _ _
    line_requests := set_within (clear_within hs.line_requests _) (mask_within _ _) }

/-- OTK sets a mode only where its option is there (47_io.md R331). -/
theorem State.Inv.setKeys {s : State} (hs : s.Inv) (v : Word) : (s.setKeys v).Inv :=
  { hs with
    extend := by
      have := hs.extend
      cases h : s.cfg.optExt <;> simp_all [State.setKeys]
    double := by
      have := hs.double
      cases h : s.cfg.optHsa <;> simp_all [State.setKeys] }

theorem instrKeeps_inv (i : Instr) : InstrKeeps i State.Inv where
  common _ _ _ _ _ _ _ _ _ ht := { ht with }
  br _ _ _ ht := { ht with }
  c _ _ _ ht := { ht with }
  extend _ t e x hset ht :=
    { ht with
      extend := by
        rintro (he | hx | hp)
        · exact (hset (.inl he)).elim (fun h => ht.extend (.inl h)) id
        · exact (hset (.inr hx)).elim (fun h => ht.extend (.inl h)) id
        · exact ht.extend (.inr (.inr hp)) }
  dp _ _ _ hset ht := { ht with double := hset }
  store _ _ a v ht := ht.memWrite a v
  setXr _ t v ht := ht.setCell t.xrAddr v
  answer _ k ht := { ht.changeRequests k.dev _ with }
  mask _ _ _ ht := { ht with }
  keys _ _ v ht := ht.setKeys v

theorem stepKeeps_inv : StepKeeps State.Inv where
  instr := instrKeeps_inv
  setCell _ a v ht := ht.setCell a v
  dma _ _ ht := { ht with }
  clearChannel _ _ ht := { ht with channels := clear_within ht.channels _ }
  clearStart _ ht := { ht with }
  clearLine _ _ ht := { ht with line_requests := clear_within ht.line_requests _ }
  interruptEntry t ht :=
    { ht with
      extend := by
        have := ht.extend
        cases h : t.cfg.optExt <;> simp_all }

/-- Settles O6: the invariant outlives every write of an iteration. -/
theorem stepKeepsInvariant : Obligations.StepKeepsInvariant :=
  fun _ _ hs hstep => step_keeps stepKeeps_inv hs hstep

end Sys2Proof.Machine

/-! ## Reset and the agents -/

namespace Sys2Proof.Machine

/-- Settles O59: `Reset()` is one update of the state, and an action on a stopped CPU alone. -/
theorem resetClears : Obligations.ResetClears := by
  intro s
  refine ⟨Config.freeSc s.draws, s.draws + 1, s.resetOp, rfl, rfl, fun reason hrun => ?_, fun hrun => ?_⟩
  · simp [State.apply, State.isStopped, hrun]
  · simp [State.apply, State.isStopped, hrun]

theorem isStopped_of_running {s : State} (hrun : s.run = .running) : s.isStopped = false := by
  simp [State.isStopped, hrun]

/-- Settles O60: of the actions, those that reset, resume, edit or configure need a stopped CPU, and no other writes
one of the registers. -/
theorem agentsKeepTheRegisters : Obligations.AgentsKeepTheRegisters := by
  intro s t act hrun happly
  have hstopped := isStopped_of_running hrun
  cases act with
  | requests | setExtendedMask | setDma | storeWord | supplyAnswer | setSwitches | pressStart =>
    obtain rfl := Option.some.inj happly
    exact ⟨rfl, rfl, rfl, rfl, rfl, rfl, rfl, rfl, rfl, rfl, rfl, rfl, rfl, rfl⟩
  | reset | resume | editRegisters | configure => simp [State.apply, hstopped] at happly

end Sys2Proof.Machine

/-! ## The channel scan -/

namespace Sys2Proof.Machine

/-- The scan from a channel index to the end. -/
def State.scanFrom (s : State) (n : Nat) : Phase := s.scanChannels (channelOrder.drop n)

theorem scanFrom_zero (s : State) : s.scanFrom 0 = s.serviceChannels := rfl

theorem scanFrom_end (s : State) : s.scanFrom 20 = .go s := rfl

theorem channelOrder_drop (i : Fin 20) : channelOrder.drop i.val = i :: channelOrder.drop (i.val + 1) := by
  revert i; decide

theorem scanFrom_requested {s : State} {i : Fin 20} (hi : s.chanReq.getLsbD i.val = true) :
    s.scanFrom i.val = (s.serviceChannel i).bind fun t => t.scanFrom (i.val + 1) := by
  simp only [State.scanFrom, channelOrder_drop i, State.scanChannels, hi, if_true]

theorem scanFrom_not_requested {s : State} {i : Fin 20} (hi : s.chanReq.getLsbD i.val = false) :
    s.scanFrom i.val = s.scanFrom (i.val + 1) := by
  simp only [State.scanFrom, channelOrder_drop i, State.scanChannels, hi, Bool.false_eq_true, if_false]

theorem noRequest_self (s : State) (n : Nat) : NoRequest s n n := fun _ hlo hhi => absurd hlo hhi.not_ge

theorem scanFrom_noRequest {s : State} {lo hi : Nat} (hle : lo ≤ hi) (hmax : hi ≤ 20) (hno : NoRequest s lo hi) :
    s.scanFrom lo = s.scanFrom hi := by
  induction hi, hle using Nat.le_induction with
  | base => rfl
  | succ hi hle ih =>
    have hlast := hno ⟨hi, by omega⟩ hle (Nat.lt_succ_self hi)
    rw [ih (by omega) fun i h1 h2 => hno i h1 (by omega)]
    exact scanFrom_not_requested hlast

/-- Serving some channels in turn takes the scan to where the last of them leaves it (48_channels.md R351). -/
theorem scanFrom_of_servesInTurn {s t : State} {lo n : Nat} {served : List (Fin 20)} (hn : n ≤ 20)
    (h : ServesInTurn s lo served t n) : s.scanFrom lo = t.scanFrom n := by
  induction served generalizing s lo with
  | nil =>
    obtain ⟨hle, hno, rfl⟩ := h
    exact scanFrom_noRequest hle hn hno
  | cons i served ih =>
    obtain ⟨hle, hno, hreq, s1, hgo, hrest⟩ := h
    rw [scanFrom_noRequest hle i.isLt.le hno, scanFrom_requested hreq, hgo]
    exact ih hrest

theorem ServesInTurn.of_not_requested {s t : State} {i : Fin 20} {n : Nat} {served : List (Fin 20)}
    (hi : s.chanReq.getLsbD i.val = false) (h : ServesInTurn s (i.val + 1) served t n) :
    ServesInTurn s i.val served t n := by
  have extend : ∀ m, NoRequest s (i.val + 1) m → NoRequest s i.val m := by
    intro m hno j hlo hm
    rcases hlo.eq_or_lt with heq | hlt
    · rw [← heq, hi]
    · exact hno j hlt hm
  cases served with
  | nil =>
    obtain ⟨hle, hno, rfl⟩ := h
    exact ⟨by omega, extend n hno, rfl⟩
  | cons j served =>
    obtain ⟨hle, hno, hrest⟩ := h
    exact ⟨by omega, extend j.val hno, hrest⟩

theorem ServesInTurn.cons {s s1 t : State} {i : Fin 20} {n : Nat} {served : List (Fin 20)}
    (hi : s.chanReq.getLsbD i.val = true) (hgo : s.serviceChannel i = .go s1)
    (h : ServesInTurn s1 (i.val + 1) served t n) : ServesInTurn s i.val (i :: served) t n :=
  ⟨le_rfl, noRequest_self s i.val, hi, s1, hgo, h⟩

/-- The scan serves some channels in turn, and then has come to the end or to a channel whose service does not go
on. -/
theorem scanFrom_progress (s : State) {lo : Nat} (hlo : lo ≤ 20) :
    ∃ served u, ServesInTurn s lo served u 20 ∨
      ∃ i : Fin 20, ServesInTurn s lo served u i.val ∧ u.chanReq.getLsbD i.val = true ∧
        ∀ v, u.serviceChannel i ≠ .go v := by
  induction hlo using Nat.decreasingInduction generalizing s with
  | self => exact ⟨[], s, .inl ⟨le_rfl, noRequest_self s 20, rfl⟩⟩
  | of_succ lo hlt ih =>
    obtain ⟨i, rfl⟩ : ∃ i : Fin 20, i.val = lo := ⟨⟨lo, hlt⟩, rfl⟩
    cases hi : s.chanReq.getLsbD i.val with
    | false =>
      obtain ⟨served, u, h⟩ := ih s
      exact ⟨served, u, h.imp (.of_not_requested hi) fun ⟨j, hj, hrest⟩ => ⟨j, .of_not_requested hi hj, hrest⟩⟩
    | true =>
      cases hservice : s.serviceChannel i with
      | go s1 =>
        obtain ⟨served, u, h⟩ := ih s1
        exact ⟨i :: served, u, h.imp (.cons hi hservice) fun ⟨j, hj, hrest⟩ => ⟨j, .cons hi hservice hj, hrest⟩⟩
      | halt _ | fault _ =>
        refine ⟨[], s, .inr ⟨i, ⟨le_rfl, noRequest_self s i.val, rfl⟩, hi, ?_⟩⟩
        simp [hservice]

/-- The phase ends as the channel ends that the scan has come to, where that one does not go on. -/
theorem serviceChannels_of_not_go {s u : State} {i : Fin 20} {served : List (Fin 20)}
    (h : ServesInTurn s 0 served u i.val) (hi : u.chanReq.getLsbD i.val = true)
    (hstop : ∀ v, u.serviceChannel i ≠ .go v) : s.serviceChannels = u.serviceChannel i := by
  rw [← scanFrom_zero, scanFrom_of_servesInTurn i.isLt.le h, scanFrom_requested hi]
  cases hservice : u.serviceChannel i with
  | go v => exact absurd hservice (hstop v)
  | halt _ | fault _ => rfl

theorem serviceChannels_go_iff (s t : State) :
    s.serviceChannels = .go t ↔ ∃ served, ServesInTurn s 0 served t 20 := by
  constructor
  · intro hgo
    obtain ⟨served, u, h | ⟨i, h, hi, hstop⟩⟩ := scanFrom_progress s (Nat.zero_le 20)
    · have hend := scanFrom_of_servesInTurn le_rfl h
      rw [scanFrom_zero, hgo, scanFrom_end] at hend
      exact ⟨served, Phase.go.inj hend ▸ h⟩
    · exact absurd ((serviceChannels_of_not_go h hi hstop).symm.trans hgo) (hstop t)
  · rintro ⟨served, h⟩
    exact scanFrom_of_servesInTurn le_rfl h

theorem serviceChannels_halt_iff (s t : State) :
    s.serviceChannels = .halt t ↔ ∃ (served : List (Fin 20)) (i : Fin 20) (u : State),
      ServesInTurn s 0 served u i.val ∧ u.chanReq.getLsbD i.val = true ∧ u.serviceChannel i = .halt t := by
  constructor
  · intro hhalt
    obtain ⟨served, u, h | ⟨i, h, hi, hstop⟩⟩ := scanFrom_progress s (Nat.zero_le 20)
    · rw [(serviceChannels_go_iff s u).2 ⟨served, h⟩] at hhalt
      exact Phase.noConfusion hhalt
    · exact ⟨served, i, u, h, hi, (serviceChannels_of_not_go h hi hstop).symm.trans hhalt⟩
  · rintro ⟨served, i, u, h, hi, hservice⟩
    exact (serviceChannels_of_not_go h hi (by simp [hservice])).trans hservice

theorem ServesInTurn.ascending {s t : State} {lo n : Nat} {served : List (Fin 20)}
    (h : ServesInTurn s lo served t n) : (∀ j ∈ served, lo ≤ j.val) ∧ served.Pairwise (· < ·) := by
  induction served generalizing s lo with
  | nil => exact ⟨by simp, .nil⟩
  | cons i served ih =>
    obtain ⟨hle, _, _, s1, _, hrest⟩ := h
    obtain ⟨hlow, hpair⟩ := ih hrest
    refine ⟨?_, .cons (fun j hj => Fin.lt_def.2 (hlow j hj)) hpair⟩
    simp only [List.mem_cons, forall_eq_or_imp]
    exact ⟨hle, fun j hj => by have := hlow j hj; omega⟩

/-- The registers the channel phase keeps (48_channels.md R351, R355 to R359; 10_state.md R56). -/
def SameRegisters (s t : State) : Prop :=
  t.ar = s.ar ∧ t.br = s.br ∧ t.pc = s.pc ∧ t.c = s.c ∧ t.ext = s.ext ∧ t.extoff = s.extoff ∧ t.pme = s.pme ∧
    t.dp = s.dp ∧ t.sc = s.sc ∧ t.intOn = s.intOn ∧ t.intNodef = s.intNodef ∧ t.intStart = s.intStart

/-- A call that is not OTK's changes none of them. -/
theorem SameRegisters.afterIo {s t : State} (h : SameRegisters s t) {k : IoCall} (hk : k.op = .ota → k.fnc = 0) :
    SameRegisters s (t.afterIo k) := by
  have hotk : ¬(k.op = .ota ∧ k.fnc = 0o10#4) := fun ⟨hop, hfnc⟩ => absurd (hk hop ▸ hfnc) (by decide)
  obtain ⟨hc, hext, hextoff, hdp, hsc⟩ := State.afterIo_registers (s := t) hotk
  rw [State.afterIo_frame]
  simpa only [SameRegisters, hc, hext, hextoff, hdp, hsc] using h

theorem serviceChannels_sameRegisters (s : State) :
    PhaseHolds (SameRegisters s) (SameRegisters s) s.serviceChannels :=
  scanChannels_keeps (fun _ _ h => h) (fun _ _ hk h => h.afterIo hk) (fun _ _ _ h => h) (fun _ _ h => h)
    (fun _ _ h => h) s channelOrder ⟨rfl, rfl, rfl, rfl, rfl, rfl, rfl, rfl, rfl, rfl, rfl, rfl⟩

/-- Settles O58: the scan is a run of services in turn, by induction on the channels left, and each operation of a
service keeps the registers. -/
theorem channelsKeepTheRegisters : Obligations.ChannelsKeepTheRegisters := by
  intro s t
  refine ⟨serviceChannels_go_iff s t, serviceChannels_halt_iff s t, ?two, fun _ _ h => h.ascending.2, ?registers⟩
  case two =>
    intro i j u hij hi hlow hgo hbetween hj hgo' habove
    have hi20 : i.val + 1 ≤ j.val := hij
    have hj20 : j.val + 1 ≤ 20 := j.isLt
    exact (serviceChannels_go_iff s t).2
      ⟨[i, j], Nat.zero_le _, hlow, hi, u, hgo, hi20, hbetween, hj, t, hgo', hj20, habove, rfl⟩
  case registers =>
    have keeps := serviceChannels_sameRegisters s
    rintro (h | h) <;> rw [h] at keeps <;> exact keeps

/-- What the service of a channel leads to, the channel phase leads to, where no other is requested when the scan comes
to it. -/
theorem serviceEnds_of_serviceChannel {s : State} {i : Fin 20} {p : Phase} (h : s.serviceChannel i = p) :
    ServiceEnds s i p := by
  refine ⟨h, fun hi hlow hhigh => ?_⟩
  rw [← scanFrom_zero, scanFrom_noRequest (Nat.zero_le _) i.isLt.le hlow, scanFrom_requested hi, h]
  cases p with
  | go t => exact scanFrom_noRequest i.isLt le_rfl (hhigh t rfl)
  | halt _ | fault _ => rfl

end Sys2Proof.Machine

/-! ## Calls of a registered device -/

namespace Sys2Proof.Machine

/-- A call of a registered device: its answer gives the reply, and the state is the one of Safety.lean
(47_io.md R321). -/
theorem registeredCall {s : State} {k : IoCall} (hdev : k.dev ≠ 0o20#6) (hreg : k.dev ∈ s.cfg.registered) :
    ∃ (a : DeviceAnswer) (r x : BitVec 16) (ch : BitVec 20), AnswersCall s k a r x ch ∧
      s.afterIo k = afterCall s k r x ch ∧ s.ioReply k = a.reply := by
  obtain ⟨hafter, hreply⟩ := afterIo_registered hdev hreg
  refine ⟨s.deviceAnswer k, _, _, _, ⟨fun b rest hans => ?_, changeRequests_requestsAfter s k.dev _⟩, hafter, hreply⟩
  simp only [State.deviceAnswer, hans]

/-- The same where the device has an answer ready. -/
theorem registeredCall_ready {s : State} {k : IoCall} {a : DeviceAnswer} {rest : List DeviceAnswer}
    (hdev : k.dev ≠ 0o20#6) (hreg : k.dev ∈ s.cfg.registered) (hans : s.deviceAnswers = a :: rest) :
    ∃ (r x : BitVec 16) (ch : BitVec 20), RequestsAfter s k.dev a.requests r x ch ∧
      s.afterIo k = afterCall s k r x ch ∧ s.ioReply k = a.reply := by
  obtain ⟨b, r, x, ch, ⟨hready, hreqs⟩, hafter, hreply⟩ := registeredCall hdev hreg
  obtain rfl := hready a rest hans
  exact ⟨r, x, ch, hreqs, hafter, hreply⟩

/-- A reply applied skip first, then stop (47_io.md R323). -/
theorem stopOn_skipIf (t : State) (reply : IoReply) :
    (t.skipIf reply.skip).stopOn reply.stop = { skipWhen t reply.skip with run := runAfter t reply.stop } := rfl

/-- Settles O53: the call of each instruction, and its reply applied in the order of R323. -/
theorem ioToRegisteredDevice : Obligations.IoToRegisteredDevice := by
  intro clear f3 fnc dev s hdev hreg
  refine ⟨?ocp, ?sks, ?ina, ?ota⟩
  case ocp =>
    obtain ⟨a, r, x, ch, hanswer, hafter, hreply⟩ :=
      registeredCall (s := s) (k := { op := .ocp, fnc := fnc, data := s.ar, dev := dev }) hdev hreg
    refine ⟨a, _, r, x, ch, rfl, hanswer, ?_⟩
    show execOcp fnc dev s = _
    simp only [execOcp, hafter, hreply]
    rfl
  case sks =>
    obtain ⟨a, r, x, ch, hanswer, hafter, hreply⟩ :=
      registeredCall (s := s) (k := { op := .sks, fnc := fnc, data := s.ar, dev := dev }) hdev hreg
    refine ⟨a, _, r, x, ch, rfl, hanswer, ?_⟩
    show execSks fnc dev s = _
    simp only [execSks, hafter, hreply, stopOn_skipIf]
    rfl
  case ina =>
    obtain ⟨a, r, x, ch, hanswer, hafter, hreply⟩ :=
      registeredCall (s := s.clearAr clear)
        (k := { op := .ina, fnc := 0#1 ++ f3, data := (s.clearAr clear).ar, dev := dev }) hdev hreg
    refine ⟨a, _, r, x, ch, rfl, hanswer, ?_⟩
    show execIna clear f3 dev s = _
    simp only [execIna, hafter, hreply, stopOn_skipIf]
    rfl
  case ota =>
    obtain ⟨a, r, x, ch, hanswer, hafter, hreply⟩ :=
      registeredCall (s := s) (k := { op := .ota, fnc := fnc, data := s.ar, dev := dev }) hdev hreg
    refine ⟨a, _, r, x, ch, rfl, hanswer, ?_⟩
    show outputAr fnc dev s = _
    simp only [outputAr, hafter, hreply, stopOn_skipIf]
    rfl

end Sys2Proof.Machine

/-! ## One word through a channel -/

namespace Sys2Proof.Machine

theorem getLsbD_bit (i j : Fin 20) : (1#20 <<< i.val).getLsbD j.val = decide (j = i) := by
  revert i j; decide

theorem clearChannel_of_withoutRequest {s : State} {i : Fin 20} {q : BitVec 20} (hq : WithoutRequest s i q) :
    s.clearChannel i = { s with chanReq := q } := by
  have hbits : s.chanReq &&& ~~~(1#20 <<< i.val) = q := by
    refine BitVec.eq_of_getLsbD_eq fun j hj => ?_
    have hbit := getLsbD_bit i ⟨j, hj⟩
    have hqj := hq ⟨j, hj⟩
    simp only at hbit hqj
    rw [BitVec.getLsbD_and, BitVec.getLsbD_not, hbit, hqj]
    simp [hj]
  rw [State.clearChannel, hbits]

/-- The service of a mapped channel begins with its request bit cleared (48_channels.md R351, R352). -/
theorem serviceChannel_mapped {s : State} {i : Fin 20} {dev : DevNum} {q : BitVec 20}
    (hmap : s.cfg.chanMap[i] = some dev) (hq : WithoutRequest s i q) :
    s.serviceChannel i = ({ s with chanReq := q } : State).serviceFor i dev := by
  rw [State.serviceChannel, hmap, ← clearChannel_of_withoutRequest hq]

theorem address_transferOf (w : Word) : (transferOf w).address = w.setWidth 15 :=
  BitVec.setWidth_eq_extractLsb' (by decide) |>.symm

theorem transferCall_eq_wordCall (s : State) (w : Word) (dev : DevNum) :
    s.transferCall (transferOf w) dev = wordCall s w dev := by
  simp only [State.transferCall, wordCall, address_transferOf]
  rfl

theorem wordCall_dev (s : State) (w : Word) (dev : DevNum) : (wordCall s w dev).dev = dev := by
  rw [← transferCall_eq_wordCall, transferCall_dev]

/-- One word moved by a device that answers with a skip and no stop (48_channels.md R355, R356). -/
theorem transfer_registered {s : State} {dev : DevNum} {a : DeviceAnswer} {rest : List DeviceAnswer} (w : Word)
    (hdev : dev ≠ 0o20#6) (hreg : dev ∈ s.cfg.registered) (hans : s.deviceAnswers = a :: rest)
    (hskip : a.reply.skip = true) (hstop : a.reply.stop = none) :
    ∃ (r x : BitVec 16) (p : BitVec 20) (m : Memory), RequestsAfter s dev a.requests r x p ∧
      (if w.getLsbD 15 then StoresCell s m (w.setWidth 15) a.reply.data else m = s.mem) ∧
      s.transfer (transferOf w) dev = .go { afterCall s (wordCall s w dev) r x p with mem := m } := by
  have hd := wordCall_dev s w dev
  obtain ⟨r, x, p, hreqs, hafter, hreply⟩ :=
    registeredCall_ready (s := s) (k := wordCall s w dev) (by rwa [hd]) (by rwa [hd]) hans
  rw [hd] at hreqs
  have htransfer : s.transfer (transferOf w) dev =
      .go (if w.getLsbD 15 then (afterCall s (wordCall s w dev) r x p).setCell (w.setWidth 15) a.reply.data
        else afterCall s (wordCall s w dev) r x p) := by
    simp only [State.transfer, transferCall_eq_wordCall, hafter, hreply, hskip, hstop, address_transferOf]
    rfl
  cases hinput : w.getLsbD 15 with
  | true =>
    refine ⟨r, x, p, _, hreqs, setCell_storesCell s _ _, ?_⟩
    rw [htransfer, hinput]
    rfl
  | false =>
    refine ⟨r, x, p, _, hreqs, rfl, ?_⟩
    rw [htransfer, hinput]
    rfl

theorem finishBlock_incomplete (s : State) (dev : DevNum) : s.finishBlock false dev = .go s := rfl

/-- The end-of-range call of a registered device with an answer ready (48_channels.md R357, R359). -/
theorem finishBlock_complete {t : State} {dev : DevNum} {b : DeviceAnswer} {rest : List DeviceAnswer}
    (hdev : dev ≠ 0o20#6) (hreg : dev ∈ t.cfg.registered) (hans : t.deviceAnswers = b :: rest) :
    ∃ (r x : BitVec 16) (p : BitVec 20), RequestsAfter t dev b.requests r x p ∧
      t.finishBlock true dev = goOrStop (afterCall t (endOfRange dev) r x p) b.reply.stop := by
  obtain ⟨r, x, p, hreqs, hafter, hreply⟩ := registeredCall_ready (k := endOfRange dev) hdev hreg hans
  refine ⟨r, x, p, hreqs, ?_⟩
  show (t.afterIo (endOfRange dev)).haltOn (t.ioReply (endOfRange dev)).stop = _
  rw [hafter, hreply]
  cases b.reply.stop <;> rfl

/-- What is left of both statements about one word: in state t the transfer and the bookkeeping are done, and the
end-of-range call is made where the block is complete. -/
theorem serviceEnds_of_finishBlock {s t : State} {i : Fin 20} {dev : DevNum} {complete : Prop} [Decidable complete]
    (hservice : s.serviceChannel i = t.finishBlock (decide complete) dev) (hdev : dev ≠ 0o20#6)
    (hreg : dev ∈ t.cfg.registered) :
    (¬complete → ServiceEnds s i (.go t)) ∧
      ∀ b rest, complete → t.deviceAnswers = b :: rest →
        ∃ (r x : BitVec 16) (p : BitVec 20), RequestsAfter t dev b.requests r x p ∧
          ServiceEnds s i (goOrStop (afterCall t (endOfRange dev) r x p) b.reply.stop) := by
  refine ⟨fun hmore => ?_, fun b rest hdone hans => ?_⟩
  · rw [decide_eq_false hmore, finishBlock_incomplete] at hservice
    exact serviceEnds_of_serviceChannel hservice
  · obtain ⟨r, x, p, hreqs, hfinish⟩ := finishBlock_complete hdev hreg hans
    rw [decide_eq_true hdone, hfinish] at hservice
    exact ⟨r, x, p, hreqs, serviceEnds_of_serviceChannel hservice⟩

/-! ### DMA -/

/-- The count after a transfer is 0 exactly where it was 1. -/
theorem advanced_eq (ch : DmaChannel) :
    ch.advanced = ⟨(transferOf ch.ad).advanced, ch.wc - 1, ch.eor || decide (ch.wc = 1)⟩ := by
  simp only [DmaChannel.advanced, sub_eq_zero]

theorem serviceDma_of_transfer {s u : State} {k : Fin 4} {dev : DevNum}
    (h : s.transfer (transferOf s.dma[k].ad) dev = .go u) :
    s.serviceDma k dev =
      ({ u with dma := u.dma.set k u.dma[k].advanced } : State).finishBlock (decide (u.dma[k].wc = 1)) dev := by
  simp only [State.serviceDma, h, Phase.bind, sub_eq_zero]

/-- Settles O55: the service of a DMA channel is a transfer, its bookkeeping, and the end of the block. -/
theorem dmaTransfersOneWord : Obligations.DmaTransfersOneWord := by
  intro s k i dev a rest ch call q hik hmap hdev hreg hans hskip hstop hdma hcall hq
  subst hdma hcall
  obtain ⟨r, x, p, m, hreqs, hmem, htransfer⟩ :=
    transfer_registered (s := { s with chanReq := q }) s.dma[k].ad hdev hreg hans hskip hstop
  obtain ⟨hdirection, haddress⟩ := advanced_fields s.dma[k].ad
  have hk : ({ s with chanReq := q } : State).serviceFor i dev =
      ({ s with chanReq := q } : State).serviceDma k dev := by
    have hlt : i.val < 4 := hik ▸ k.isLt
    obtain rfl : k = ⟨i.val, hlt⟩ := Fin.ext hik.symm
    simp only [State.serviceFor, hlt, dif_pos]
  have hservice := (serviceChannel_mapped hmap hq).trans (hk.trans (serviceDma_of_transfer htransfer))
  rw [advanced_eq] at hservice
  obtain ⟨hmore, hdone⟩ := serviceEnds_of_finishBlock hservice hdev hreg
  refine ⟨r, x, p, m, _, _, hreqs, hmem, hdirection, haddress, rfl, hmore, fun b rest' hwc hrest => ?_⟩
  exact hdone b rest' hwc ((congrArg List.tail hans).trans hrest)

/-! ### DMC -/

theorem address_eq_iff (w last : Word) :
    (transferOf w).address = last.extractLsb' 0 15 ↔ w.toNat % 32768 = last.toNat % 32768 := by
  simp only [transferOf, ← BitVec.toNat_inj, BitVec.extractLsb'_toNat, Nat.shiftRight_zero]

theorem serviceDmc_of_transfer {s u : State} {k : Fin 16} {dev : DevNum}
    (h : s.transfer (transferOf (s.chanRead (s.dmcStart k))) dev = .go u) :
    s.serviceDmc k dev =
      (u.chanWrite (s.dmcStart k) (transferOf (s.chanRead (s.dmcStart k))).advanced).finishBlock
        (decide ((s.chanRead (s.dmcStart k)).toNat % 32768 = (s.chanRead (s.dmcEnd k)).toNat % 32768)) dev := by
  simp only [State.serviceDmc, h, Phase.bind, address_eq_iff]

/-- `ChanWrite` of a control word leaves what Safety.lean says of a cell, and past the 32768 words nothing
(assumption log 22). -/
theorem chanWrite_stores (s : State) (n : Nat) (v : Word) :
    if n < 32768 then StoresCell s (s.chanWrite n v).mem (BitVec.ofNat 15 n) v else (s.chanWrite n v).mem = s.mem := by
  rcases s.chanWrite_cases n v with ⟨hn, e⟩ | ⟨hn, e⟩ <;> rw [e]
  · rw [if_pos hn]
    exact setCell_storesCell s _ v
  · rw [if_neg (by omega)]

/-- Settles O56: the service of a DMC channel is a transfer, the write of its start word, and the end of the block. -/
theorem dmcTransfersOneWord : Obligations.DmcTransfersOneWord := by
  intro s i dev a rest start w last call q hi hmap hdev hreg hans hskip hstop hstart hw hlast hcall hq
  subst hcall
  obtain ⟨r, x, p, m, hreqs, hmem, htransfer⟩ :=
    transfer_registered (s := { s with chanReq := q }) w hdev hreg hans hskip hstop
  obtain ⟨hdirection, haddress⟩ := advanced_fields w
  have hk : ({ s with chanReq := q } : State).serviceFor i dev =
      ({ s with chanReq := q } : State).serviceDmc ⟨i.val - 4, by omega⟩ dev := by
    simp only [State.serviceFor, Nat.not_lt.2 hi, dif_neg, not_false_eq_true]
  subst hstart hw hlast
  have hservice := (serviceChannel_mapped hmap hq).trans (hk.trans (serviceDmc_of_transfer htransfer))
  obtain ⟨hmore, hdone⟩ := serviceEnds_of_finishBlock hservice hdev hreg
  refine ⟨r, x, p, m, _, _, _, hreqs, hmem, chanWrite_stores { s with mem := m } _ _, hdirection, haddress, rfl, hmore,
    fun b rest' hend hrest => ?_⟩
  exact hdone b rest' hend ((congrArg List.tail hans).trans hrest)

end Sys2Proof.Machine

/-! ## Memory, XR and PC -/

namespace Sys2Proof.Machine

/-! ### Reads and discarded writes -/

/-- What a store leaves of every other word. -/
theorem SameMemoryBut.readWord {s : State} {m : Memory} {a b : Addr} (h : SameMemoryBut s m a) (hb : b ≠ a) :
    m.readWord b = s.mem.readWord b := by
  have hne : b.toNat ≠ a.toNat := fun e => hb (BitVec.eq_of_toNat_eq e)
  simp only [Memory.readWord]
  rw [h (2 * b.toNat) (by omega) (by omega), h (2 * b.toNat + 1) (by omega) (by omega)]

/-- A discarded `MemWrite` changes nothing at all (20_memory.md R74). -/
theorem memWrite_of_not_performed {s : State} {a : Addr} (h : ¬WritePerformed s a) (v : Word) : s.memWrite a v = s := by
  rw [← writable_iff] at h
  simp only [State.memWrite, if_neg h]

/-- A write of a cell that does not exist changes nothing at all (20_memory.md R77, R79). -/
theorem setCell_of_absent {s : State} {a : Addr} (h : s.cfg.memSize ≤ a.toNat) (v : Word) : s.setCell a v = s := by
  simp only [State.setCell, if_neg h.not_gt]

theorem not_writePerformed_of_protected {s : State} {a : Addr} (h1 : 1 ≤ a.toNat) (h17 : a.toNat ≤ 0o17) :
    ¬WritePerformed s a := by
  rintro ⟨rfl | h20, _⟩
  · exact absurd h1 (by decide)
  · omega

theorem not_writePerformed_of_absent {s : State} {a : Addr} (h : s.cfg.memSize ≤ a.toNat) : ¬WritePerformed s a :=
  fun hperf => absurd hperf.2 h.not_gt

/-- `MemRead`, with the cells that do not exist first (20_memory.md R73). -/
theorem memRead_eq (s : State) (a : Addr) :
    s.memRead a = if s.cfg.memSize ≤ a.toNat then 0 else s.mem.readWord a := by
  simp only [State.memRead, ← not_lt, ite_not]

/-- Settles O18: a write the gate refuses leaves the state as it is, and the gate refuses cells 1 to 0o17 and the cells
that do not exist. -/
theorem memoryWriteGate : Obligations.MemoryWriteGate := by
  intro s a v
  refine ⟨memWrite_storesWord s a v, rfl, fun h1 h17 => ?lowCells, fun h => ?absent, ?status, ?reads⟩
  case lowCells => exact memWrite_of_not_performed (not_writePerformed_of_protected h1 h17) v
  case absent => exact memWrite_of_not_performed (not_writePerformed_of_absent h) v
  case status => exact List.contains_iff_mem
  case reads => exact memRead_eq (s.memWrite a v)

/-! ### XR -/

theorem shadowAddress_cases (s : State) : shadowAddress s = 0#15 ∨ shadowAddress s = 0o40000#15 := by
  unfold shadowAddress
  split_ifs
  · exact .inl rfl
  · exact .inr rfl
  · exact .inl rfl

/-- The shadow cell is not one of the cells that `MemWrite` protects (20_memory.md R75, R78). -/
theorem writePerformed_shadowAddress {s : State} (h : (shadowAddress s).toNat < s.cfg.memSize) :
    WritePerformed s (shadowAddress s) := by
  refine ⟨?_, h⟩
  rcases shadowAddress_cases s with hsh | hsh
  · exact .inl hsh
  · exact .inr (by rw [hsh]; decide)

theorem xr_eq (s : State) : s.xr = s.memRead (shadowAddress s) := congrArg s.memRead (xrAddr_eq s)

theorem setXr_eq (s : State) (v : Word) : s.setXr v = s.setCell (shadowAddress s) v :=
  congrArg (s.setCell · v) (xrAddr_eq s)

/-- A `MemWrite` to the shadow cell changes XR (20_memory.md R79). -/
theorem xr_memWrite_shadowAddress {s : State} (h : (shadowAddress s).toNat < s.cfg.memSize) (v : Word) :
    (s.memWrite (shadowAddress s) v).xr = v := by
  have hw := (writable_iff s _).2 (writePerformed_shadowAddress h)
  have hsh : shadowAddress (s.memWrite (shadowAddress s) v) = shadowAddress s := rfl
  rw [xr_eq, hsh, State.memRead_memWrite, if_pos ⟨rfl, hw⟩]

/-- Settles O19: XR's read and write are the read and write of the shadow cell, which `MemWrite` reaches too. -/
theorem xrIsTheShadowCell : Obligations.XrIsTheShadowCell := by
  intro s v
  refine ⟨xr_eq s, rfl, ?stores, fun h => ⟨?readsBack, xr_memWrite_shadowAddress h v⟩,
    fun h => ⟨?absentReads, ?absentWrites⟩⟩
  case stores =>
    rw [setXr_eq]
    exact setCell_storesCell s _ v
  case readsBack => exact State.xr_setXr ((xrAddr_eq s).symm ▸ h) v
  case absentReads => rw [xr_eq, memRead_eq, if_pos h]
  case absentWrites => rw [setXr_eq, setCell_of_absent h]

/-! ### Writers of memory -/

theorem readWord_memWrite_of_protected (s : State) {a : Addr} (h1 : 1 ≤ a.toNat) (h17 : a.toNat ≤ 0o17) (b : Addr)
    (v : Word) : (s.memWrite b v).mem.readWord a = s.mem.readWord a := by
  by_cases hab : a = b
  · subst hab
    rw [memWrite_of_not_performed (not_writePerformed_of_protected h1 h17)]
  · obtain ⟨_, _, others⟩ := memWrite_storesWord s b v
    exact others.readWord hab

theorem ne_shadowAddress_of_protected (s : State) {a : Addr} (h1 : 1 ≤ a.toNat) (h17 : a.toNat ≤ 0o17) :
    a ≠ shadowAddress s := by
  rintro rfl
  rcases shadowAddress_cases s with hsh | hsh <;> rw [hsh] at h1 h17
  · exact absurd h1 (by decide)
  · exact absurd h17 (by decide)

theorem readWord_setXr_of_protected (s : State) {a : Addr} (h1 : 1 ≤ a.toNat) (h17 : a.toNat ≤ 0o17) (v : Word) :
    (s.setXr v).mem.readWord a = s.mem.readWord a := by
  obtain ⟨_, _, others⟩ := setCell_storesCell s (shadowAddress s) v
  rw [setXr_eq]
  exact others.readWord (ne_shadowAddress_of_protected s h1 h17)

/-- Settles O17: memory outlives every instruction that may not store, and a protected cell outlives both kinds of
store an instruction makes, `MemWrite` and LDX's write of XR. -/
theorem writersOfMemory : Obligations.WritersOfMemory := by
  intro i s t hnext
  refine ⟨fun hstore => ?_, fun a h1 h17 => ?_⟩
  · have keeps : InstrKeeps i fun u => u.mem = s.mem :=
      { store := fun h => absurd h hstore
        setXr := fun h => absurd h hstore }
    have hmem : t.mem = s.mem := nextHolds_of_eq (exec_keeps keeps rfl) hnext
    exact fun k => congrArg (Memory.readByte · k) hmem
  · have keeps : InstrKeeps i fun u => u.mem.readWord a = s.mem.readWord a :=
      { store := fun _ u b v hu => (readWord_memWrite_of_protected u h1 h17 b v).trans hu
        setXr := fun _ u v hu => (readWord_setXr_of_protected u h1 h17 v).trans hu }
    exact nextHolds_of_eq (exec_keeps keeps rfl) hnext

/-! ### The wrap of addresses -/

theorem toNat_newa_extended {s : State} (h : s.ext = true) (x : Addr) (y : Word) :
    (s.newa x y).toNat = y.toNat % 32768 := by
  rw [State.newa_extended h, BitVec.toNat_setWidth]

/-- The bank bit of x over the low bits of y (20_memory.md R80). -/
theorem newa_banked {s : State} (h : s.ext = false) (x : Addr) (y : Word) :
    s.newa x y = x.extractLsb' 14 1 ++ y.extractLsb' 0 14 := by
  refine BitVec.eq_of_getLsbD_eq fun i hi => ?_
  rw [State.getLsbD_newa_banked h x y hi, BitVec.getLsbD_append]
  by_cases h14 : i = 14
  · subst h14
    simp
  · have hlow : i < 14 := by omega
    simp [h14, hlow]

theorem toNat_newa_banked {s : State} (h : s.ext = false) (x : Addr) (y : Word) :
    (s.newa x y).toNat = x.toNat / 16384 * 16384 + y.toNat % 16384 := by
  have hlow : (y.extractLsb' 0 14).toNat < 2 ^ 14 := BitVec.isLt _
  rw [newa_banked h, BitVec.toNat_append, ← Nat.shiftLeft_add_eq_or_of_lt hlow, Nat.shiftLeft_eq,
    BitVec.extractLsb'_toNat, BitVec.extractLsb'_toNat, Nat.shiftRight_eq_div_pow]
  omega

/-- The sum of a fetch or a skip does not wrap at the width of a word. -/
theorem toNat_pc_add_one (p : Addr) : (p.setWidth 16 + 1).toNat = p.toNat + 1 := by
  bv_omega

theorem pcPlus_one_extended {s : State} (h : s.ext = true) : pcPlus s 1 = s.pc + 1 := by
  apply BitVec.eq_of_toNat_eq
  rw [pcPlus, toNat_newa_extended h, toNat_pc_add_one, BitVec.toNat_add]
  rfl

/-- In non-extended mode PC wraps at the end of its bank (20_memory.md R81). -/
theorem pcPlus_one_banked {s : State} (h : s.ext = false) :
    pcPlus s 1 =
      if s.pc = 0o37777#15 then 0 else if s.pc = 0o77777#15 then 0o40000#15 else s.pc + 1 := by
  have hnat : (pcPlus s 1).toNat = s.pc.toNat / 16384 * 16384 + (s.pc.toNat + 1) % 16384 := by
    rw [pcPlus, toNat_newa_banked h, toNat_pc_add_one]
  split_ifs with hlow hhigh
  · rw [hlow] at hnat
    exact BitVec.eq_of_toNat_eq hnat
  · rw [hhigh] at hnat
    exact BitVec.eq_of_toNat_eq hnat
  · bv_omega

/-- Settles O20: the bank merge as a sum of the bank and the offset, and its value at the ends of the banks. -/
theorem addressesWrapInTheirBank : Obligations.AddressesWrapInTheirBank := by
  intro s x y
  refine ⟨fun h => toNat_newa_extended h x y, fun h => toNat_newa_banked h x y, ?_⟩
  cases hext : s.ext with
  | true => exact pcPlus_one_extended hext
  | false => exact pcPlus_one_banked hext

end Sys2Proof.Machine

/-! ## The seven forms of a word -/

namespace Sys2Proof

/-- A bit string is its high part over its low part. -/
theorem append_extractLsb'_self {n m : Nat} (x : BitVec (n + m)) : x.extractLsb' m n ++ x.extractLsb' 0 m = x := by
  rw [BitVec.extractLsb'_append_extractLsb'_eq_extractLsb' (Nat.zero_add m).symm, BitVec.extractLsb'_eq_self]

theorem exists_append_eq {n m : Nat} (x : BitVec (n + m)) : ∃ (a : BitVec n) (b : BitVec m), a ++ b = x :=
  ⟨_, _, append_extractLsb'_self x⟩

theorem exists_ofBool_append_eq {n : Nat} (x : BitVec (1 + n)) :
    ∃ (b : Bool) (a : BitVec n), BitVec.ofBool b ++ a = x := by
  obtain ⟨b, a, rfl⟩ := exists_append_eq x
  obtain ⟨b, rfl⟩ : ∃ c : Bool, b = BitVec.ofBool c := by revert b; decide
  exact ⟨b, a, rfl⟩

/-- G is OP under the two bits above it (30_encoding.md R101). -/
theorem gField_eq (w : Word) : w.extractLsb' 10 6 = w.extractLsb' 14 2 ++ opField w :=
  (BitVec.extractLsb'_append_extractLsb'_eq_extractLsb' (start₁ := 10) (len₁ := 4) rfl).symm

theorem tenWord_fields (w : Word) : tenWord (w.extractLsb' 14 2 ++ opField w) (lowTen w) = w := by
  rw [← gField_eq]
  exact append_extractLsb'_self (n := 6) (m := 10) w

theorem memRefWord_fields (w : Word) : memRefWord (opField w) (memOpField w) = w := by
  simp only [memRefWord, opField, memOpField]
  refine BitVec.eq_of_getLsbD_eq fun i hi => ?_
  interval_cases i <;> simp only [BitVec.getLsbD_extractLsb', BitVec.getLsbD_append] <;> simp

theorem ioWord_eq (sub : BitVec 2) (fnc : BitVec 4) (dev : DevNum) :
    ioWord sub fnc dev = tenWord (sub ++ 0o14#4) (fnc ++ dev) := by
  simp only [ioWord, tenWord]
  refine BitVec.eq_of_getLsbD_eq fun i hi => ?_
  interval_cases i <;> simp only [BitVec.getLsbD_append] <;> simp

/-- What the encoder's seven layouts build, one for each class (30_encoding.md R101 to R109). -/
inductive WordForm : Word → Prop
  | control (m : BitVec 10) : WordForm (tenWord 0o00#6 m)
  | shift (f : BitVec 4) (n : BitVec 6) : WordForm (shiftWord f n)
  | skip (m : BitVec 10) : WordForm (tenWord 0o40#6 m)
  | operate (m : BitVec 10) : WordForm (tenWord 0o60#6 m)
  | io (sub : BitVec 2) (fnc : BitVec 4) (dev : DevNum) : WordForm (ioWord sub fnc dev)
  | indexTransfer (load : Bool) (op : XferOp) : WordForm (xferWord load op)
  | memoryReference {opc : BitVec 4} (h : opc ≠ 0#4 ∧ opc ≠ 0o14#4 ∧ opc ≠ 0o15#4) (op : MemOp) :
      WordForm (memRefWord opc op)

theorem wordForm_shift (m : BitVec 10) : WordForm (tenWord 0o20#6 m) := by
  obtain ⟨f, b, rfl⟩ := exists_append_eq (n := 4) (m := 6) m
  rw [← BitVec.neg_neg (x := b), ← shiftWord_eq]
  exact .shift f (-b)

theorem wordForm_io (sub : BitVec 2) (m : BitVec 10) : WordForm (tenWord (sub ++ 0o14#4) m) := by
  obtain ⟨fnc, dev, rfl⟩ := exists_append_eq (n := 4) (m := 6) m
  rw [← ioWord_eq]
  exact .io sub fnc dev

/-- With OP = 0 the two bits of G above it name the class. -/
theorem wordForm_opZero (top : BitVec 2) (m : BitVec 10) : WordForm (tenWord (top ++ 0#4) m) := by
  have htop : top = 0 ∨ top = 1 ∨ top = 2 ∨ top = 3 := by revert top; decide
  rcases htop with rfl | rfl | rfl | rfl
  · exact .control m
  · exact wordForm_shift m
  · exact .skip m
  · exact .operate m

/-- Every word has one of the seven forms. An index-transfer word is laid out as a memory-reference word with an opcode
bit in the place of X (30_encoding.md R104). -/
theorem wordForm (w : Word) : WordForm w := by
  have hten := tenWord_fields w
  have hmem := memRefWord_fields w
  by_cases hzero : opField w = 0#4
  · rw [hzero] at hten
    exact hten ▸ wordForm_opZero _ _
  by_cases hio : opField w = 0o14#4
  · rw [hio] at hten
    exact hten ▸ wordForm_io _ _
  by_cases hindex : opField w = 0o15#4
  · rw [hindex] at hmem
    exact hmem ▸ .indexTransfer (memOpField w).indexed ⟨_, _, _⟩
  · exact hmem ▸ .memoryReference ⟨hzero, hio, hindex⟩ _

end Sys2Proof

/-! ## What the decoder makes of each form -/

namespace Sys2Proof

theorem decode_controlWord (dp : Bool) (m : BitVec 10) : decode dp (tenWord 0o00#6 m) = decodeControl m := by
  simp only [decode, classOf_control, lowTen_tenWord]

theorem decode_shiftWord (dp : Bool) (f : BitVec 4) (n : BitVec 6) :
    decode dp (shiftWord f n) = decodeShift f n := by
  obtain ⟨hf, hn⟩ := shiftFields_shiftWord f n
  simp only [decode, classOf_shiftWord, hf, hn]

theorem decode_skipWord (dp : Bool) (m : BitVec 10) : decode dp (tenWord 0o40#6 m) = decodeSkip m := by
  simp only [decode, classOf_skip, lowTen_tenWord]

theorem decode_operateWord (dp : Bool) (m : BitVec 10) : decode dp (tenWord 0o60#6 m) = decodeOperate m := by
  simp only [decode, classOf_operate, lowTen_tenWord]

theorem decode_ioWord (dp : Bool) (sub : BitVec 2) (fnc : BitVec 4) (dev : DevNum) :
    decode dp (ioWord sub fnc dev) = decodeIo sub (fnc ++ dev) := by
  obtain ⟨hsub, hlow⟩ := ioFields_ioWord sub fnc dev
  simp only [decode, classOf_ioWord, hsub, hlow]

theorem decode_xferWord (dp load : Bool) (op : XferOp) :
    decode dp (xferWord load op) = if load then .ldx op else .stx op := by
  simp only [decode, classOf_xferWord, load_xferWord, xferOpField_xferWord]

theorem decode_memRefWord (dp : Bool) {opc : BitVec 4} (h : opc ≠ 0#4 ∧ opc ≠ 0o14#4 ∧ opc ≠ 0o15#4) (op : MemOp) :
    decode dp (memRefWord opc op) = decodeMemRef dp opc op := by
  simp only [decode, classOf_memRefWord h, opField_memRefWord, memOpField_memRefWord]

/-! The class rows: what is left of a class when its named words are taken out. -/

theorem decodeControl_hlt (bits : BitVec 9) : decodeControl (bits ++ 0#1) = .hlt bits := by
  have hbit : (bits ++ 0#1).getLsbD 0 = false := by simp only [BitVec.getLsbD_append]; simp
  rw [decodeControl, if_pos hbit, BitVec.extractLsb'_append_eq_left]

theorem decodeControl_unnamed {bits : BitVec 9} (h : bits ++ 1#1 ∉ namedControl) :
    decodeControl (bits ++ 1#1) = .controlMicro bits := by
  have hbit : (bits ++ 1#1).getLsbD 0 = true := by simp only [BitVec.getLsbD_append]; simp
  simp only [namedControl, List.mem_cons, not_or, BitVec.ofNat_eq_ofNat] at h
  simp only [decodeControl, hbit, h, if_false, Bool.true_eq_false,
    BitVec.extractLsb'_append_eq_left]

theorem decodeSkip_unnamed {sense : Bool} {cond : BitVec 9} (h : BitVec.ofBool sense ++ cond ∉ namedSkip) :
    decodeSkip (BitVec.ofBool sense ++ cond) = .skip sense cond := by
  have hsense : (BitVec.ofBool sense ++ cond).getLsbD 9 = sense := by simp only [BitVec.getLsbD_append]; simp
  simp only [namedSkip, List.mem_cons, not_or, BitVec.ofNat_eq_ofNat] at h
  simp only [decodeSkip, h, if_false, hsense, BitVec.extractLsb'_append_eq_right]

theorem decodeOperate_unnamed {m : BitVec 10} (h : m ∉ namedOperate) : decodeOperate m = .undefinedOperate m := by
  simp only [namedOperate, List.mem_cons, not_or, BitVec.ofNat_eq_ofNat] at h
  simp only [decodeOperate, h, if_false]

theorem decodeIo_ocp (fnc : BitVec 4) (dev : DevNum) : decodeIo 0#2 (fnc ++ dev) = .ocp fnc dev := by
  rw [decodeIo, if_pos rfl, BitVec.extractLsb'_append_eq_left, BitVec.extractLsb'_append_eq_right]

theorem decodeIo_sks (fnc : BitVec 4) (dev : DevNum) : decodeIo 1#2 (fnc ++ dev) = .sks fnc dev := by
  rw [decodeIo, if_neg (by decide), if_pos rfl, BitVec.extractLsb'_append_eq_left, BitVec.extractLsb'_append_eq_right]

theorem decodeIo_ina (clear : Bool) (fnc : BitVec 3) (dev : DevNum) :
    decodeIo 2#2 (BitVec.ofBool clear ++ fnc ++ dev) = .ina clear fnc dev := by
  have hclear : (BitVec.ofBool clear ++ fnc ++ dev).getLsbD 9 = clear := by simp only [BitVec.getLsbD_append]; simp
  have hfnc : (BitVec.ofBool clear ++ fnc ++ dev).extractLsb' 6 3 = fnc := by
    refine BitVec.eq_of_getLsbD_eq fun i hi => ?_
    interval_cases i <;> simp only [BitVec.getLsbD_extractLsb', BitVec.getLsbD_append] <;> simp
  rw [decodeIo, if_neg (by decide), if_neg (by decide), if_pos rfl, hclear, hfnc, BitVec.extractLsb'_append_eq_right]

theorem decodeIo_ota {fnc : BitVec 4} {dev : DevNum} (h : fnc ++ dev ∉ namedOta) :
    decodeIo 3#2 (fnc ++ dev) = .ota fnc dev := by
  simp only [namedOta, List.mem_cons, not_or, BitVec.ofNat_eq_ofNat] at h
  rw [decodeIo, if_neg (by decide), if_neg (by decide), if_neg (by decide), if_neg h.1, if_neg h.2.1,
    BitVec.extractLsb'_append_eq_left, BitVec.extractLsb'_append_eq_right]

end Sys2Proof

/-! ## From the instruction to its word and back -/

namespace Sys2Proof

/-- Settles O1: each form is decoded by its class's table; only the class rows and the DP pairs use a hypothesis. -/
theorem decodeEncodeRoundTrip : Obligations.DecodeEncodeRoundTrip := by
  intro dp i hwf hpick
  cases i with
  | jmp op | ana op | era op | jst op | cas op | irs op | ima op | mpy op | div op =>
    exact decode_memRefWord dp (by decide) op
  | lda op | sta op | add op | sub op =>
    obtain rfl : dp = false := by simpa [Instr.pickedUnder] using hpick
    exact decode_memRefWord false (by decide) op
  | dld op | dst op | dad op | dsb op =>
    obtain rfl : dp = true := hpick
    exact decode_memRefWord true (by decide) op
  | stx op | ldx op => exact decode_xferWord dp _ op
  | hlt bits => exact (decode_controlWord dp _).trans (decodeControl_hlt bits)
  | controlMicro bits =>
    exact (decode_controlWord dp _).trans (decodeControl_unnamed (by simpa [Instr.wf] using hwf))
  | lrl n | lrs n | lrr n | quirk3 n | lgr n | ars n | arr n | quirk7 n | lll n | lls n | llr n | quirk13 n | lgl n
  | als n | alr n | quirk17 n => exact decode_shiftWord dp _ n
  | skip sense cond => exact (decode_skipWord dp _).trans (decodeSkip_unnamed (by simpa [Instr.wf] using hwf))
  | undefinedOperate bits =>
    exact (decode_operateWord dp _).trans (decodeOperate_unnamed (by simpa [Instr.wf] using hwf))
  | ocp fnc dev => exact (decode_ioWord dp _ fnc dev).trans (decodeIo_ocp fnc dev)
  | sks fnc dev => exact (decode_ioWord dp _ fnc dev).trans (decodeIo_sks fnc dev)
  | ina clear fnc dev => exact (decode_ioWord dp _ _ dev).trans (decodeIo_ina clear fnc dev)
  | ota fnc dev => exact (decode_ioWord dp _ fnc dev).trans (decodeIo_ota (by simpa [Instr.wf] using hwf))
  | sgl | dbl | dxa | exa | rmp | sca | ink | nrm | iab | enb | inh | skp | nop | ssc | src | ss1 | sr1 | ss2 | sr2
  | ss3 | sr3 | ss4 | sr4 | sss | ssr | snz | sze | sln | slz | sps | spn | smi | spl | chs | cra | ssp | rcb | csa
  | cma | tca | ssm | scb | car | cal | icl | aoa | aca | icr | ica | smk | otk => rfl

end Sys2Proof

/-! ## Every word is the word of the instruction it decodes to -/

namespace Sys2Proof

/-- The instruction's row spells the word w, and the decoder may pick it under dp. -/
abbrev Instr.Spells (i : Instr) (dp : Bool) (w : Word) : Prop :=
  i.wf = true ∧ i.pickedUnder dp = true ∧ encode i = w

/-! The words with a row of their own. -/

theorem namedControl_spells (dp : Bool) :
    ∀ m ∈ namedControl, (decodeControl m).Spells dp (tenWord 0o00#6 m) := by revert dp; decide

theorem namedSkip_spells (dp : Bool) :
    ∀ m ∈ namedSkip, (decodeSkip m).Spells dp (tenWord 0o40#6 m) := by revert dp; decide

theorem namedOperate_spells (dp : Bool) :
    ∀ m ∈ namedOperate, (decodeOperate m).Spells dp (tenWord 0o60#6 m) := by revert dp; decide

theorem namedOta_spells (dp : Bool) :
    ∀ m ∈ namedOta, (decodeIo 3#2 m).Spells dp (tenWord (3#2 ++ 0o14#4) m) := by revert dp; decide

/-! The classes. -/

theorem decodeControl_spells (dp : Bool) (m : BitVec 10) : (decodeControl m).Spells dp (tenWord 0o00#6 m) := by
  obtain ⟨bits, last, rfl⟩ := exists_append_eq (n := 9) (m := 1) m
  have hlast : last = 0#1 ∨ last = 1#1 := by revert last; decide
  rcases hlast with rfl | rfl
  · rw [decodeControl_hlt]
    exact ⟨rfl, rfl, rfl⟩
  · by_cases hnamed : bits ++ 1#1 ∈ namedControl
    · exact namedControl_spells dp _ hnamed
    · rw [decodeControl_unnamed hnamed]
      exact ⟨by simpa [Instr.wf] using hnamed, rfl, rfl⟩

theorem decodeShift_spells (dp : Bool) (f : BitVec 4) (n : BitVec 6) :
    (decodeShift f n).Spells dp (shiftWord f n) := by
  obtain ⟨⟨f, hf⟩⟩ := f
  interval_cases f <;> exact ⟨rfl, rfl, rfl⟩

theorem decodeSkip_spells (dp : Bool) (m : BitVec 10) : (decodeSkip m).Spells dp (tenWord 0o40#6 m) := by
  obtain ⟨sense, cond, rfl⟩ := exists_ofBool_append_eq (n := 9) m
  by_cases hnamed : BitVec.ofBool sense ++ cond ∈ namedSkip
  · exact namedSkip_spells dp _ hnamed
  · rw [decodeSkip_unnamed hnamed]
    exact ⟨by simpa [Instr.wf] using hnamed, rfl, rfl⟩

theorem decodeOperate_spells (dp : Bool) (m : BitVec 10) : (decodeOperate m).Spells dp (tenWord 0o60#6 m) := by
  by_cases hnamed : m ∈ namedOperate
  · exact namedOperate_spells dp m hnamed
  · rw [decodeOperate_unnamed hnamed]
    exact ⟨by simpa [Instr.wf] using hnamed, rfl, rfl⟩

theorem decodeIo_spells (dp : Bool) (sub : BitVec 2) (fnc : BitVec 4) (dev : DevNum) :
    (decodeIo sub (fnc ++ dev)).Spells dp (ioWord sub fnc dev) := by
  have hsub : sub = 0#2 ∨ sub = 1#2 ∨ sub = 2#2 ∨ sub = 3#2 := by revert sub; decide
  rcases hsub with rfl | rfl | rfl | rfl
  · rw [decodeIo_ocp]
    exact ⟨rfl, rfl, rfl⟩
  · rw [decodeIo_sks]
    exact ⟨rfl, rfl, rfl⟩
  · obtain ⟨clear, fnc, rfl⟩ := exists_ofBool_append_eq (n := 3) fnc
    rw [decodeIo_ina]
    exact ⟨rfl, rfl, rfl⟩
  · by_cases hnamed : fnc ++ dev ∈ namedOta
    · rw [ioWord_eq]
      exact namedOta_spells dp _ hnamed
    · rw [decodeIo_ota hnamed]
      exact ⟨by simpa [Instr.wf] using hnamed, rfl, rfl⟩

theorem decodeMemRef_spells (dp : Bool) {opc : BitVec 4} (h : opc ≠ 0#4 ∧ opc ≠ 0o14#4 ∧ opc ≠ 0o15#4) (op : MemOp) :
    (decodeMemRef dp opc op).Spells dp (memRefWord opc op) := by
  obtain ⟨⟨opc, hopc⟩⟩ := opc
  obtain ⟨hzero, hio, hindex⟩ := h
  interval_cases opc
  any_goals contradiction
  all_goals cases dp <;> exact ⟨rfl, rfl, rfl⟩

theorem decode_spells (dp : Bool) (w : Word) : (decode dp w).Spells dp w := by
  cases wordForm w with
  | control m => exact decode_controlWord dp m ▸ decodeControl_spells dp m
  | shift f n => exact decode_shiftWord dp f n ▸ decodeShift_spells dp f n
  | skip m => exact decode_skipWord dp m ▸ decodeSkip_spells dp m
  | operate m => exact decode_operateWord dp m ▸ decodeOperate_spells dp m
  | io sub fnc dev => exact decode_ioWord dp sub fnc dev ▸ decodeIo_spells dp sub fnc dev
  | indexTransfer load op =>
    rw [decode_xferWord]
    cases load <;> exact ⟨rfl, rfl, rfl⟩
  | memoryReference h op => exact decode_memRefWord dp h op ▸ decodeMemRef_spells dp h op

/-- The round trip, said of a word. -/
theorem decode_eq_of_spells {i : Instr} {dp : Bool} {w : Word} (h : i.Spells dp w) : decode dp w = i := by
  obtain ⟨hwf, hpick, rfl⟩ := h
  exact decodeEncodeRoundTrip dp i hwf hpick

/-- Settles O2: the word's own instruction spells it, and by the round trip no other does. -/
theorem everyWordIsOneInstruction : Obligations.EveryWordIsOneInstruction := by
  intro dp w
  obtain ⟨hwf, hpick, hword⟩ := decode_spells dp w
  exact ⟨hwf, hpick, hword, fun i hi hp hw => (decode_eq_of_spells ⟨hi, hp, hw⟩).symm⟩

/-- Settles O4: each word is the encoding of the instruction named beside it, so the round trip decodes it. -/
theorem namedWordsDecode : Obligations.NamedWordsDecode := by
  refine ⟨?_, ?_, ?_, ?_, ?_, ?_, ?_, ?_, ?_, ?_, ?_, ?_, congrArg some ?_, rfl⟩ <;>
    exact decode_eq_of_spells (by decide)

end Sys2Proof

/-! ## The class of a word -/

namespace Sys2Proof

/-- The word of an instruction belongs to the instruction's class (30_encoding.md R101). -/
theorem classOf_encode (i : Instr) : classOf (encode i) = i.cls := by
  cases i with
  | jmp op | lda op | dld op | ana op | sta op | dst op | era op | add op | dad op | sub op | dsb op | jst op | cas op
  | irs op | ima op | mpy op | div op => exact classOf_memRefWord (by decide) op
  | stx op | ldx op => exact classOf_xferWord _ op
  | hlt bits | controlMicro bits => exact classOf_control _
  | lrl n | lrs n | lrr n | quirk3 n | lgr n | ars n | arr n | quirk7 n | lll n | lls n | llr n | quirk13 n | lgl n
  | als n | alr n | quirk17 n => exact classOf_shiftWord _ n
  | skip sense cond => exact classOf_skip _
  | undefinedOperate bits => exact classOf_operate bits
  | ocp fnc dev | sks fnc dev | ina clear fnc dev | ota fnc dev => exact classOf_ioWord _ _ dev
  | sgl | dbl | dxa | exa | rmp | sca | ink | nrm | iab | enb | inh | skp | nop | ssc | src | ss1 | sr1 | ss2 | sr2
  | ss3 | sr3 | ss4 | sr4 | sss | ssr | snz | sze | sln | slz | sps | spn | smi | spl | chs | cra | ssp | rcb | csa
  | cma | tca | ssm | scb | car | cal | icl | aoa | aca | icr | ica | smk | otk => rfl

/-- The decoder keeps the class it dispatched on. -/
theorem cls_decode (dp : Bool) (w : Word) : (decode dp w).cls = classOf w := by
  obtain ⟨_, _, hword⟩ := decode_spells dp w
  rw [← classOf_encode, hword]

/-- Settles O3: the decoder tests OP and then the two bits above it, the table tests G, which is both. -/
theorem classDispatch : Obligations.ClassDispatch := by
  intro dp w
  have hop : w.extractLsb' 10 4 = opField w := rfl
  rw [cls_decode, classOf, gField_eq, hop]
  generalize w.extractLsb' 14 2 = top
  generalize opField w = opc
  revert top opc
  decide

end Sys2Proof

/-! ## Effective addresses -/

namespace Sys2Proof.Machine

/-! ### The initial address -/

/-- The page bits of `Y0`: bits 14:9 of PC - 1 where S = 1 (40_effective_address.md R141). -/
def pageField (s : State) (sector : Bool) : BitVec 6 := if sector then (s.pc - 1).extractLsb' 9 6 else 0

theorem page_eq (s : State) (sector : Bool) : s.page sector = 0#1 ++ pageField s sector ++ 0#9 := by
  cases sector with
  | false => simp [State.page, pageField]
  | true =>
    simp only [State.page, pageField, if_true]
    generalize s.pc - 1 = pc
    refine BitVec.eq_of_getLsbD_eq fun i hi => ?_
    interval_cases i <;> simp only [BitVec.getLsbD_append] <;> simp

/-- The three parts of `Y0` lie side by side: no bit of one meets a bit of another. -/
theorem initialAddress_eq (s : State) (op : MemOp) :
    s.initialAddress op = BitVec.ofBool op.indirect ++ pageField s op.sector ++ op.disp := by
  rw [State.initialAddress, page_eq, BitVec.or_append, BitVec.or_append, BitVec.or_zero, BitVec.zero_or, BitVec.or_zero]

theorem toNat_append_eq_add {n m : Nat} (x : BitVec n) (y : BitVec m) :
    (x ++ y).toNat = x.toNat * 2 ^ m + y.toNat := by
  rw [BitVec.toNat_append, ← Nat.shiftLeft_add_eq_or_of_lt y.isLt, Nat.shiftLeft_eq]

theorem toNat_ofBool_mul (b : Bool) (n : Nat) : (BitVec.ofBool b).toNat * n = if b then n else 0 := by
  cases b <;> simp

theorem toNat_pageField_mul (s : State) (sector : Bool) :
    (pageField s sector).toNat * 512 = if sector then (s.pc - 1).toNat / 512 * 512 else 0 := by
  cases sector with
  | false => simp [pageField]
  | true =>
    have hpc := (s.pc - 1).isLt
    simp only [pageField, if_true, BitVec.extractLsb'_toNat, Nat.shiftRight_eq_div_pow]
    omega

/-- `Y0` as a sum (40_effective_address.md R141). -/
theorem toNat_initialAddress (s : State) (op : MemOp) :
    (s.initialAddress op).toNat = (if op.indirect then 32768 else 0) + op.disp.toNat +
      (if op.sector then (s.pc - 1).toNat / 512 * 512 else 0) := by
  rw [initialAddress_eq, toNat_append_eq_add, toNat_append_eq_add, ← toNat_ofBool_mul, ← toNat_pageField_mul]
  ring

theorem initialAddress_eq_of_toNat {s : State} {op : MemOp} {y0 : Word}
    (h : y0.toNat = (if op.indirect then 32768 else 0) + op.disp.toNat +
      (if op.sector then (s.pc - 1).toNat / 512 * 512 else 0)) : s.initialAddress op = y0 :=
  BitVec.eq_of_toNat_eq ((toNat_initialAddress s op).trans h.symm)

/-! ### Extended mode -/

theorem chaseExtended_of_direct {s : State} {y : Word} (h : y.getLsbD 15 = false) (hops : Nat) :
    s.chaseExtended hops y = some y := by
  cases hops <;> simp only [State.chaseExtended, h, Bool.false_eq_true, if_false]

/-- A word still indirect with no hop left gives no address (40_effective_address.md R144). -/
theorem chaseExtended_zero_of_indirect {s : State} {y : Word} (h : y.getLsbD 15 = true) :
    s.chaseExtended 0 y = none := by
  simp only [State.chaseExtended, h, if_true]

theorem chaseExtended_succ_of_indirect {s : State} {y : Word} (h : y.getLsbD 15 = true) (hops : Nat) :
    s.chaseExtended (hops + 1) y = s.chaseExtended hops (s.memRead (y.setWidth 15)) := by
  simp only [State.chaseExtended, h, if_true]

/-- `n` indirect words use up `n` hops and leave the word they lead to (40_effective_address.md R142). -/
theorem chaseExtended_after {s : State} {y : Nat → Word} {n : Nat} (hops : Nat)
    (hchain : ∀ i, i < n → y (i + 1) = s.memRead ((y i).setWidth 15))
    (hind : ∀ i, i < n → (y i).getLsbD 15 = true) :
    s.chaseExtended (n + hops) (y 0) = s.chaseExtended hops (y n) := by
  induction n generalizing hops with
  | zero => rw [Nat.zero_add]
  | succ n ih =>
    have hlt : ∀ {i}, i < n → i < n + 1 := fun hi => hi.trans n.lt_succ_self
    calc s.chaseExtended (n + 1 + hops) (y 0)
      _ = s.chaseExtended (n + (hops + 1)) (y 0) := by rw [Nat.add_right_comm, Nat.add_assoc]
      _ = s.chaseExtended (hops + 1) (y n) := ih (hops + 1) (fun i hi => hchain i (hlt hi)) fun i hi => hind i (hlt hi)
      _ = s.chaseExtended hops (y (n + 1)) := by
        rw [chaseExtended_succ_of_indirect (hind n n.lt_succ_self), hchain n n.lt_succ_self]

theorem ea_extended {s : State} (h : s.ext = true) (op : MemOp) :
    s.ea op = (s.chaseExtended s.cfg.indMax (s.initialAddress op)).map
      fun y => (y + if op.indexed then s.xr else 0).setWidth 15 := by
  rw [State.ea, if_pos h, State.eaExtended]

/-- Settles O21: the chain is followed word by word to its first direct word, or until the hops are used up. -/
theorem effectiveAddressExtended : Obligations.EffectiveAddressExtended := by
  intro s op y hext hy0 hchain
  rw [ea_extended hext, initialAddress_eq_of_toNat hy0]
  refine ⟨fun n hn hind hdirect => ?ends, fun hind => ?exhausted⟩
  case ends =>
    obtain ⟨hops, hmax⟩ := Nat.exists_eq_add_of_le hn
    rw [hmax, chaseExtended_after hops (fun i hi => hchain i (hi.trans_le hn)) hind, chaseExtended_of_direct hdirect,
      Option.map_some]
  case exhausted =>
    have hlast := chaseExtended_after 0 hchain fun i hi => hind i hi.le
    rw [← Nat.add_zero s.cfg.indMax, hlast, chaseExtended_zero_of_indirect (hind _ le_rfl), Option.map_none]

/-! ### Non-extended mode -/

theorem chaseBanked_of_direct {s : State} {w : Word} (h : w.getLsbD 15 = false) (hops : Nat) (y : Addr) :
    s.chaseBanked hops w y = some y := by
  cases hops <;> simp only [State.chaseBanked, h, Bool.false_eq_true, if_false]

/-- A word still indirect with no hop left gives no address (40_effective_address.md R144). -/
theorem chaseBanked_zero_of_indirect {s : State} {w : Word} (h : w.getLsbD 15 = true) (y : Addr) :
    s.chaseBanked 0 w y = none := by
  simp only [State.chaseBanked, h, if_true]

theorem chaseBanked_succ_of_indirect {s : State} {w : Word} (h : w.getLsbD 15 = true) (hops : Nat) (y : Addr) :
    s.chaseBanked (hops + 1) w y =
      s.chaseBanked hops (s.memRead y) (s.newa y (s.memRead y + if (s.memRead y).getLsbD 14 then s.xr else 0)) := by
  simp only [State.chaseBanked, h, if_true]

/-- The word last obtained counts only through its indirect bit: the address it gave is already known. -/
theorem chaseBanked_congr {s : State} {w w' : Word} (h : w.getLsbD 15 = w'.getLsbD 15) (hops : Nat) (y : Addr) :
    s.chaseBanked hops w y = s.chaseBanked hops w' y := by
  cases hops <;> simp only [State.chaseBanked, h]

/-- `n` hops of the indirection of non-extended mode: each word `w (i + 1)` is read at the address before it, and gives
the address `y (i + 1)` by its own index bit (40_effective_address.md R143). -/
def BankedChain (s : State) (n : Nat) (w : Nat → Word) (y : Nat → Addr) : Prop :=
  ∀ i, i < n → w (i + 1) = s.memRead (y i) ∧
    y (i + 1) = s.newa (y i) (w (i + 1) + if (w (i + 1)).getLsbD 14 then s.xr else 0)

section Chain

variable {s : State} {m n : Nat} {w : Nat → Word} {y : Nat → Addr}

theorem BankedChain.mono (h : BankedChain s n w y) (hmn : m ≤ n) : BankedChain s m w y :=
  fun i hi => h i (hi.trans_le hmn)

theorem BankedChain.chaseBanked_after (h : BankedChain s n w y) (hind : ∀ i, i < n → (w i).getLsbD 15 = true)
    (hops : Nat) : s.chaseBanked (n + hops) (w 0) (y 0) = s.chaseBanked hops (w n) (y n) := by
  induction n generalizing hops with
  | zero => rw [Nat.zero_add]
  | succ n ih =>
    obtain ⟨hword, haddr⟩ := h n n.lt_succ_self
    calc s.chaseBanked (n + 1 + hops) (w 0) (y 0)
      _ = s.chaseBanked (n + (hops + 1)) (w 0) (y 0) := by rw [Nat.add_right_comm, Nat.add_assoc]
      _ = s.chaseBanked (hops + 1) (w n) (y n) :=
        ih (h.mono n.le_succ) (fun i hi => hind i (hi.trans n.lt_succ_self)) (hops + 1)
      _ = s.chaseBanked hops (w (n + 1)) (y (n + 1)) := by
        rw [chaseBanked_succ_of_indirect (hind n n.lt_succ_self), ← hword, ← haddr]

theorem bankBit_newa_banked (hext : s.ext = false) (x : Addr) (v : Word) :
    (s.newa x v).getLsbD 14 = x.getLsbD 14 := by
  rw [State.getLsbD_newa_banked hext x v (by decide), if_pos rfl]

/-- No hop leaves the bank (40_effective_address.md R148). -/
theorem BankedChain.bankBit_eq (h : BankedChain s n w y) (hext : s.ext = false) :
    (y n).getLsbD 14 = (y 0).getLsbD 14 := by
  induction n with
  | zero => rfl
  | succ n ih =>
    obtain ⟨-, haddr⟩ := h n n.lt_succ_self
    rw [haddr, bankBit_newa_banked hext, ih (h.mono n.le_succ)]

end Chain

theorem ea_banked {s : State} (h : s.ext = false) (op : MemOp) {w : Word} (hw : w.getLsbD 15 = op.indirect) :
    s.ea op = s.chaseBanked s.cfg.indMax w
      (s.newa s.pc (s.initialAddress op + if op.indexed then s.xr else 0)) := by
  have hbit : (BitVec.ofBool op.indirect ++ 0#15).getLsbD 15 = w.getLsbD 15 := by
    rw [hw, BitVec.getLsbD_append]
    simp
  rw [State.ea, h, if_neg Bool.false_ne_true, State.eaBanked, chaseBanked_congr hbit]

/-- Settles O22: the chain is followed word by word to the address its first direct word gave, or until the hops are
used up, and each address has the bank bit of the one before it, the first that of PC. -/
theorem effectiveAddressBanked : Obligations.EffectiveAddressBanked := by
  intro s op y0 w y hext hy0 hw0 hstart hsteps
  have hchain : BankedChain s s.cfg.indMax w y := hsteps
  rw [ea_banked hext op hw0, initialAddress_eq_of_toNat hy0, ← hstart]
  refine ⟨fun n hn hind hdirect => ⟨?ends, ?bank⟩, fun hind => ?exhausted⟩
  case ends =>
    obtain ⟨hops, hmax⟩ := Nat.exists_eq_add_of_le hn
    rw [hmax, (hchain.mono hn).chaseBanked_after hind, chaseBanked_of_direct hdirect]
  case bank => rw [(hchain.mono hn).bankBit_eq hext, hstart, bankBit_newa_banked hext]
  case exhausted =>
    have hlast := hchain.chaseBanked_after (fun i hi => hind i hi.le) 0
    rw [← Nat.add_zero s.cfg.indMax, hlast, chaseBanked_zero_of_indirect (hind _ le_rfl)]

end Sys2Proof.Machine

/-! ## Memory-reference instructions -/

namespace Sys2Proof.Machine

/-! ### A store and what follows it -/

/-- One store serves every continuation: the memory it leaves is the same, whatever the instruction does next
(42_memory_reference.md R170). -/
theorem storeThen_stores (s : State) (y : Addr) (v : Word) :
    ∃ m, StoresWord s m y v ∧ ∀ rest : State → State,
      s.storeThen y v (fun s1 => .next (rest s1)) =
        .next (if y ∈ s.cfg.writeBkpt then { s with mem := m, run := .stopped .wbkpt }
          else rest { s with mem := m }) := by
  refine ⟨(s.memWrite y v).mem, memWrite_storesWord s y v, fun rest => ?_⟩
  rw [storeThen_eq]
  exact (apply_ite Host.Outcome.next _ _ _).symm

/-! ### LDA, ANA and ERA -/

/-- Settles O23: each is its body at the effective address. -/
theorem loadAndLogic : Obligations.LoadAndLogic := by
  intro op s
  exact ⟨fun hind => ⟨State.withEa_of_none hind _, State.withEa_of_none hind _, State.withEa_of_none hind _⟩,
    fun y hy => ⟨State.withEa_of_some hy _, State.withEa_of_some hy _, State.withEa_of_some hy _⟩⟩

/-! ### ADD and SUB -/

/-- The sign rule of the 16-bit adder is the signed overflow of the sum (41_adders.md R160). -/
theorem overflow16_eq (v1 v2 : Word) :
    overflow16 v1 v2 (v1 + v2) = decide (v1.toInt + v2.toInt < -32768 ∨ 32767 < v1.toInt + v2.toInt) := by
  have hsign : overflow16 v1 v2 (v1 + v2) = v1.saddOverflow v2 := (BitVec.saddOverflow_eq v1 v2).symm
  rw [hsign, BitVec.saddOverflow, ← Bool.decide_or, decide_eq_decide]
  omega

theorem add16_eq (s : State) (v1 v2 : Word) :
    s.add16 v1 v2 =
      { s with
        ar := v1 + v2
        c := decide (v1.toInt + v2.toInt < -32768 ∨ 32767 < v1.toInt + v2.toInt) } := by
  rw [State.add16, overflow16_eq]

/-- Settles O24: both are the 16-bit adder, SUB with the negated operand. -/
theorem addAndSubtract : Obligations.AddAndSubtract := by
  intro op s
  refine ⟨fun hind => ⟨State.withEa_of_none hind _, State.withEa_of_none hind _⟩, fun y hy => ⟨?add, ?sub⟩⟩
  case add => exact (State.withEa_of_some hy _).trans (congrArg _ (add16_eq s _ _))
  case sub =>
    rw [BitVec.sub_eq_add_neg]
    exact (State.withEa_of_some hy _).trans (congrArg _ (add16_eq s _ _))

/-! ### STA, IMA, STX and LDX -/

/-- Settles O25: one store of AR, after which STA is done and IMA loads the old word. -/
theorem storeAndInterchange : Obligations.StoreAndInterchange := by
  intro op s
  refine ⟨fun hind => ⟨State.withEa_of_none hind _, State.withEa_of_none hind _⟩, fun y hy => ?_⟩
  obtain ⟨m, hstores, hrun⟩ := storeThen_stores s y s.ar
  exact ⟨m, hstores, (State.withEa_of_some hy _).trans (hrun id),
    (State.withEa_of_some hy _).trans (hrun fun s1 => { s1 with ar := s.memRead y })⟩

/-- Settles O26: STX is a store of XR, LDX the write of the shadow cell. -/
theorem storeAndLoadIndex : Obligations.StoreAndLoadIndex := by
  rintro op s _ rfl
  refine ⟨fun hind => ⟨State.withEa_of_none hind _, State.withEa_of_none hind _⟩, fun y hy => ⟨?stx, ?ldx⟩⟩
  case stx =>
    obtain ⟨m, hstores, hrun⟩ := storeThen_stores s y s.xr
    exact ⟨m, hstores, (State.withEa_of_some hy _).trans (hrun id)⟩
  case ldx =>
    obtain ⟨-, hmem, hstores, -⟩ := xrIsTheShadowCell s (s.memRead y)
    exact ⟨_, hstores, (State.withEa_of_some hy _).trans (congrArg _ hmem)⟩

/-! ### JMP, CAS, JST and IRS -/

/-- A jump, with the pending extend-off taking effect where there is one (42_memory_reference.md R171, R179). -/
theorem jump_eq (s : State) (y : Word) :
    s.jump y =
      if s.extoff then { s with pc := s.newa s.pc y, ext := false, extoff := false }
      else { s with pc := s.newa s.pc y } := by
  cases h : s.extoff <;> simp [State.jump, h]

/-- Settles O27: JMP is the jump, and CAS moves PC by the outcome of the comparison. -/
theorem jumpAndCompare : Obligations.JumpAndCompare := by
  intro op s
  refine ⟨fun hind => ⟨State.withEa_of_none hind _, State.withEa_of_none hind _⟩, fun y hy => ⟨?jmp, ?cas⟩⟩
  case jmp => exact (State.withEa_of_some hy _).trans (congrArg _ (jump_eq s _))
  case cas =>
    refine (State.withEa_of_some hy _).trans ?_
    split_ifs <;> rfl

/-- In non-extended mode the merge of two words keeps bits 15:14 of the first (20_memory.md R80). -/
theorem newaWord_banked (x y : Word) : newaWord false x y = x.extractLsb' 14 2 ++ y.extractLsb' 0 14 := by
  refine BitVec.eq_of_getLsbD_eq fun i hi => ?_
  simp only [newaWord, Bool.false_eq_true, if_false, BitVec.getLsbD_append]
  interval_cases i <;> simp

/-- The link word: PC, in non-extended mode under bits 15:14 of the old word (42_memory_reference.md R178). -/
theorem toNat_linkWord (s : State) (y : Addr) :
    (s.linkWord y).toNat =
      if s.ext then s.pc.toNat else (s.memRead y).toNat / 16384 * 16384 + s.pc.toNat % 16384 := by
  have hpc : (s.pc.setWidth 16).toNat = s.pc.toNat := BitVec.toNat_setWidth_of_le (by decide)
  cases hext : s.ext with
  | true =>
    rw [State.linkWord, hext, newaWord, if_pos rfl, if_pos rfl, BitVec.toNat_and, hpc]
    exact (Nat.and_two_pow_sub_one_eq_mod s.pc.toNat 15).trans (Nat.mod_eq_of_lt s.pc.isLt)
  | false =>
    have hword := (s.memRead y).isLt
    rw [State.linkWord, hext, newaWord_banked, toNat_append_eq_add, BitVec.extractLsb'_toNat,
      BitVec.extractLsb'_toNat, hpc, Nat.shiftRight_eq_div_pow, if_neg Bool.false_ne_true]
    omega

/-- Settles O28: the store of the link word, then the jump behind it. -/
theorem jumpAndStore : Obligations.JumpAndStore := by
  intro op s
  refine ⟨fun hind => State.withEa_of_none hind _, fun y hy => ?_⟩
  obtain ⟨m, hstores, hrun⟩ := storeThen_stores s y (s.linkWord y)
  refine ⟨m, _, hstores, toNat_linkWord s y, ?_⟩
  have hexec : exec (.jst op) s = _ :=
    (State.withEa_of_some hy _).trans (hrun fun s1 => s1.jump (y.setWidth 16 + 1))
  rw [hexec, jump_eq]
  rfl

theorem add_one_eq_zero_iff (w : Word) : w + 1 = 0 ↔ w = 0o177777#16 := by
  bv_omega

/-- Settles O29: the store of the incremented word, then the skip on that word and not on what memory holds. -/
theorem incrementReplaceSkip : Obligations.IncrementReplaceSkip := by
  intro op s
  refine ⟨fun hind => State.withEa_of_none hind _, fun y hy => ?_⟩
  obtain ⟨m, hstores, hrun⟩ := storeThen_stores s y (s.memRead y + 1)
  refine ⟨m, hstores, (State.withEa_of_some hy _).trans ?_⟩
  rw [← decide_eq_decide.2 (add_one_eq_zero_iff (s.memRead y))]
  exact hrun fun s1 => s1.skipIf (decide (s.memRead y + 1 = 0))

/-! ### Double-length values -/

/-- `W31(h, l)` as an integer: AR is the signed high part over 15 bits (41_adders.md R163). -/
theorem toInt_w31 (h l : Word) : (w31 h l).toInt = h.toInt * 32768 + (l.toNat % 32768 : Nat) := by
  rw [w31, BitVec.toInt_append, BitVec.extractLsb'_toNat, if_neg (by decide), mul_comm]
  rfl

/-- The two words that hold a double-length value, under any bit 15 of the low word, hold it (41_adders.md R163). -/
theorem w31_extract (top : BitVec 1) (r : Double) :
    w31 (r.extractLsb' 15 16) (top ++ r.extractLsb' 0 15) = r := by
  rw [w31, BitVec.extractLsb'_append_eq_right, append_extractLsb'_self]

theorem getLsbD_top_append (top : Bool) (low : BitVec 15) : (BitVec.ofBool top ++ low).getLsbD 15 = top := by
  rw [BitVec.getLsbD_append]
  simp

theorem toNat_zero_append_lt (low : BitVec 15) : (0#1 ++ low).toNat < 32768 := by
  rw [toNat_append_eq_add, BitVec.toNat_zero, Nat.zero_mul, Nat.zero_add]
  exact low.isLt

/-! ### MPY and DIV -/

theorem illegal_eq (s : State) : s.illegal = illegalStop s := by
  unfold State.illegal illegalStop
  split <;> rfl

section ArithmeticOption

variable {s : State}

theorem needsHsa_of_absent (h : s.cfg.optHsa = false) (body : Result) :
    s.needsHsa body = .next (illegalStop s) := by
  rw [State.needsHsa, h, illegal_eq]
  rfl

theorem needsHsa_of_present (h : s.cfg.optHsa = true) (body : Result) : s.needsHsa body = body := by
  rw [State.needsHsa, if_pos h]

end ArithmeticOption

/-- A product of two words fits 31 bits signed, but for 2^30 (42_memory_reference.md R186). -/
theorem toInt_product {a m : Word} (h : a.toInt * m.toInt ≠ 1073741824) :
    (product a m).toInt = a.toInt * m.toInt := by
  have hlo : -1073741824 ≤ a.toInt * m.toInt := BitVec.le_toInt_mul_toInt
  have hhi : a.toInt * m.toInt ≤ 1073741824 := BitVec.toInt_mul_toInt_le
  rw [product, BitVec.toInt_ofInt]
  exact Int.bmod_eq_of_le (by omega) (by omega)

/-- Settles O30: the two words of `PUT31Z` hold the 31-bit product. -/
theorem multiply : Obligations.Multiply := by
  intro op s
  refine ⟨fun hopt => needsHsa_of_absent hopt _,
    fun hopt hind => (needsHsa_of_present hopt _).trans (State.withEa_of_none hind _), ?_⟩
  rintro y p hopt hy rfl
  have hexec : exec (.mpy op) s = .next { (s.put31z (product s.ar (s.memRead y))).drawC with sc := 0 } :=
    (needsHsa_of_present hopt _).trans (State.withEa_of_some hy _)
  generalize hprod : product s.ar (s.memRead y) = r at hexec
  refine ⟨r.extractLsb' 15 16, 0#1 ++ r.extractLsb' 0 15, _, hexec, getLsbD_top_append false _, fun hp => ?fits,
    fun hp => ?wraps⟩
  case fits =>
    calc (r.extractLsb' 15 16).toInt * 32768 + ((0#1 ++ r.extractLsb' 0 15 : Word).toNat : Int)
      _ = (w31 (r.extractLsb' 15 16) (0#1 ++ r.extractLsb' 0 15)).toInt := by
        rw [toInt_w31, Nat.mod_eq_of_lt (toNat_zero_append_lt _)]
      _ = s.ar.toInt * (s.memRead y).toInt := by rw [w31_extract, ← hprod, toInt_product hp]
  case wraps =>
    obtain rfl : r = BitVec.ofInt 31 1073741824 := by rw [← hprod, product, hp]
    decide

/-- The quotient truncated toward zero is the one whose remainder is below the divisor and has the dividend's sign
(42_memory_reference.md R187). -/
theorem tdiv_eq_of_remainder {n d q r : Int} (h : n = q * d + r) (hlt : |r| < |d|) (hsign : 0 ≤ r * n) :
    n.tdiv d = q := by
  have hd : d ≠ 0 := abs_pos.1 ((abs_nonneg r).trans_lt hlt)
  have hsum : r + d * q = n := by rw [h]; ring
  rw [Int.abs_eq_natAbs d] at hlt
  obtain ⟨hlo, hhi⟩ := abs_lt.1 hlt
  rcases lt_trichotomy r 0 with hr | rfl | hr
  · exact ((Int.tdiv_tmod_unique' (nonpos_of_mul_nonneg_right hsign hr) hd).2 ⟨hsum, hlo, hr.le⟩).1
  · rw [h, add_zero, Int.mul_tdiv_cancel q hd]
  · exact ((Int.tdiv_tmod_unique (nonneg_of_mul_nonneg_right hsign hr) hd).2 ⟨hsum, hr.le, hhi⟩).1

section Quotient

variable {s : State} {n d q r : Int}

theorem divide_of_fits (hsum : n = q * d + r) (hq : n.tdiv d = q) (hfits : -32768 ≤ q ∧ q < 32768) :
    s.divide n d = { s with ar := BitVec.ofInt 16 q, br := BitVec.ofInt 16 r, c := false, sc := 0 } := by
  have hr : n - q * d = r := by rw [hsum, add_sub_cancel_left]
  rw [State.divide, hq, hr, if_pos (by simpa [quotientFits] using hfits)]

theorem divide_of_overflow (hq : n.tdiv d = q) (hover : q < -32768 ∨ 32768 ≤ q) :
    s.divide n d = { s.drawArBr with c := true, sc := 0 } := by
  have hfits : ¬quotientFits q = true := by
    simp only [quotientFits, Bool.and_eq_true, decide_eq_true_eq]
    omega
  rw [State.divide, hq, if_neg hfits]

end Quotient

/-- Settles O31: the divisor 0 first, then the quotient that fits, then the one that does not. -/
theorem divide : Obligations.Divide := by
  intro op s
  refine ⟨fun hopt => needsHsa_of_absent hopt _,
    fun hopt hind => (needsHsa_of_present hopt _).trans (State.withEa_of_none hind _), ?_⟩
  rintro y n d q r hopt hy rfl hn
  rw [← toInt_w31] at hn
  have hexec : exec (.div op) s = if s.memRead y = 0 then .next { s with c := true }
      else .next (s.divide (w31 s.ar s.br).toInt (s.memRead y).toInt) :=
    (needsHsa_of_present hopt _).trans (State.withEa_of_some hy _)
  rw [← hn] at hexec
  refine ⟨fun hzero => ?zero, fun hsum hlt hsign => ?_⟩
  case zero => rw [hexec, if_pos (BitVec.eq_of_toInt_eq hzero)]
  have hne : s.memRead y ≠ 0 := by
    intro hzero
    rw [hzero] at hlt
    exact absurd (abs_nonneg r) hlt.not_ge
  have hq := tdiv_eq_of_remainder hsum hlt hsign
  rw [hexec, if_neg hne]
  refine ⟨fun hfits => ?fits, fun hover => ?overflow⟩
  case fits => rw [divide_of_fits hsum hq hfits]
  case overflow => exact ⟨_, _, congrArg _ (divide_of_overflow hq hover)⟩

/-! ### DLD, DAD, DSB and DST -/

theorem exec_dld (op : MemOp) (s : State) : exec (.dld op) s = execDld op s := rfl
theorem exec_dst (op : MemOp) (s : State) : exec (.dst op) s = execDst op s := rfl
theorem exec_dad (op : MemOp) (s : State) : exec (.dad op) s = execDad op s := rfl
theorem exec_dsb (op : MemOp) (s : State) : exec (.dsb op) s = execDsb op s := rfl

theorem evenOf_of_even {y : Addr} (h : y.getLsbD 0 = false) : evenOf y = y := by
  have hlow : y[0] = false := h
  refine BitVec.eq_of_getLsbD_eq fun i hi => ?_
  rw [evenOf, BitVec.getLsbD_and]
  interval_cases i <;> simp [hlow]

theorem oddOf_of_even {y : Addr} (h : y.getLsbD 0 = false) : oddOf y = y + 1 := by
  have hlow : y[0] = false := h
  have hbits : y &&& 1#15 = 0#15 := by
    refine BitVec.eq_of_getLsbD_eq fun i hi => ?_
    rw [BitVec.getLsbD_and]
    interval_cases i <;> simp [hlow]
  exact (BitVec.add_eq_or_of_and_eq_zero y 1#15 hbits).symm

/-- The double-precision instructions with this operand run, on the words at y1 and y2: `DP_ODD` allows the address
(42_memory_reference.md R189, R190). -/
def RunsOnPair (s : State) (op : MemOp) (y1 y2 : Addr) : Prop :=
  ∀ (name : DoubleOp) (body : Addr → Addr → Result), s.withPair name op body = body y1 y2

section Pair

variable {s : State} {op : MemOp} {y y1 y2 : Addr}

theorem withPair_of_some (hy : s.ea op = some y) (name : DoubleOp) (body : Addr → Addr → Result) :
    s.withPair name op body =
      if s.pairAllowed y then body (evenOf y) (oddOf y) else .fault (.oddDoubleAddress name y) := by
  rw [State.withPair, State.withEa_of_some hy]

/-- At an even address the pair is Y and the next address, whatever `DP_ODD` is (42_memory_reference.md R189). -/
theorem runsOnPair_of_even (hy : s.ea op = some y) (heven : y.getLsbD 0 = false) : RunsOnPair s op y (y + 1) := by
  have hallowed : s.pairAllowed y = true := by
    rw [State.pairAllowed, heven]
    split <;> rfl
  intro name body
  rw [withPair_of_some hy, if_pos hallowed, evenOf_of_even heven, oddOf_of_even heven]

theorem runsOnPair_of_dpOdd (hy : s.ea op = some y) (hpair : s.cfg.dpOdd = .pair) :
    RunsOnPair s op (evenOf y) (oddOf y) := by
  intro name body
  rw [withPair_of_some hy, State.pairAllowed, hpair, if_pos rfl]

theorem withPair_of_odd_fault (hy : s.ea op = some y) (hodd : y.getLsbD 0 = true) (hfault : s.cfg.dpOdd = .fault)
    (name : DoubleOp) (body : Addr → Addr → Result) :
    s.withPair name op body = .fault (.oddDoubleAddress name y) := by
  rw [withPair_of_some hy, State.pairAllowed, hfault, hodd]
  rfl

theorem RunsOnPair.dld (h : RunsOnPair s op y1 y2) :
    exec (.dld op) s = .next { s with ar := s.memRead y1, br := s.memRead y2, sc := 0 } := by
  rw [exec_dld, execDld, h]

/-- DST stores to the second word in the memory that the first store leaves (42_memory_reference.md R191). -/
theorem RunsOnPair.dst (h : RunsOnPair s op y1 y2) :
    ∃ m1 m2, StoresWord s m1 y1 s.ar ∧ StoresWord { s with mem := m1 } m2 y2 s.br ∧
      exec (.dst op) s =
        .next (if y1 ∈ s.cfg.writeBkpt then { s with mem := m1, run := .stopped .wbkpt }
          else if y2 ∈ s.cfg.writeBkpt then { s with mem := m2, run := .stopped .wbkpt }
          else { s with mem := m2, sc := 0 }) := by
  obtain ⟨m2, hstores, hrun⟩ := storeThen_stores { s with mem := (s.memWrite y1 s.ar).mem } y2 s.br
  refine ⟨_, m2, memWrite_storesWord s y1 s.ar, hstores, ?_⟩
  rw [exec_dst, execDst, h, storeThen_eq, hrun fun s2 => { s2 with sc := 0 }]
  exact (apply_ite Host.Outcome.next _ _ _).symm

end Pair

/-- C after the 31-bit adder is the signed overflow of the sum (41_adders.md R161). -/
theorem overflow31_eq (v1 v2 : Double) :
    overflow31 v1 v2 (v1 + v2) =
      decide (v1.toInt + v2.toInt < -1073741824 ∨ 1073741824 ≤ v1.toInt + v2.toInt) := by
  have hsign : overflow31 v1 v2 (v1 + v2) = v1.saddOverflow v2 := (BitVec.saddOverflow_eq v1 v2).symm
  rw [hsign, BitVec.saddOverflow, ← Bool.decide_or, decide_eq_decide]
  omega

/-- The signed value of AR:BR plus v wrapped to 31 bits, C where it wraps, and BR's sign bit kept
(41_adders.md R161, R163; 42_memory_reference.md R192, R193). -/
theorem addDouble_eq (s : State) {v : Double} {x z : Int}
    (hx : x = s.ar.toInt * 32768 + (s.br.toNat % 32768 : Nat)) (hz : z = v.toInt) :
    ∃ a b : Word, b.getLsbD 15 = s.br.getLsbD 15 ∧
      a.toInt * 32768 + (b.toNat % 32768 : Nat) = Int.bmod (x + z) 2147483648 ∧
      s.addDouble v =
        { s with ar := a, br := b, c := decide (x + z < -1073741824 ∨ 1073741824 ≤ x + z), sc := 0 } := by
  rw [← toInt_w31] at hx
  subst hx hz
  rw [← overflow31_eq]
  generalize hsum : w31 s.ar s.br + v = r
  refine ⟨r.extractLsb' 15 16, BitVec.ofBool (s.br.getLsbD 15) ++ r.extractLsb' 0 15, getLsbD_top_append _ _,
    ?value, ?state⟩
  case value => rw [← toInt_w31, w31_extract, ← hsum, BitVec.toInt_add]
  case state =>
    rw [State.addDouble, State.flag31, hsum]
    rfl

/-- DAD and DSB: the operand's value is added, or its negation within 31 bits (42_memory_reference.md R192, R193;
41_adders.md R162). -/
theorem RunsOnPair.dad_dsb {s : State} {op : MemOp} {y1 y2 : Addr} (h : RunsOnPair s op y1 y2) {x z z' : Int}
    (hx : x = s.ar.toInt * 32768 + (s.br.toNat % 32768 : Nat))
    (hz : z = (s.memRead y1).toInt * 32768 + ((s.memRead y2).toNat % 32768 : Nat))
    (hz' : z' = Int.bmod (-z) 2147483648) :
    (∃ a b : Word, b.getLsbD 15 = s.br.getLsbD 15 ∧
      a.toInt * 32768 + (b.toNat % 32768 : Nat) = Int.bmod (x + z) 2147483648 ∧
      exec (.dad op) s =
        .next { s with ar := a, br := b, c := decide (x + z < -1073741824 ∨ 1073741824 ≤ x + z), sc := 0 }) ∧
    ∃ a b : Word, b.getLsbD 15 = s.br.getLsbD 15 ∧
      a.toInt * 32768 + (b.toNat % 32768 : Nat) = Int.bmod (x + z') 2147483648 ∧
      exec (.dsb op) s =
        .next { s with ar := a, br := b, c := decide (x + z' < -1073741824 ∨ 1073741824 ≤ x + z'), sc := 0 } := by
  have hv : z = (s.readDouble y1 y2).toInt := hz.trans (toInt_w31 _ _).symm
  have hv' : z' = (-s.readDouble y1 y2).toInt := by rw [hz', hv, BitVec.toInt_neg]
  obtain ⟨a, b, hsign, hvalue, hadd⟩ := addDouble_eq s hx hv
  obtain ⟨a', b', hsign', hvalue', hadd'⟩ := addDouble_eq s hx hv'
  exact ⟨⟨a, b, hsign, hvalue, by rw [exec_dad, execDad, h, hadd]⟩,
    a', b', hsign', hvalue', by rw [exec_dsb, execDsb, h, hadd']⟩

/-- Settles O32: an even address has its pair, and the sums are those of the 31-bit adder. -/
theorem doubleLoadAndAdd : Obligations.DoubleLoadAndAdd := by
  intro op s
  refine ⟨fun hind => ⟨State.withEa_of_none hind _, State.withEa_of_none hind _, State.withEa_of_none hind _⟩, ?_⟩
  intro y x z z' hy heven hx hz hz'
  have hpair := runsOnPair_of_even hy heven
  exact ⟨hpair.dld, hpair.dad_dsb hx hz hz'⟩

/-- Settles O33: an even address has its pair, and DST stores to it. -/
theorem doubleStore : Obligations.DoubleStore := by
  intro op s
  exact ⟨fun hind => State.withEa_of_none hind _, fun y hy heven => (runsOnPair_of_even hy heven).dst⟩

/-- Settles O34: `DP_ODD` either faults or gives the pair, on which each instruction does what it does on the pair of an
even address. -/
theorem oddDoubleAddress : Obligations.OddDoubleAddress := by
  rintro op s y _ _ hy hodd rfl rfl
  refine ⟨fun hfault => ?fault, fun hdpOdd => ?pair⟩
  case fault =>
    have hfaults := withPair_of_odd_fault hy hodd hfault
    rw [exec_dld, exec_dst, exec_dad, exec_dsb]
    exact ⟨hfaults .dld _, hfaults .dst _, hfaults .dad _, hfaults .dsb _⟩
  case pair =>
    have hpair : RunsOnPair s op (y &&& 0o77776#15) (y ||| 1#15) := runsOnPair_of_dpOdd hy hdpOdd
    exact ⟨hpair.dld, hpair.dst, fun x z z' hx hz hz' => hpair.dad_dsb hx hz hz'⟩

end Sys2Proof.Machine

/-! ## Control words -/

namespace Sys2Proof.Machine

/-! ### Words of one sub-operation -/

theorem controlWord_of_plain {m : BitVec 10} {s : State} {body : State → State}
    (h : controlOps m s = ({ state := s, bad := false } : ControlRun).plain body) :
    controlWord m s = .next (body s) := by
  rw [controlWord, h]
  rfl

theorem controlWord_of_gated {m : BitVec 10} {s : State} {option : Bool} {body : State → State}
    (h : controlOps m s = ({ state := s, bad := false } : ControlRun).gated option body) :
    controlWord m s = .next (if option then body s else illegalStop s) := by
  rw [controlWord, h, ← illegal_eq]
  cases option <;> rfl

/-- Settles O35: HLT is the stop alone, and the empty words run no sub-operation. -/
theorem haltAndEmptyControlWords : Obligations.HaltAndEmptyControlWords := by
  intro bits s
  exact ⟨rfl, controlWord_of_plain (body := id) rfl, controlWord_of_plain (body := id) rfl⟩

theorem exec_sgl (s : State) : exec .sgl s = .next (if s.cfg.optHsa then s.setPrecision false else illegalStop s) :=
  controlWord_of_gated rfl

theorem exec_dbl (s : State) : exec .dbl s = .next (if s.cfg.optHsa then s.setPrecision true else illegalStop s) :=
  controlWord_of_gated rfl

theorem exec_dxa (s : State) : exec .dxa s = .next (if s.cfg.optExt then s.setExtend false else illegalStop s) :=
  controlWord_of_gated rfl

theorem exec_exa (s : State) : exec .exa s = .next (if s.cfg.optExt then s.setExtend true else illegalStop s) :=
  controlWord_of_gated rfl

theorem exec_rmp (s : State) : exec .rmp s = .next s.clearParity := controlWord_of_plain rfl

theorem exec_sca (s : State) : exec .sca s = .next (if s.cfg.optHsa then s.readShiftCount else illegalStop s) :=
  controlWord_of_gated rfl

theorem exec_ink (s : State) : exec .ink s = .next s.readKeys := controlWord_of_plain rfl

theorem exec_nrm (s : State) : exec .nrm s = .next (if s.cfg.optHsa then s.normalize else illegalStop s) :=
  controlWord_of_gated rfl

theorem exec_iab (s : State) : exec .iab s = .next s.interchange := controlWord_of_plain rfl

theorem exec_enb (s : State) : exec .enb s = .next s.enable := controlWord_of_plain rfl

theorem exec_inh (s : State) : exec .inh s = .next s.inhibit := controlWord_of_plain rfl

/-- RMP clears the line of the memory-parity error and no other (43_control.md R216). -/
theorem getLsbD_clearParity (s : State) (i : Fin 16) :
    s.clearParity.intReq.getLsbD i.val = (s.intReq.getLsbD i.val && decide (i ≠ s.cfg.lineMpe)) := by
  have hline : ∀ i j : Fin 16, (~~~(1#16 <<< j.val)).getLsbD i.val = decide (i ≠ j) := by decide
  rw [State.clearParity_intReq, BitVec.getLsbD_and, hline]

theorem setExtend_eq (s : State) (v : Bool) :
    s.setExtend v = { s with ext := if v then true else s.ext, extoff := !v } := by
  cases v <;> simp [State.setExtend]

/-- Settles O36: each is one sub-operation, and the word of ENB and INH runs the two in that order. -/
theorem modeAndInterruptControls : Obligations.ModeAndInterruptControls := by
  intro s
  have hboth : exec (.controlMicro 0o600#9) s = .next s.enable.inhibit :=
    controlWord_of_plain (body := fun t => t.enable.inhibit) rfl
  exact ⟨exec_sgl s, exec_dbl s, setExtend_eq s false ▸ exec_dxa s, setExtend_eq s true ▸ exec_exa s,
    ⟨_, getLsbD_clearParity s, exec_rmp s⟩, exec_enb s, exec_inh s, hboth⟩

theorem toNat_readShiftCount (s : State) : s.readShiftCount.ar.toNat = s.sc.toNat % 32 := by
  rw [State.readShiftCount_ar, BitVec.toNat_setWidth_of_le (by decide), BitVec.extractLsb'_toNat]
  rfl

/-- The readback word as a number (43_control.md R218). -/
theorem toNat_keys (s : State) :
    s.keys.toNat = s.c.toNat * 32768 + s.dp.toNat * 16384 + s.pme.toNat * 8192 + s.sc.toNat % 32 := by
  have hcount : (s.sc.extractLsb' 0 5).toNat = s.sc.toNat % 32 := by rw [BitVec.extractLsb'_toNat]; rfl
  simp only [State.keys, toNat_append_eq_add, BitVec.toNat_ofBool, BitVec.toNat_zero, hcount]
  omega

/-- Settles O37: each is one sub-operation, of which only SCA needs an option. -/
theorem readbackAndInterchange : Obligations.ReadbackAndInterchange := by
  intro s
  exact ⟨⟨_, toNat_readShiftCount s, exec_sca s⟩, ⟨_, toNat_keys s, exec_ink s⟩, _, exec_iab s⟩

/-! ### NRM -/

/-- The sign bits agree in the lower half of the range, where doubling does not overflow. -/
theorem signBits_eq_iff (a : Word) : a.getLsbD 15 = a.getLsbD 14 ↔ -16384 ≤ a.toInt ∧ a.toInt < 16384 := by
  have ha := a.isLt
  rw [← BitVec.testBit_toNat, ← BitVec.testBit_toNat, Nat.testBit_eq_decide_div_mod_eq,
    Nat.testBit_eq_decide_div_mod_eq, decide_eq_decide, BitVec.toInt_eq_toNat_cond]
  split_ifs <;> omega

/-- A step of NRM shifts the double-length value left by one (43_control.md R219). -/
theorem w31_normalizeStep {ar br : Word} (h : ar.getLsbD 15 = ar.getLsbD 14) :
    w31 (normalizeStep ar br).1 (normalizeStep ar br).2 = w31 ar br <<< 1 := by
  have hsign : ar[15] = ar[14] := h
  refine BitVec.eq_of_getLsbD_eq fun i hi => ?_
  simp only [w31, normalizeStep, BitVec.getLsbD_append, BitVec.getLsbD_extractLsb', BitVec.getLsbD_shiftLeft]
  interval_cases i <;> simp [hsign]

theorem getLsbD_normalizeStep (ar br : Word) : (normalizeStep ar br).2.getLsbD 15 = br.getLsbD 15 := by
  simp [normalizeStep]

/-- It does not overflow, for it is done only while the sign bits agree (43_control.md R219). -/
theorem toInt_normalizeStep {ar br : Word} (h : ar.getLsbD 15 = ar.getLsbD 14) :
    (w31 (normalizeStep ar br).1 (normalizeStep ar br).2).toInt = (w31 ar br).toInt * 2 := by
  have hrange : -536870912 ≤ (w31 ar br).toInt ∧ (w31 ar br).toInt < 536870912 := by
    have := (signBits_eq_iff ar).1 h
    rw [toInt_w31]
    omega
  rw [w31_normalizeStep h, BitVec.shiftLeft_eq_mul_twoPow]
  rw [BitVec.toInt_mul, show (BitVec.twoPow 31 1).toInt = 2 from by decide]
  exact Int.bmod_eq_of_le (by omega) (by omega)

/-- NRM's loop does k steps: each doubles the value, and it ends where the sign bits differ or the steps are used up
(43_control.md R219). -/
theorem normalizeLoop_eq (fuel n : Nat) (ar br : Word) :
    ∃ (k : Nat) (a b : Word), normalizeLoop fuel n ar br = (a, b, n + k) ∧ k ≤ fuel ∧
      b.getLsbD 15 = br.getLsbD 15 ∧ (w31 a b).toInt = (w31 ar br).toInt * 2 ^ k ∧
      (k < fuel → a.getLsbD 15 ≠ a.getLsbD 14) ∧ (ar.getLsbD 15 ≠ ar.getLsbD 14 → k = 0) := by
  induction fuel generalizing n ar br with
  | zero => exact ⟨0, ar, br, rfl, le_rfl, rfl, (mul_one _).symm, fun h => absurd h (lt_irrefl 0), fun _ => rfl⟩
  | succ fuel ih =>
    by_cases h : ar.getLsbD 15 = ar.getLsbD 14
    · obtain ⟨k, a, b, hloop, hk, hsign, hvalue, hdone, -⟩ :=
        ih (n + 1) (normalizeStep ar br).1 (normalizeStep ar br).2
      refine ⟨k + 1, a, b, ?_, Nat.succ_le_succ hk, hsign.trans (getLsbD_normalizeStep ar br), ?_,
        fun hlt => hdone (Nat.lt_of_succ_lt_succ hlt), fun hne => absurd h hne⟩
      · rw [normalizeLoop, if_pos h, hloop, Nat.add_assoc, Nat.add_comm 1 k]
      · rw [hvalue, toInt_normalizeStep h, mul_assoc, ← pow_succ']
    · refine ⟨0, ar, br, ?_, Nat.zero_le _, rfl, (mul_one _).symm, fun _ => h, fun _ => rfl⟩
      rw [normalizeLoop, if_neg h, Nat.add_zero]

/-- Settles O38: the loop of NRM, by induction on its steps. 32 steps without overflow leave only the value 0. -/
theorem normalize : Obligations.Normalize := by
  intro s
  refine ⟨fun hopt => by rw [exec_nrm, hopt]; rfl, fun hopt => ?_⟩
  obtain ⟨n, a, b, hloop, hn, hsign, hvalue, hdone, hnone⟩ := normalizeLoop_eq 32 0 s.ar s.br
  rw [Nat.zero_add] at hloop
  rw [toInt_w31, toInt_w31] at hvalue
  refine ⟨n, a, b, hn, ?run, hsign, hvalue, hdone, ?zero, hnone⟩
  case run => rw [exec_nrm, hopt, if_pos rfl, State.normalize, hloop]
  case zero =>
    rintro rfl
    have ha : -32768 ≤ a.toInt := BitVec.le_toInt a
    have ha' : a.toInt < 32768 := BitVec.toInt_lt
    have har : s.ar.toInt = 0 := by omega
    exact ⟨BitVec.eq_of_toInt_eq har, by omega⟩

/-! ### Words of several sub-operations -/

theorem ControlRun.onBit_plain (r : ControlRun) (bit : Bool) (body : State → State) :
    r.onBit bit (fun t => t.plain body) = { r with state := if bit then body r.state else r.state } := by
  cases bit <;> rfl

theorem ControlRun.onBit_gated (r : ControlRun) (bit : Bool) (option : ControlRun → Bool) (body : State → State) :
    r.onBit bit (fun t => t.gated (option t) body) =
      { state := if bit && option r then body r.state else r.state, bad := r.bad || (bit && !option r) } := by
  cases bit
  · simp [ControlRun.onBit]
  · rfl

/-- What a control word has done before its readback, NRM or IAB: the modes and RMP (43_control.md R211). -/
def modeOps (m : BitVec 10) (s : State) : ControlRun where
  state :=
    { s with
      dp := if m.getLsbD 2 && s.cfg.optHsa then m.getLsbD 1 else s.dp
      ext := if m.getLsbD 3 && s.cfg.optExt && m.getLsbD 1 then true else s.ext
      extoff := if m.getLsbD 3 && s.cfg.optExt then !m.getLsbD 1 else s.extoff
      intReq := if m.getLsbD 4 then s.clearParity.intReq else s.intReq }
  bad := (m.getLsbD 2 && !s.cfg.optHsa) || (m.getLsbD 3 && !s.cfg.optExt)

theorem modeOps_cfg (m : BitVec 10) (s : State) : (modeOps m s).state.cfg = s.cfg := rfl

theorem getLsbD_modeOps_intReq (m : BitVec 10) (s : State) (i : Fin 16) :
    (modeOps m s).state.intReq.getLsbD i.val =
      (s.intReq.getLsbD i.val && !(m.getLsbD 4 && decide (i = s.cfg.lineMpe))) := by
  rw [modeOps]
  cases m.getLsbD 4 with
  | false => exact (Bool.and_true _).symm
  | true => rw [if_pos rfl, getLsbD_clearParity, Bool.true_and, decide_not]

theorem setPrecision_if (s : State) (b v : Bool) :
    (if b then s.setPrecision v else s) = { s with dp := if b then v else s.dp } := by
  cases b <;> rfl

theorem setExtend_if (s : State) (b v : Bool) :
    (if b then s.setExtend v else s) =
      { s with ext := if b && v then true else s.ext, extoff := if b then !v else s.extoff } := by
  cases b with
  | false => rfl
  | true => exact setExtend_eq s v

theorem clearParity_if (s : State) (b : Bool) :
    (if b then s.clearParity else s) = { s with intReq := if b then s.clearParity.intReq else s.intReq } := by
  cases b <;> rfl

theorem enable_inhibit_if (s : State) (b b' : Bool) :
    (if b' then (if b then s.enable else s).inhibit else if b then s.enable else s) =
      { s with
        intOn := if b' then false else if b then true else s.intOn
        intNodef := if b then false else s.intNodef } := by
  cases b <;> cases b' <;> rfl

/-- The order of a control word: the modes and RMP, then one of readback, NRM and IAB, then ENB and INH
(43_control.md R211). -/
theorem controlOps_eq (m : BitVec 10) (s : State) :
    controlOps m s =
      { state :=
          { ((modeOps m s).exclusive m).state with
            intOn :=
              if m.getLsbD 9 then false else if m.getLsbD 8 then true
              else ((modeOps m s).exclusive m).state.intOn
            intNodef := if m.getLsbD 8 then false else ((modeOps m s).exclusive m).state.intNodef }
        bad := ((modeOps m s).exclusive m).bad } := by
  simp only [controlOps, ControlRun.onBit_gated, ControlRun.onBit_plain, setPrecision_if, setExtend_if,
    clearParity_if, enable_inhibit_if, Bool.false_or]
  rfl

/-- Of the readback, NRM and IAB the first runs, with the option it needs (43_control.md R211). -/
theorem exclusive_state (m : BitVec 10) (r : ControlRun) :
    (r.exclusive m).state =
      if m.getLsbD 5 then
        if m.getLsbD 1 then r.state.readKeys else if r.state.cfg.optHsa then r.state.readShiftCount else r.state
      else if m.getLsbD 6 then if r.state.cfg.optHsa then r.state.normalize else r.state
      else if m.getLsbD 7 then r.state.interchange
      else r.state := by
  simp only [ControlRun.exclusive, ControlRun.readback, apply_ite ControlRun.state]
  rfl

theorem exclusive_bad (m : BitVec 10) (r : ControlRun) :
    (r.exclusive m).bad =
      (r.bad || (m.getLsbD 5 && !m.getLsbD 1 && !r.state.cfg.optHsa) ||
        (!m.getLsbD 5 && m.getLsbD 6 && !r.state.cfg.optHsa)) := by
  simp only [ControlRun.exclusive, ControlRun.readback, ControlRun.gated, ControlRun.plain]
  cases m.getLsbD 5 with
  | true => cases m.getLsbD 1 <;> simp
  | false =>
    cases m.getLsbD 6 with
    | true => simp
    | false => cases m.getLsbD 7 <;> simp

/-- The readback loads AR: INK always, SCA with the arithmetic option (43_control.md R217, R218). -/
theorem exclusive_of_readback {m : BitVec 10} (h5 : m.getLsbD 5 = true) (r : ControlRun) :
    (r.exclusive m).state.br = r.state.br ∧ (r.exclusive m).state.sc = r.state.sc ∧
      (r.exclusive m).state.draws = r.state.draws ∧
      (m.getLsbD 1 = true → (r.exclusive m).state.ar.toNat =
        r.state.c.toNat * 32768 + r.state.dp.toNat * 16384 + r.state.pme.toNat * 8192 + r.state.sc.toNat % 32) ∧
      (m.getLsbD 1 = false → r.state.cfg.optHsa = true → (r.exclusive m).state.ar.toNat = r.state.sc.toNat % 32) ∧
      (m.getLsbD 1 = false → r.state.cfg.optHsa = false → (r.exclusive m).state.ar = r.state.ar) := by
  rw [exclusive_state, if_pos h5]
  cases m.getLsbD 1 with
  | true => exact ⟨rfl, rfl, rfl, fun _ => toNat_keys r.state, nofun, nofun⟩
  | false =>
    cases r.state.cfg.optHsa with
    | true => exact ⟨rfl, rfl, rfl, nofun, fun _ _ => toNat_readShiftCount r.state, nofun⟩
    | false => exact ⟨rfl, rfl, rfl, nofun, nofun, fun _ _ => rfl⟩

/-- Whichever runs, it writes AR, BR and SC, may draw a free value, and changes nothing else (43_control.md R211). -/
theorem exclusive_frame (m : BitVec 10) (r : ControlRun) :
    (r.exclusive m).state =
      { r.state with
        ar := (r.exclusive m).state.ar, br := (r.exclusive m).state.br, sc := (r.exclusive m).state.sc
        draws := (r.exclusive m).state.draws } := by
  rw [exclusive_state]
  split_ifs <;> rfl

/-- The next state of a control word, up to what the readback, NRM or IAB leaves (43_control.md R211). -/
theorem controlWord_eq (m : BitVec 10) (s : State) :
    controlWord m s = .next
      { (modeOps m s).state with
        ar := ((modeOps m s).exclusive m).state.ar, br := ((modeOps m s).exclusive m).state.br
        sc := ((modeOps m s).exclusive m).state.sc, draws := ((modeOps m s).exclusive m).state.draws
        intOn := if m.getLsbD 9 then false else if m.getLsbD 8 then true else s.intOn
        intNodef := if m.getLsbD 8 then false else s.intNodef
        run := if s.cfg.stopInst && ((modeOps m s).exclusive m).bad then .stopped .rsrv else s.run } := by
  rw [controlWord, controlOps_eq, exclusive_frame]
  cases ((modeOps m s).exclusive m).bad
  · rw [Bool.and_false]
    rfl
  · rw [Bool.and_true, illegal_eq]
    show Host.Outcome.next (if s.cfg.stopInst then _ else _) = _
    cases s.cfg.stopInst <;> rfl

theorem getLsbD_append_one_succ (bits : BitVec 9) (k : Nat) : (bits ++ 1#1).getLsbD (k + 1) = bits.getLsbD k := by
  rw [BitVec.getLsbD_append, if_neg (by omega), Nat.add_sub_cancel]

/-- Settles O39: the modes and RMP, then the first of readback, NRM and IAB on the state they leave, then ENB and
INH. -/
theorem controlWordsCombine : Obligations.ControlWordsCombine := by
  intro bits s bit hbits
  have hexec : exec (.controlMicro bits) s = controlWord (bits ++ 1#1) s := rfl
  have hbit : ∀ k, k ≠ 0 → bit k = (bits ++ 1#1).getLsbD k
    | k + 1, _ => (hbits k).trans (getLsbD_append_one_succ bits k).symm
  generalize bits ++ 1#1 = m at hexec hbit
  simp (disch := decide) only [hbit]
  refine ⟨(modeOps m s).state.intReq, ((modeOps m s).exclusive m).state.ar, ((modeOps m s).exclusive m).state.br,
    ((modeOps m s).exclusive m).state.sc, ((modeOps m s).exclusive m).state.draws, ?state, ?parity, ?exclusive⟩
  case state =>
    rw [hexec, controlWord_eq, exclusive_bad]
    rfl
  case parity => exact getLsbD_modeOps_intReq m s
  case exclusive =>
    by_cases h5 : m.getLsbD 5 = true
    · rw [if_pos h5]
      exact exclusive_of_readback h5 _
    rw [if_neg h5, exclusive_state, if_neg h5]
    by_cases h6 : m.getLsbD 6 = true
    · rw [if_pos h6, if_pos h6, exec_nrm, modeOps_cfg]
      cases s.cfg.optHsa with
      | true => exact ⟨rfl, fun _ => rfl, nofun⟩
      | false => exact ⟨rfl, nofun, fun _ => ⟨rfl, rfl, rfl⟩⟩
    rw [if_neg h6, if_neg h6]
    by_cases h7 : m.getLsbD 7 = true
    · rw [if_pos h7, if_pos h7]
      exact ⟨rfl, rfl, rfl⟩
    · rw [if_neg h7, if_neg h7]
      exact ⟨rfl, rfl, rfl, rfl⟩

end Sys2Proof.Machine

/-! ## The plain fetch -/

namespace Sys2Proof.Machine

/-- An iteration with no interrupt ready and no breakpoint at PC runs the instruction at PC (49_main_loop.md R370,
R373). -/
theorem step_of_plainFetch {s u : State} (h : AfterChannels s u) (hstd : ¬StandardReady u) (hext : ¬ExtendedReady u)
    (hbkpt : u.pc ∉ u.cfg.execBkpt) :
    step s = exec (decode u.dp (u.memRead u.pc)) { u with intStart := false, pc := pcPlus u 1, intNodef := true } := by
  have hbreak : u.clearStart.execBreak u.clearStart.pc = false := by
    rw [State.execBreak, List.contains_eq_mem]
    exact decide_eq_false hbkpt
  rw [step_of_afterChannels h, State.runInstruction, nextInstruction_plain hstd hext, State.plainFetch, hbreak]
  rfl

/-- A deferral blocks both kinds of interrupt (60_exceptions.md R411, R415). -/
theorem not_ready_of_deferred {s : State} (h : s.intNodef = false) : ¬StandardReady s ∧ ¬ExtendedReady s := by
  constructor
  · rintro ⟨-, hnodef, -⟩
    exact Bool.false_ne_true (h.symm.trans hnodef)
  · rintro ⟨-, -, -, hnodef, -⟩
    exact Bool.false_ne_true (h.symm.trans hnodef)

theorem AfterChannels.intNodef {s u : State} (h : AfterChannels s u) : u.intNodef = s.intNodef := by
  obtain ⟨-, -, hgo⟩ := h
  have hsame := serviceChannels_sameRegisters s
  rw [hgo] at hsame
  obtain ⟨-, -, -, -, -, -, -, -, -, -, hnodef, -⟩ := hsame
  exact hnodef

/-- Settles O10: ENB clears INT_NODEF, and the next channel phase leaves it clear. -/
theorem enbDefersInterrupts : Obligations.EnbDefersInterrupts := by
  intro s u hchannels hstd hext hbkpt hdecode
  have hstep := step_of_plainFetch hchannels hstd hext hbkpt
  rw [hdecode, exec_enb] at hstep
  obtain ⟨hstd', hext'⟩ := not_ready_of_deferred (s := State.enable _) rfl
  refine ⟨_, hstep, rfl, hstd', hext', fun v hv => ?_⟩
  obtain ⟨hstdv, hextv⟩ := not_ready_of_deferred hv.intNodef
  exact ⟨hstdv, hextv, step_of_plainFetch hv hstdv hextv⟩

end Sys2Proof.Machine

/-! ## Shifts

A step of a shift works on the bits that a layout of AR and BR holds: all 32, the 31 of AR:BR[14:0], or the 16 of AR.
What one step does to them is said for each function; what N steps do follows from it for any layout. -/

namespace Sys2Proof.Machine

/-! ### Layouts of the bits shifted -/

/-- AR from a 16-bit pattern; BR is kept. The layout of the short shifts, beside `put32` and `putLong31`. -/
def putAr (r : ShiftRegs) (v : Word) (c : Bool) : ShiftRegs := { r with ar := v, c := c }

theorem putAr_self (r : ShiftRegs) : putAr r r.ar r.c = r := rfl

theorem put32_self (r : ShiftRegs) : put32 (r.ar ++ r.br) r.c = r := by
  rw [put32, BitVec.extractLsb'_append_eq_left, BitVec.extractLsb'_append_eq_right]

theorem put32_append (v : BitVec 32) (c : Bool) : (put32 v c).ar ++ (put32 v c).br = v :=
  append_extractLsb'_self (n := 16) (m := 16) v

theorem getLsbD_put32_ar (v : BitVec 32) (c : Bool) : (put32 v c).ar.getLsbD 15 = v.msb := by
  simp [put32, BitVec.msb_eq_getLsbD_last]

theorem getLsbD_put32_br (v : BitVec 32) (c : Bool) : (put32 v c).br.getLsbD 0 = v.getLsbD 0 := by
  simp [put32]

theorem putLong31_self (r : ShiftRegs) : putLong31 r (r.ar ++ r.br.extractLsb' 0 15) r.c = r := by
  have hbr : BitVec.ofBool (r.br.getLsbD 15) ++ r.br.extractLsb' 0 15 = r.br :=
    BitVec.eq_of_getLsbD_eq fun i hi => by
      rw [BitVec.getLsbD_append]
      interval_cases i <;> simp
  rw [putLong31, BitVec.extractLsb'_append_eq_left, BitVec.extractLsb'_append_eq_right, hbr]

/-- Of the registers under the layout only BR[15] counts, and the layout keeps it. -/
theorem putLong31_putLong31 (r : ShiftRegs) (u v : BitVec 31) (b c : Bool) :
    putLong31 (putLong31 r u b) v c = putLong31 r v c := by
  simp only [putLong31, getLsbD_top_append]

theorem long31_putLong31 (r : ShiftRegs) (v : BitVec 31) (c : Bool) : long31 (putLong31 r v c) = v :=
  w31_extract _ v

theorem getLsbD_putLong31_ar (r : ShiftRegs) (v : BitVec 31) (c : Bool) :
    (putLong31 r v c).ar.getLsbD 15 = v.msb := by
  simp [putLong31, BitVec.msb_eq_getLsbD_last]

theorem getLsbD_putLong31_br (r : ShiftRegs) (v : BitVec 31) (c : Bool) :
    (putLong31 r v c).br.getLsbD 0 = v.getLsbD 0 := by
  simp only [putLong31, BitVec.getLsbD_append]
  simp

/-! ### Shifts by one place and by several -/

/-- The bits of a rotation as a sum modulo the width, for a count that may exceed it. -/
theorem getLsbD_rotateRight_eq {w : Nat} (x : BitVec w) (r : Nat) {i : Nat} (hi : i < w) :
    (x.rotateRight r).getLsbD i = x.getLsbD ((i + r) % w) := by
  have hr : r % w < w := Nat.mod_lt _ (by omega)
  rw [BitVec.getLsbD_rotateRight, ← Nat.add_mod_mod i r w, Bool.cond_decide]
  split_ifs with h
  · rw [Nat.mod_eq_of_lt (by omega : i + r % w < w), Nat.add_comm]
  · rw [Nat.mod_eq_sub_mod (by omega : w ≤ i + r % w), Nat.mod_eq_of_lt (by omega : i + r % w - w < w),
      decide_eq_true hi, Bool.true_and]
    congr 1; omega

theorem getLsbD_rotateLeft_eq {w : Nat} (x : BitVec w) (r : Nat) {i : Nat} (hi : i < w) :
    (x.rotateLeft r).getLsbD ((i + r) % w) = x.getLsbD i := by
  have hr : r % w < w := Nat.mod_lt _ (by omega)
  rw [BitVec.getLsbD_rotateLeft, ← Nat.add_mod_mod i r w, Bool.cond_decide]
  by_cases h : i + r % w < w
  · rw [Nat.mod_eq_of_lt h, if_neg (by omega), decide_eq_true h, Bool.true_and, Nat.add_sub_cancel]
  · rw [Nat.mod_eq_sub_mod (by omega), Nat.mod_eq_of_lt (by omega : i + r % w - w < w), if_pos (by omega)]
    congr 1; omega

theorem rotateRight_succ {w : Nat} (x : BitVec w) (n : Nat) : x.rotateRight (n + 1) = (x.rotateRight n).rotateRight 1 :=
  BitVec.eq_of_getLsbD_eq fun i hi => by
    rw [getLsbD_rotateRight_eq x _ hi, getLsbD_rotateRight_eq _ _ hi,
      getLsbD_rotateRight_eq x _ (Nat.mod_lt _ (by omega)), Nat.mod_add_mod, Nat.add_right_comm, Nat.add_assoc]

theorem rotateLeft_succ {w : Nat} (x : BitVec w) (n : Nat) : x.rotateLeft (n + 1) = (x.rotateLeft n).rotateLeft 1 := by
  refine BitVec.eq_of_getLsbD_eq fun i hi => ?_
  obtain ⟨j, hj, rfl⟩ : ∃ j, j < w ∧ (j + (n + 1)) % w = i :=
    ⟨(i + (n + 1) * (w - 1)) % w, Nat.mod_lt _ (by omega), by
      obtain ⟨v, rfl⟩ : ∃ v, w = v + 1 := ⟨w - 1, by omega⟩
      rw [Nat.mod_add_mod, Nat.add_assoc, Nat.add_sub_cancel, ← Nat.mul_succ, Nat.add_mul_mod_self_right,
        Nat.mod_eq_of_lt hi]⟩
  rw [getLsbD_rotateLeft_eq x _ hj, ← Nat.add_assoc, ← Nat.mod_add_mod,
    getLsbD_rotateLeft_eq _ _ (Nat.mod_lt _ (by omega)), getLsbD_rotateLeft_eq x _ hj]

theorem rotateRight_zero {w : Nat} (x : BitVec w) : x.rotateRight 0 = x :=
  BitVec.eq_of_getLsbD_eq fun i hi => by rw [getLsbD_rotateRight_eq x 0 hi, Nat.add_zero, Nat.mod_eq_of_lt hi]

theorem rotateLeft_zero {w : Nat} (x : BitVec w) : x.rotateLeft 0 = x :=
  BitVec.eq_of_getLsbD_eq fun i hi => by
    have hbit := getLsbD_rotateLeft_eq x 0 hi
    rwa [Nat.add_zero, Nat.mod_eq_of_lt hi] at hbit

/-- The step of LRR and ARR as a rotation (44_shift.md R244, R247). -/
theorem rotateRight_one {n : Nat} (v : BitVec (1 + n)) :
    BitVec.ofBool (v.getLsbD 0) ++ v.extractLsb' 1 n = v.rotateRight 1 := by
  refine BitVec.eq_of_getLsbD_eq fun i hi => ?_
  rw [getLsbD_rotateRight_eq v _ hi, BitVec.getLsbD_append]
  split_ifs with h
  · simp [h, Nat.add_comm 1, Nat.mod_eq_of_lt (Nat.succ_lt_succ h)]
  · obtain rfl : i = n := by omega
    simp [Nat.add_comm 1]

/-- The step of LLR and ALR as a rotation (44_shift.md R250, R253). -/
theorem rotateLeft_one {n : Nat} (v : BitVec (n + 1)) :
    v.extractLsb' 0 n ++ BitVec.ofBool (v.getLsbD n) = v.rotateLeft 1 := by
  refine BitVec.eq_of_getLsbD_eq fun i hi => ?_
  cases i with
  | zero =>
    have hbit := getLsbD_rotateLeft_eq v 1 (Nat.lt_succ_self n)
    rw [Nat.mod_self] at hbit
    rw [hbit, BitVec.getLsbD_append]
    simp
  | succ i =>
    have hbit := getLsbD_rotateLeft_eq v 1 (Nat.lt_of_succ_lt hi)
    rw [Nat.mod_eq_of_lt hi] at hbit
    rw [hbit, BitVec.getLsbD_append]
    simp [Nat.lt_of_succ_lt_succ hi]

/-- The step of LRS and ARS as an arithmetic shift (44_shift.md R243, R246). -/
theorem sshiftRight_one {n : Nat} (v : BitVec (1 + n)) :
    BitVec.ofBool v.msb ++ v.extractLsb' 1 n = v.sshiftRight 1 := by
  refine BitVec.eq_of_getLsbD_eq fun i hi => ?_
  rw [BitVec.getLsbD_sshiftRight, BitVec.getLsbD_append]
  split_ifs with h h' h'
  · simp [h, hi]
  · omega
  · omega
  · obtain rfl : i = n := by omega
    simp

/-! ### One step on the bits it shifts -/

theorem stepLrl_put32 (v : BitVec 32) (c : Bool) : stepLrl (put32 v c) = put32 (v >>> 1) (v.getLsbD 0) := by
  rw [stepLrl, put32_append, getLsbD_put32_br]

theorem stepLrr_put32 (v : BitVec 32) (c : Bool) : stepLrr (put32 v c) = put32 (v.rotateRight 1) (v.getLsbD 0) := by
  rw [stepLrr, put32_append, getLsbD_put32_br]
  exact congrArg (put32 · _) (rotateRight_one (n := 31) v)

theorem stepLll_put32 (v : BitVec 32) (c : Bool) : stepLll (put32 v c) = put32 (v <<< 1) v.msb := by
  rw [stepLll, put32_append, getLsbD_put32_ar]

theorem stepLlr_put32 (v : BitVec 32) (c : Bool) : stepLlr (put32 v c) = put32 (v.rotateLeft 1) v.msb := by
  rw [stepLlr, put32_append, getLsbD_put32_ar]
  exact congrArg (put32 · _) (rotateLeft_one (n := 31) v)

theorem stepLrs_putLong31 (r : ShiftRegs) (v : BitVec 31) (c : Bool) :
    stepLrs (putLong31 r v c) = putLong31 r (v.sshiftRight 1) (v.getLsbD 0) := by
  rw [stepLrs, putLong31_putLong31, long31_putLong31, getLsbD_putLong31_ar, getLsbD_putLong31_br]
  exact congrArg (putLong31 r · _) (sshiftRight_one (n := 30) v)

theorem stepLls_putLong31 (r : ShiftRegs) (v : BitVec 31) (c : Bool) :
    stepLls (putLong31 r v c) = putLong31 r (v <<< 1) (c || (v <<< 1).msb != v.msb) := by
  rw [stepLls, putLong31_putLong31, long31_putLong31, getLsbD_putLong31_ar]
  rfl

theorem stepLgr_putAr (r : ShiftRegs) (v : Word) (c : Bool) :
    stepLgr (putAr r v c) = putAr r (v >>> 1) (v.getLsbD 0) := rfl

theorem stepLgl_putAr (r : ShiftRegs) (v : Word) (c : Bool) :
    stepLgl (putAr r v c) = putAr r (v <<< 1) v.msb := rfl

theorem stepArs_putAr (r : ShiftRegs) (v : Word) (c : Bool) :
    stepArs (putAr r v c) = putAr r (v.sshiftRight 1) (v.getLsbD 0) :=
  congrArg (putAr r · _) (sshiftRight_one (n := 15) v)

theorem stepAls_putAr (r : ShiftRegs) (v : Word) (c : Bool) :
    stepAls (putAr r v c) = putAr r (v <<< 1) (c || (v <<< 1).msb != v.msb) := rfl

theorem stepArr_putAr (r : ShiftRegs) (v : Word) (c : Bool) :
    stepArr (putAr r v c) = putAr r (v.rotateRight 1) (v.getLsbD 0) :=
  congrArg (putAr r · _) (rotateRight_one (n := 15) v)

theorem stepAlr_putAr (r : ShiftRegs) (v : Word) (c : Bool) :
    stepAlr (putAr r v c) = putAr r (v.rotateLeft 1) v.msb :=
  congrArg (putAr r · _) (rotateLeft_one (n := 15) v)

/-! ### Several steps -/

section RepeatedSteps

variable {w : Nat} {put : BitVec w → Bool → ShiftRegs} {step : ShiftRegs → ShiftRegs}

/-- A step that shifts the bits of a layout by one place and moves one of them to C, done n times: the bits are shifted
by n places, and C is what the last step moved there, from the bits as n - 1 steps left them. -/
theorem repeatStep_shift {shift : BitVec w → Nat → BitVec w} {out : BitVec w → Bool}
    (hstep : ∀ v c, step (put v c) = put (shift v 1) (out v)) (hzero : ∀ v, shift v 0 = v)
    (hsucc : ∀ v n, shift v (n + 1) = shift (shift v n) 1) {n : Nat} (hn : n ≠ 0) (v : BitVec w) (c : Bool) :
    repeatStep step n (put v c) = put (shift v n) (out (shift v (n - 1))) := by
  obtain ⟨m, rfl⟩ := Nat.exists_eq_succ_of_ne_zero hn
  clear hn
  induction m with
  | zero => rw [repeatStep_succ, repeatStep_zero, hstep, Nat.succ_sub_one, hzero]
  | succ m ih => rw [repeatStep_succ, ih, hstep, ← hsucc, Nat.succ_sub_one]

variable {n : Nat} (hn : n ≠ 0) (v : BitVec w) (c : Bool)
include hn

theorem repeatStep_logicalRight (hstep : ∀ v c, step (put v c) = put (v >>> 1) (v.getLsbD 0)) :
    repeatStep step n (put v c) = put (v >>> n) (v.getLsbD (n - 1)) := by
  rw [repeatStep_shift (shift := fun v n => v >>> n) hstep BitVec.ushiftRight_zero
    (fun v n => BitVec.shiftRight_add v n 1) hn, BitVec.getLsbD_ushiftRight, Nat.add_zero]

theorem repeatStep_logicalLeft (hstep : ∀ v c, step (put v c) = put (v <<< 1) v.msb) :
    repeatStep step n (put v c) = put (v <<< n) (decide (n ≤ w) && v.getLsbD (w - n)) := by
  rw [repeatStep_shift (shift := fun v n => v <<< n) hstep BitVec.shiftLeft_zero
    (fun v n => BitVec.shiftLeft_add v n 1) hn, BitVec.msb_shiftLeft, BitVec.getMsbD]
  congr 3
  · exact propext (by omega)
  · omega

theorem repeatStep_rotateRight (hw : 0 < w) (hstep : ∀ v c, step (put v c) = put (v.rotateRight 1) (v.getLsbD 0)) :
    repeatStep step n (put v c) = put (v.rotateRight n) (v.getLsbD ((n - 1) % w)) := by
  rw [repeatStep_shift (shift := BitVec.rotateRight) hstep rotateRight_zero rotateRight_succ hn,
    getLsbD_rotateRight_eq v _ hw, Nat.zero_add]

/-- The last bit is counted down from a multiple of the width, for the count of a shift may exceed the width. -/
theorem repeatStep_rotateLeft {k : Nat} (hk : n ≤ k * w)
    (hstep : ∀ v c, step (put v c) = put (v.rotateLeft 1) v.msb) :
    repeatStep step n (put v c) = put (v.rotateLeft n) (v.getLsbD ((k * w - n) % w)) := by
  have hw : 0 < w := Nat.pos_of_ne_zero (by rintro rfl; omega)
  have hlast : ((k * w - n) % w + (n - 1)) % w = w - 1 := by
    obtain ⟨j, rfl⟩ : ∃ j, k = j + 1 := Nat.exists_eq_succ_of_ne_zero (by rintro rfl; omega)
    rw [Nat.succ_mul] at hk ⊢
    rw [Nat.mod_add_mod, (by omega : j * w + w - n + (n - 1) = w - 1 + j * w), Nat.add_mul_mod_self_right,
      Nat.mod_eq_of_lt (by omega)]
  rw [repeatStep_shift (shift := BitVec.rotateLeft) hstep rotateLeft_zero rotateLeft_succ hn,
    BitVec.msb_eq_getLsbD_last, ← hlast, getLsbD_rotateLeft_eq v _ (Nat.mod_lt _ hw)]

theorem repeatStep_arithmeticRight (hstep : ∀ v c, step (put v c) = put (v.sshiftRight 1) (v.getLsbD 0)) :
    repeatStep step n (put v c) = put (v.sshiftRight n) ((v.sshiftRight (n - 1)).getLsbD 0) :=
  repeatStep_shift hstep (fun _ => BitVec.sshiftRight_zero) (fun _ _ => BitVec.sshiftRight_add) hn v c

end RepeatedSteps

/-! ### The sign changes of an arithmetic left shift -/

theorem toInt_shiftLeft_eq_bmod {w : Nat} (v : BitVec w) (n : Nat) :
    (v <<< n).toInt = (v.toInt * 2 ^ n).bmod (2 ^ w) := by
  rw [BitVec.toInt_shiftLeft, BitVec.toInt_eq_toNat_bmod, Int.bmod_mul_bmod, Nat.shiftLeft_eq]
  norm_cast

/-- The sign of a number whose range is -m to m - 1 changes where it is doubled out of that range. -/
theorem msb_shiftLeft_one_bne {w : Nat} {m : Int} (hm : (2 : Int) ^ w = 2 * m) (u : BitVec w) :
    ((u <<< 1).msb != u.msb) = decide (u.toInt * 2 < -m ∨ m ≤ u.toInt * 2) := by
  have hlo := BitVec.le_two_mul_toInt (x := u)
  have hhi := BitVec.two_mul_toInt_lt (x := u)
  have hmod : ((2 ^ w : Nat) : Int) = 2 * m := by exact_mod_cast hm
  have hdouble := toInt_shiftLeft_eq_bmod u 1
  rw [pow_one] at hdouble
  rw [hm] at hlo hhi
  generalize 2 ^ w = modulus at hmod hdouble
  have hvalue : (u <<< 1).toInt =
      if u.toInt * 2 < -m then u.toInt * 2 + modulus
      else if m ≤ u.toInt * 2 then u.toInt * 2 - modulus else u.toInt * 2 := by
    rw [hdouble]
    split_ifs
    · rw [← Int.add_bmod_right, Int.bmod_eq_of_le_mul_two (by omega) (by omega)]
    · rw [← Int.sub_bmod_right, Int.bmod_eq_of_le_mul_two (by omega) (by omega)]
    · rw [Int.bmod_eq_of_le_mul_two (by omega) (by omega)]
  rw [BitVec.msb_eq_toInt, BitVec.msb_eq_toInt, hvalue, Bool.eq_iff_iff]
  simp only [bne_iff_ne, ne_eq, decide_eq_decide, decide_eq_true_eq]
  split_ifs <;> omega

/-- C, clear before the first step, tells whether the product is out of range: while it is in range the bits hold it,
and from the first step that leaves it on, the product stays out of range and C stays set (44_shift.md R249, R252). -/
theorem repeatStep_arithmeticLeft {w : Nat} {put : BitVec w → Bool → ShiftRegs} {step : ShiftRegs → ShiftRegs}
    {m : Int} (hm : (2 : Int) ^ w = 2 * m)
    (hstep : ∀ v c, step (put v c) = put (v <<< 1) (c || (v <<< 1).msb != v.msb)) (n : Nat) (v : BitVec w) :
    repeatStep step n (put v false) =
      put (v <<< n) (decide (v.toInt * 2 ^ n < -m ∨ m ≤ v.toInt * 2 ^ n)) := by
  have hmod : ((2 ^ w : Nat) : Int) = 2 * m := by exact_mod_cast hm
  have hpos : 0 < m := by have := Nat.two_pow_pos w; omega
  induction n with
  | zero =>
    have hlo := BitVec.le_two_mul_toInt (x := v)
    have hhi := BitVec.two_mul_toInt_lt (x := v)
    have hin : ¬(v.toInt * 2 ^ 0 < -m ∨ m ≤ v.toInt * 2 ^ 0) := by omega
    rw [repeatStep_zero, BitVec.shiftLeft_zero, decide_eq_false hin]
  | succ n ih =>
    rw [repeatStep_succ, ih, hstep, BitVec.shiftLeft_add, msb_shiftLeft_one_bne hm,
      ← Bool.decide_or, pow_succ, ← mul_assoc]
    congr 1
    rw [decide_eq_decide]
    by_cases hout : v.toInt * 2 ^ n < -m ∨ m ≤ v.toInt * 2 ^ n
    · exact iff_of_true (.inl hout) (by omega)
    · rw [toInt_shiftLeft_eq_bmod, Int.bmod_eq_of_le_mul_two (by omega) (by omega)]
      exact or_iff_right hout

/-! ### The shift instructions

Each is its repeated step, then a draw of SC. -/

section ShiftInstructions

variable {n : BitVec 6} {s : State} {w : Nat} {put : BitVec w → Bool → ShiftRegs} {step : ShiftRegs → ShiftRegs}
  {v v' : BitVec w} {c : Bool}

theorem next_regularShift (hn : n ≠ 0) (hput : put v s.c = s.shiftRegs)
    (hrepeat : repeatStep step n.toNat (put v s.c) = put v' c) :
    (.next (s.regularShift step n) : Result) = .next (s.setShiftRegs (put v' c)).drawSc := by
  rw [State.regularShift, if_neg hn, ← hput, hrepeat]

theorem next_arithmeticLeft (hn : n ≠ 0) (hput : put v false = { s.shiftRegs with c := false })
    (hrepeat : repeatStep step n.toNat (put v false) = put v' c) :
    (.next (s.arithmeticLeft step n) : Result) = .next (s.setShiftRegs (put v' c)).drawSc := by
  rw [State.arithmeticLeft, if_neg hn, ← hput, hrepeat]

theorem next_regularShift_zero : (.next (s.regularShift step 0) : Result) = .next s.drawC.drawSc := rfl

theorem next_arithmeticLeft_zero : (.next (s.arithmeticLeft step 0) : Result) = .next s.drawC.drawSc := rfl

theorem toNat_ne_zero_of_ne (hn : n ≠ 0) : n.toNat ≠ 0 :=
  fun h => hn (BitVec.eq_of_toNat_eq h)

end ShiftInstructions

/-- Settles O40: each is a one-place logical shift, of AR:BR or of AR, repeated. -/
theorem logicalShifts : Obligations.LogicalShifts := by
  rintro n s _ _ hn rfl rfl
  have hcount := toNat_ne_zero_of_ne hn
  have hlong := put32_self s.shiftRegs
  have hshort := putAr_self s.shiftRegs
  refine ⟨Config.freeSc s.draws, ?lrl, ?lgr, ?lll, ?lgl⟩
  case lrl =>
    exact next_regularShift hn hlong (repeatStep_logicalRight hcount _ _ stepLrl_put32)
  case lgr =>
    exact next_regularShift hn hshort (repeatStep_logicalRight hcount _ _ (stepLgr_putAr _))
  case lll =>
    exact next_regularShift hn hlong (repeatStep_logicalLeft hcount _ _ stepLll_put32)
  case lgl =>
    exact next_regularShift hn hshort (repeatStep_logicalLeft hcount _ _ (stepLgl_putAr _))

/-- Settles O41: each is a one-place rotate, of AR:BR or of AR, repeated. -/
theorem rotates : Obligations.Rotates := by
  rintro n s _ _ hn rfl rfl
  have hcount := toNat_ne_zero_of_ne hn
  have hle : n.toNat ≤ 64 := n.isLt.le
  have hlong := put32_self s.shiftRegs
  have hshort := putAr_self s.shiftRegs
  refine ⟨Config.freeSc s.draws, ?lrr, ?arr, ?llr, ?alr⟩
  case lrr =>
    exact next_regularShift hn hlong (repeatStep_rotateRight hcount _ _ (by decide) stepLrr_put32)
  case arr =>
    exact next_regularShift hn hshort (repeatStep_rotateRight hcount _ _ (by decide) (stepArr_putAr _))
  case llr =>
    exact next_regularShift hn hlong (repeatStep_rotateLeft (k := 2) hcount _ _ hle stepLlr_put32)
  case alr =>
    exact next_regularShift hn hshort (repeatStep_rotateLeft (k := 4) hcount _ _ hle (stepAlr_putAr _))

/-- Settles O42: each is a one-place arithmetic shift to the right, of AR:BR[14:0] or of AR, repeated. -/
theorem arithmeticRightShifts : Obligations.ArithmeticRightShifts := by
  rintro n s _ _ hn rfl rfl
  have hcount := toNat_ne_zero_of_ne hn
  refine ⟨Config.freeSc s.draws, ?lrs, ?ars⟩
  case lrs =>
    exact next_regularShift hn (putLong31_self s.shiftRegs)
      (repeatStep_arithmeticRight hcount _ _ (stepLrs_putLong31 _))
  case ars =>
    exact next_regularShift hn (putAr_self s.shiftRegs)
      (repeatStep_arithmeticRight hcount _ _ (stepArs_putAr _))

/-- Settles O43: each is a one-place shift to the left, of AR:BR[14:0] or of AR, repeated, and C gathers its sign
changes. -/
theorem arithmeticLeftShifts : Obligations.ArithmeticLeftShifts := by
  rintro n s _ _ hn rfl rfl
  refine ⟨Config.freeSc s.draws, ?lls, ?als⟩
  case lls =>
    exact next_arithmeticLeft hn (putLong31_self { s.shiftRegs with c := false })
      (repeatStep_arithmeticLeft (m := 1073741824) (by norm_num) (stepLls_putLong31 _) _ _)
  case als =>
    exact next_arithmeticLeft hn (putAr_self { s.shiftRegs with c := false })
      (repeatStep_arithmeticLeft (m := 32768) (by norm_num) (stepAls_putAr _) _ _)

/-! ### A count of 0 -/

/-- Settles O44: a count of 0 is two draws, of C and of SC, whatever the step. -/
theorem shiftsByZero : Obligations.ShiftsByZero := by
  intro s i hi
  have hrun : exec i s = .next s.drawC.drawSc := by
    simp only [List.mem_cons, List.not_mem_nil, or_false] at hi
    rcases hi with rfl | rfl | rfl | rfl | rfl | rfl | rfl | rfl | rfl | rfl | rfl | rfl
    exacts [next_regularShift_zero, next_regularShift_zero, next_regularShift_zero, next_regularShift_zero,
      next_regularShift_zero, next_regularShift_zero, next_regularShift_zero, next_arithmeticLeft_zero,
      next_regularShift_zero, next_regularShift_zero, next_arithmeticLeft_zero, next_regularShift_zero]
  exact ⟨Config.freeC s.draws, Config.freeSc (s.draws + 1), hrun⟩

/-! ### The quirk shifts -/

/-- `SHIFT_QUIRK` of its five inputs, for the configured choice `f` (44_shift.md R256). -/
def quirkOf (fn : QuirkFn) (f : Nat) (n : BitVec 6) (a b : Word) (c : Bool) : ShiftRegs :=
  Config.shiftQuirk f fn n { ar := a, br := b, c := c }

theorem next_quirkLong (s : State) (fn : QuirkFn) (n : BitVec 6) :
    (.next (s.quirkLong fn n) : Result) =
      .next (s.setShiftRegs (quirkOf fn s.cfg.shiftChoice n s.ar s.br s.c)).drawSc := rfl

theorem next_quirkShort (s : State) (fn : QuirkFn) (n : BitVec 6) :
    (.next (s.quirkShort fn n) : Result) =
      .next (s.setShiftRegs { quirkOf fn s.cfg.shiftChoice n s.ar s.br s.c with br := s.br }).drawSc := rfl

/-- AR, BR and C as a long quirk shift leaves them. -/
def quirkLongOf (fn : QuirkFn) (f : Nat) (n : BitVec 6) (a b : Word) (c : Bool) : Word × Word × Bool :=
  let r := quirkOf fn f n a b c
  (r.ar, r.br, r.c)

/-- AR and C as a short quirk shift leaves them. -/
def quirkShortOf (fn : QuirkFn) (f : Nat) (n : BitVec 6) (a b : Word) (c : Bool) : Word × Bool :=
  let r := quirkOf fn f n a b c
  (r.ar, r.c)

/-- Settles O45: what a quirk shift writes are the components of `SHIFT_QUIRK`, of which a short one takes no BR. -/
theorem quirkShifts : Obligations.QuirkShifts := by
  refine ⟨quirkLongOf .f3, quirkLongOf .f13, quirkShortOf .f7, quirkShortOf .f17, ?_⟩
  rintro n s _ rfl
  exact ⟨Config.freeSc s.draws, next_quirkLong s .f3 n, next_quirkLong s .f13 n, next_quirkShort s .f7 n,
    next_quirkShort s .f17 n⟩

end Sys2Proof.Machine

/-! ## Skips

A skip word is decided by its sense bit and by whether any condition it selects holds. The named words with a mask of
one bit are two for each condition; the others select no condition (SKP, NOP) or the four switches (SSS, SSR). -/

namespace Sys2Proof.Machine

/-! ### A word of any bits -/

/-- The chain of the nine tests is a search over the conditions (45_skip.md R270). -/
theorem anyCondition_iff (s : State) (cond : BitVec 9) :
    s.anyCondition cond = true ↔ ∃ b : Fin 9, cond.getLsbD b.val = true ∧ conditionHolds s b = true := by
  simp only [State.anyCondition, Bool.or_eq_true, Bool.and_eq_true, bne_iff_ne]
  constructor
  · rintro ((((((((h | h) | h) | h) | h) | ⟨hbit, hne⟩) | h) | h) | h)
    exacts [⟨0, h⟩, ⟨1, h⟩, ⟨2, h⟩, ⟨3, h⟩, ⟨4, h⟩, ⟨5, hbit, decide_eq_true hne⟩, ⟨6, h⟩, ⟨7, h⟩, ⟨8, h⟩]
  · rintro ⟨b, hbit, hholds⟩
    fin_cases b <;> simp_all [conditionHolds, State.parityPending]

theorem anyCondition_eq_false {s : State} {cond : BitVec 9}
    (h : ∀ b : Fin 9, cond.getLsbD b.val = true → conditionHolds s b = false) : s.anyCondition cond = false := by
  rw [← Bool.not_eq_true, anyCondition_iff]
  rintro ⟨b, hbit, hholds⟩
  exact Bool.false_ne_true ((h b hbit).symm.trans hholds)

/-- A word with the sense bit 1 skips where some selected condition holds, one with the sense bit 0 where none does
(45_skip.md R271). -/
theorem skipWord_eq {s : State} {cond : BitVec 9} {any : Bool} (h : s.anyCondition cond = any) (sense : Bool) :
    skipWord sense cond s = .next (skipWhen s (if any then sense else !sense)) := by
  subst h
  show Host.Outcome.next (skipWhen s (s.anyCondition cond ^^ !sense)) = _
  cases s.anyCondition cond <;> cases sense <;> rfl

/-- Settles O48: the two clauses are the two values of `anyCondition`. -/
theorem skipWordsCombine : Obligations.SkipWordsCombine := by
  intro sense cond s
  exact ⟨fun hsome => skipWord_eq ((anyCondition_iff s cond).2 hsome) sense,
    fun hnone => skipWord_eq (anyCondition_eq_false hnone) sense⟩

/-! ### The named words -/

theorem skipWord_true {s : State} {cond : BitVec 9} {any : Bool} (h : s.anyCondition cond = any) :
    skipWord true cond s = .next (skipWhen s any) := by
  rw [skipWord_eq h]
  cases any <;> rfl

theorem skipWord_false {s : State} {cond : BitVec 9} {any : Bool} (h : s.anyCondition cond = any) :
    skipWord false cond s = .next (skipWhen s !any) := by
  rw [skipWord_eq h]
  cases any <;> rfl

/-- A mask of one bit selects that bit's condition alone. -/
theorem anyCondition_twoPow (s : State) (b : Fin 9) :
    s.anyCondition (BitVec.twoPow 9 b.val) = conditionHolds s b := by
  rw [Bool.eq_iff_iff, anyCondition_iff]
  constructor
  · rintro ⟨i, hbit, hholds⟩
    rw [BitVec.getLsbD_twoPow, Bool.and_eq_true, decide_eq_true_eq, decide_eq_true_eq] at hbit
    obtain rfl : b = i := Fin.ext hbit.2
    exact hholds
  · intro hholds
    exact ⟨b, by simp, hholds⟩

theorem anyCondition_zero (s : State) : s.anyCondition 0 = false :=
  anyCondition_eq_false fun _ hbit => by simp at hbit

theorem anyCondition_switches (s : State) : s.anyCondition 0o036#9 = (s.ss1 || s.ss2 || s.ss3 || s.ss4) := by
  have hchain : s.anyCondition 0o036#9 = (s.ss4 || s.ss3 || s.ss2 || s.ss1) := by simp [State.anyCondition]
  rw [hchain]
  ac_rfl

/-- Bit 0 of a word is its parity. -/
theorem getLsbD_zero_eq_odd (v : Word) : v.getLsbD 0 = decide (v.toNat % 2 = 1) := by
  rw [BitVec.getLsbD, Nat.testBit_zero]

/-- Bit 15 of a word is its sign. -/
theorem getLsbD_sign_eq (v : Word) : v.getLsbD 15 = decide (v.toInt < 0) :=
  (BitVec.msb_eq_getLsbD_last v).symm.trans BitVec.msb_eq_toInt

/-- Settles O46: the words of one condition in pairs, SKP and NOP the pair of no condition. -/
theorem skipsOnRegisters : Obligations.SkipsOnRegisters := by
  intro s
  have hnone := anyCondition_zero s
  have hcarry : s.anyCondition (BitVec.twoPow 9 0) = s.c := anyCondition_twoPow s 0
  have hnonzero : s.anyCondition (BitVec.twoPow 9 5) = decide (s.ar ≠ 0) := anyCondition_twoPow s 5
  have hodd := (anyCondition_twoPow s 6).trans (getLsbD_zero_eq_odd s.ar)
  have hparity : s.anyCondition (BitVec.twoPow 9 7) = s.intReq.getLsbD s.cfg.lineMpe.val := anyCondition_twoPow s 7
  have hminus := (anyCondition_twoPow s 8).trans (getLsbD_sign_eq s.ar)
  have hzero : (!decide (s.ar ≠ 0)) = decide (s.ar = 0) := by rw [decide_not, Bool.not_not]
  have heven : (!decide (s.ar.toNat % 2 = 1)) = decide (s.ar.toNat % 2 = 0) := by
    rw [← decide_not, decide_eq_decide]
    omega
  have hplus : (!decide (s.ar.toInt < 0)) = decide (0 ≤ s.ar.toInt) := by
    rw [← decide_not, decide_eq_decide]
    exact not_lt
  exact ⟨skipWord_false hnone, skipWord_true hnone, skipWord_true hcarry, skipWord_false hcarry,
    skipWord_true hnonzero, hzero ▸ skipWord_false hnonzero, skipWord_true hodd, heven ▸ skipWord_false hodd,
    skipWord_true hparity, skipWord_false hparity, skipWord_true hminus, hplus ▸ skipWord_false hminus⟩

/-- Settles O47: a pair of words for each switch, and a pair for all four. -/
theorem skipsOnSwitches : Obligations.SkipsOnSwitches := by
  intro s
  have hss1 : s.anyCondition (BitVec.twoPow 9 4) = s.ss1 := anyCondition_twoPow s 4
  have hss2 : s.anyCondition (BitVec.twoPow 9 3) = s.ss2 := anyCondition_twoPow s 3
  have hss3 : s.anyCondition (BitVec.twoPow 9 2) = s.ss3 := anyCondition_twoPow s 2
  have hss4 : s.anyCondition (BitVec.twoPow 9 1) = s.ss4 := anyCondition_twoPow s 1
  have hall := anyCondition_switches s
  exact ⟨skipWord_true hss1, skipWord_false hss1, skipWord_true hss2, skipWord_false hss2,
    skipWord_true hss3, skipWord_false hss3, skipWord_true hss4, skipWord_false hss4,
    skipWord_true hall, skipWord_false hall⟩

end Sys2Proof.Machine

/-! ## Operate

The named words write AR and C, and some clear SC. An undefined word runs `OPERATE_GATE`, which on the bits of a named
word is that word and on all others the configured network: both write what a function of AR and C gives. -/

namespace Sys2Proof.Machine

/-! ### The sign of AR, AR whole and C -/

/-- Settles O49: the state each word answers with. -/
theorem operateOnSignAndCarry : Obligations.OperateOnSignAndCarry := by
  intro s
  exact ⟨rfl, rfl, rfl, rfl, rfl, rfl, rfl, rfl⟩

/-! ### Sums -/

/-- Adding 1 overflows from the largest positive word alone (41_adders.md R160). -/
theorem overflow16_one (v : Word) : overflow16 v 1 (v + 1) = decide (v = 0o077777#16) := by
  have hone : (1 : Word).toInt = 1 := by decide
  have hmax : (0o077777#16).toInt = 32767 := by decide
  have hlow : -32768 ≤ v.toInt := BitVec.le_toInt v
  have hhigh : v.toInt < 32768 := BitVec.toInt_lt
  rw [overflow16_eq, decide_eq_decide, ← BitVec.toInt_inj, hone, hmax]
  omega

theorem overflow16_zero (v : Word) : overflow16 v 0#16 (v + 0#16) = false := by
  rw [BitVec.add_zero, overflow16, bne_self_eq_false, Bool.and_false]

/-- `Add16(AR, 1)`, with C where AR goes past 0o077777 (46_operate.md R310). -/
theorem add16_one (s : State) :
    s.add16 s.ar 1 = { s with ar := s.ar + 1, c := decide (s.ar = 0o077777#16) } := by
  rw [State.add16, overflow16_one]

/-- `Add16(AR, zext_16(C))`: AOA's sum where C is 1, and no change of AR where it is 0 (46_operate.md R311). -/
theorem add16_c (s : State) :
    s.add16 s.ar ((BitVec.ofBool s.c).setWidth 16) =
      { s with ar := if s.c then s.ar + 1 else s.ar, c := s.c && decide (s.ar = 0o077777#16) } := by
  cases hc : s.c with
  | true => exact add16_one s
  | false =>
    have hzero : (BitVec.ofBool false).setWidth 16 = 0#16 := rfl
    rw [hzero, State.add16, overflow16_zero, BitVec.add_zero]
    rfl

/-! ### Bytes -/

/-- The two bytes in the other order are the word turned by 8 places (46_operate.md R313). -/
theorem swapBytes_eq_rotateLeft (v : Word) : v.extractLsb' 0 8 ++ v.extractLsb' 8 8 = v.rotateLeft 8 := by
  refine BitVec.eq_of_getLsbD_eq fun i hi => ?_
  rw [BitVec.getLsbD_append, BitVec.getLsbD_rotateLeft]
  by_cases hlow : i < 8
  · simp [hlow]
  · have hhigh : i - 8 < 8 := by omega
    simp [hlow, hhigh, hi]

/-- Settles O50: AOA and ACA are the 16-bit adder, ICA is a rotate. -/
theorem operateOnBytesAndSums : Obligations.OperateOnBytesAndSums := by
  intro s
  have htca : -s.ar = 0 - s.ar := (BitVec.zero_sub s.ar).symm
  have haoa : exec .aoa s = .next { s.add16 s.ar 1 with sc := 0 } := rfl
  have haca : exec .aca s = .next { s.add16 s.ar ((BitVec.ofBool s.c).setWidth 16) with sc := 0 } := rfl
  rw [add16_one] at haoa
  rw [add16_c] at haca
  exact ⟨htca ▸ rfl, rfl, rfl, rfl, haoa, haca, rfl, swapBytes_eq_rotateLeft s.ar ▸ rfl⟩

/-! ### Undefined words -/

theorem exec_undefinedOperate_of_stopInst {s : State} (h : s.cfg.stopInst = true) (m : BitVec 10) :
    exec (.undefinedOperate m) s = .next { s with run := .stopped .rsrv } := if_pos h

theorem exec_undefinedOperate_of_not_stopInst {s : State} (h : s.cfg.stopInst = false) (m : BitVec 10) :
    exec (.undefinedOperate m) s = s.operateGate m := if_neg (Bool.eq_false_iff.1 h)

theorem operateGate_of_named {m : BitVec 10} {named : State → Result} (h : namedMeaning m = some named) (s : State) :
    s.operateGate m = named s := by
  rw [State.operateGate, h]

/-- AR, C and SC from an answer of `OPERATE_GATE` (46_operate.md R314). -/
def State.writeGate (s : State) (r : Word × Bool × Bool) : State :=
  { s with ar := r.1, c := r.2.1, sc := if r.2.2 then 0 else s.sc }

/-- The gate on the bits m in the family's function number f: what it writes is a function of AR and C alone
(46_operate.md R315, law (a)). -/
def GateIs (f : Nat) (m : BitVec 10) (g : Word → Bool → Word × Bool × Bool) : Prop :=
  ∀ s : State, s.cfg.gateChoice = f → s.operateGate m = .next (s.writeGate (g s.ar s.c))

/-- AR, C and whether SC is cleared, as each named word gives them from AR and C (46_operate.md R298 to R313). -/
theorem namedTable_writeGate :
    ∀ row ∈ namedTable, ∃ g : Word → Bool → Word × Bool × Bool, ∀ s, row.2 s = .next (s.writeGate (g s.ar s.c)) := by
  simp only [namedTable, List.forall_mem_cons]
  exact
    ⟨⟨fun a c => (a ^^^ 0o100000#16, c, false), fun _ => rfl⟩,
      ⟨fun _ c => (0, c, false), fun _ => rfl⟩,
      ⟨fun a c => (a &&& 0o077777#16, c, false), fun _ => rfl⟩,
      ⟨fun a _ => (a, false, false), fun _ => rfl⟩,
      ⟨fun a _ => (a &&& 0o077777#16, a.getLsbD 15, false), fun _ => rfl⟩,
      ⟨fun a c => (~~~a, c, false), fun _ => rfl⟩,
      ⟨fun a c => (-a, c, true), fun _ => rfl⟩,
      ⟨fun a c => (a ||| 0o100000#16, c, false), fun _ => rfl⟩,
      ⟨fun a _ => (a, true, false), fun _ => rfl⟩,
      ⟨fun a c => (a &&& 0o177400#16, c, false), fun _ => rfl⟩,
      ⟨fun a c => (a &&& 0o000377#16, c, false), fun _ => rfl⟩,
      ⟨fun a c => (a >>> 8, c, false), fun _ => rfl⟩,
      ⟨fun a _ => (a + 1, decide (a = 0o077777#16), true), fun s => by rw [execAoa, add16_one]; rfl⟩,
      ⟨fun a c => (if c then a + 1 else a, c && decide (a = 0o077777#16), true),
        fun s => by rw [execAca, add16_c]; rfl⟩,
      ⟨fun a c => (a <<< 8, c, false), fun _ => rfl⟩,
      ⟨fun a c => (a.extractLsb' 0 8 ++ a.extractLsb' 8 8, c, false), fun _ => rfl⟩,
      List.forall_mem_nil _⟩

/-- AR, C and whether SC is cleared, as the configured network gives them (46_operate.md R316 to R318). -/
def networkOf (f : Nat) (m : BitVec 10) (a : Word) (c : Bool) : Word × Bool × Bool :=
  let p := phase1 f m a
  let g := Config.gateTransfer f m
  (transferWord g (if Config.gateResultFromFedBack f then p.arIn else a) p.out.d,
    transferC g (c && !Config.gateClearsC f m) p.out.ovf
      ((if Config.gateTopAfterPhase1 f then p.arIn else a).getLsbD 15),
    p.clrSc)

theorem gateNetwork_eq (s : State) (m : BitVec 10) :
    s.gateNetwork m = s.writeGate (networkOf s.cfg.gateChoice m s.ar s.c) := rfl

theorem exists_gateIs (f : Nat) (m : BitVec 10) : ∃ g, GateIs f m g := by
  cases hm : namedMeaning m with
  | some named =>
    obtain ⟨row, hrow, rfl⟩ := Option.map_eq_some_iff.1 hm
    obtain ⟨g, hg⟩ := namedTable_writeGate row (List.mem_of_find?_eq_some hrow)
    exact ⟨g, fun s _ => (operateGate_of_named hm s).trans (hg s)⟩
  | none =>
    refine ⟨networkOf f m, ?_⟩
    rintro s rfl
    rw [State.operateGate, hm, gateNetwork_eq]

/-- A named word's bits, run as an undefined word's, do what the named word does (46_operate.md R315, law (c)). -/
theorem exec_undefinedOperate_named {i : Instr} {s : State} (h : s.cfg.stopInst = false)
    (hnamed : namedMeaning ((encode i).extractLsb' 0 10) = some (exec i)) :
    exec (.undefinedOperate ((encode i).extractLsb' 0 10)) s = exec i s := by
  rw [exec_undefinedOperate_of_not_stopInst h, operateGate_of_named hnamed]

/-- Settles O51: the gate is the named rows and the network, of which each is a function of AR and C, and the row of a
named word is the word's own meaning. -/
theorem undefinedOperateWords : Obligations.UndefinedOperateWords := by
  constructor
  · choose gate hgate using exists_gateIs
    refine ⟨gate, ?_⟩
    rintro m s _ rfl
    exact ⟨fun hstop => exec_undefinedOperate_of_stopInst hstop m,
      fun hrun => (exec_undefinedOperate_of_not_stopInst hrun m).trans (hgate _ m s rfl)⟩
  · intro i s hcls hrun
    cases i
    case undefinedOperate m =>
      have hbits : (encode (.undefinedOperate m)).extractLsb' 0 10 = m := lowTen_tenWord 0o60#6 m
      rw [hbits]
    case chs | cra | ssp | rcb | csa | cma | tca | ssm | scb | car | cal | icl | aoa | aca | icr | ica =>
      exact exec_undefinedOperate_named hrun rfl
    all_goals cases hcls

end Sys2Proof.Machine

/-! ## Calls without effect, and the CPU's own device -/

namespace Sys2Proof.Machine

/-! ### Calls without effect -/

/-- A call that changes no state and skips nothing, whose reply gives the data back and stops the CPU in `t`, or goes on
in it: what the stub and the bad functions of device 0o20 do (47_io.md R322, R329). -/
structure CallIgnored (s : State) (k : IoCall) (t : State) : Prop where
  state : s.afterIo k = s
  skip : (s.ioReply k).skip = false
  data : (s.ioReply k).data = k.data
  stop : s.stopOn (s.ioReply k).stop = t

theorem stubCall_ignored {s : State} {k : IoCall} (hdev : k.dev ≠ 0o20#6) (hreg : k.dev ∉ s.cfg.registered) :
    CallIgnored s k (if s.cfg.stopDev then { s with run := .stopped .iodv } else s) := by
  have hstub : s.isRegistered k.dev = false := by
    rw [State.isRegistered, List.contains_eq_mem]
    exact decide_eq_false hreg
  obtain ⟨hafter, hreply⟩ := State.afterIo_stub hdev hstub
  refine ⟨hafter, hreply ▸ rfl, hreply ▸ rfl, ?_⟩
  rw [hreply, State.stubReply]
  split <;> rfl

/-- Device 0o20 has no function but the outputs 0 and 0o10 (47_io.md R329). -/
theorem afterIo_badFunction {s : State} {k : IoCall} (hdev : k.dev = cpuDevice)
    (hbad : k.op = .ota → k.fnc ≠ 0#4 ∧ k.fnc ≠ 0o10#4) :
    s.afterIo k = s ∧ s.ioReply k = s.badFunction k.data := by
  have hmask : ¬(k.op = .ota ∧ k.fnc = 0#4) := fun ⟨hop, hfnc⟩ => (hbad hop).1 hfnc
  have hkeys : ¬(k.op = .ota ∧ k.fnc = 0o10#4) := fun ⟨hop, hfnc⟩ => (hbad hop).2 hfnc
  have hneither : ¬(k.op = .ota ∧ (k.fnc = 0#4 ∨ k.fnc = 0o10#4)) := by
    rwa [and_or_left, not_or, and_iff_right hmask]
  rw [State.afterIo, State.ioReply, if_pos hdev, if_pos hdev, State.cpuDeviceState, State.cpuDeviceReply, if_neg hmask,
    if_neg hkeys, if_neg hneither]
  exact ⟨rfl, rfl⟩

theorem badFunctionCall_ignored {s : State} {k : IoCall} (hdev : k.dev = 0o20#6)
    (hbad : k.op = .ota → k.fnc ≠ 0#4 ∧ k.fnc ≠ 0o10#4) : CallIgnored s k (illegalStop s) := by
  obtain ⟨hafter, hreply⟩ := afterIo_badFunction (s := s) hdev hbad
  refine ⟨hafter, hreply ▸ rfl, hreply ▸ rfl, ?_⟩
  rw [hreply, ← illegal_eq]
  rfl

section Ignored

variable {s t : State} {fnc : BitVec 4} {dev : DevNum}

theorem exec_ocp_of_ignored (h : CallIgnored s { op := .ocp, fnc := fnc, data := s.ar, dev := dev } t) :
    exec (.ocp fnc dev) s = .next t := by
  show execOcp fnc dev s = _
  rw [execOcp, h.state, h.stop]

theorem exec_sks_of_ignored (h : CallIgnored s { op := .sks, fnc := fnc, data := s.ar, dev := dev } t) :
    exec (.sks fnc dev) s = .next t := by
  show execSks fnc dev s = _
  rw [execSks, h.state, h.skip, State.skipIf_false, h.stop]

theorem exec_ota_of_ignored (h : CallIgnored s { op := .ota, fnc := fnc, data := s.ar, dev := dev } t) :
    exec (.ota fnc dev) s = .next t := by
  show outputAr fnc dev s = _
  rw [outputAr, h.state, h.skip, State.skipIf_false, h.stop]

/-- AR receives the data it was passed as, so what is left of INA is its clear of AR (47_io.md R324). -/
theorem exec_ina_of_ignored {clear : Bool} {f3 : BitVec 3}
    (h : CallIgnored (s.clearAr clear) { op := .ina, fnc := 0#1 ++ f3, data := (s.clearAr clear).ar, dev := dev } t) :
    exec (.ina clear f3 dev) s = .next t := by
  show execIna clear f3 dev s = _
  simp only [execIna, h.state, h.skip, h.data, State.skipIf_false]
  exact congrArg _ h.stop

end Ignored

theorem clearAr_eq (s : State) (clear : Bool) : s.clearAr clear = if clear then { s with ar := 0 } else s := by
  cases clear <;> rfl

/-- Settles O52: every call but the two outputs of device 0o20 is ignored, by the stub or as a bad function. -/
theorem ioWithoutDevice : Obligations.IoWithoutDevice := by
  intro clear f3 fnc dev s stopped hdevice
  have ignored : ∀ (t : State) (k : IoCall), t.cfg = s.cfg → k.dev = dev →
      (dev ≠ 0o20#6 ∨ (k.op = .ota → k.fnc ≠ 0#4 ∧ k.fnc ≠ 0o10#4)) → CallIgnored t k (stopped t) := by
    rintro t k hcfg rfl hfunction
    rcases hdevice with ⟨hdev, hreg, rfl⟩ | ⟨hdev, rfl⟩
    · have hstopDev : t.cfg.stopDev = s.cfg.stopDev := congrArg Config.stopDev hcfg
      have hstub := stubCall_ignored hdev (hcfg.symm ▸ hreg)
      rwa [hstopDev] at hstub
    · exact badFunctionCall_ignored hdev (hfunction.resolve_left (not_not_intro hdev))
  refine ⟨?ocp, ?sks, ?ina, fun hfunction => ?ota⟩
  case ocp => exact exec_ocp_of_ignored (ignored s _ rfl rfl (.inr nofun))
  case sks => exact exec_sks_of_ignored (ignored s _ rfl rfl (.inr nofun))
  case ina =>
    rw [← clearAr_eq]
    exact exec_ina_of_ignored (ignored (s.clearAr clear) _ rfl rfl (.inr nofun))
  case ota => exact exec_ota_of_ignored (ignored s _ rfl rfl (hfunction.imp_right fun h _ => h))

/-! ### SMK and OTK -/

/-- SMK writes the mask, then may skip; there is no stop (47_io.md R330). -/
theorem exec_smk (s : State) : exec .smk s = .next (skipWhen (s.setMask s.ar) s.cfg.cpu020Skip) := rfl

/-- OTK writes the keys, then may skip, under the EXT it wrote; there is no stop (47_io.md R331). -/
theorem exec_otk (s : State) : exec .otk s = .next (skipWhen (s.setKeys s.ar) s.cfg.cpu020Skip) := rfl

theorem setKeys_sc_eq_mod (s : State) (v : Word) : (s.setKeys v).sc = BitVec.ofNat 6 (v.toNat % 32) := by
  refine BitVec.eq_of_toNat_eq ?_
  rw [State.setKeys_sc, BitVec.toNat_setWidth, BitVec.extractLsb'_toNat, BitVec.toNat_ofNat]
  rfl

theorem setKeys_ext_eq_ite (s : State) (v : Word) :
    (s.setKeys v).ext = if s.cfg.optExt && v.getLsbD 13 then true else s.ext := by
  rw [State.setKeys_ext]
  cases s.cfg.optExt with
  | false => rfl
  | true => simp [Bool.or_comm]

/-- Settles O54: each is one write of the CPU device's registers, then the skip. -/
theorem setMaskAndKeys : Obligations.SetMaskAndKeys := by
  rintro s keys rfl
  refine ⟨exec_smk s, ?_⟩
  rw [← setKeys_ext_eq_ite s s.ar, ← setKeys_sc_eq_mod s s.ar]
  rfl

end Sys2Proof.Machine

/-! ## Channels that fail -/

namespace Sys2Proof.Machine

/-! ### The end of the iteration -/

theorem step_of_serviceChannels_halt {s t : State} (hrun : s.run = .running) (hcfg : s.cfg.wf = true)
    (h : s.serviceChannels = .halt t) : step s = .next t := by
  simp only [step, hrun, hcfg, h, if_true]

theorem step_of_serviceChannels_fault {s : State} {f : Fault} (hrun : s.run = .running) (hcfg : s.cfg.wf = true)
    (h : s.serviceChannels = .fault f) : step s = .fault f := by
  simp only [step, hrun, hcfg, h, if_true]

/-! ### A transfer that fails -/

theorem transfer_of_no_skip {s : State} {w : Word} {dev : DevNum}
    (hskip : (s.ioReply (wordCall s w dev)).skip = false) :
    s.transfer (transferOf w) dev = .halt ((s.afterIo (wordCall s w dev)).stop .dmaer) := by
  simp only [State.transfer, transferCall_eq_wordCall, hskip, Bool.not_false, if_true]

theorem transfer_of_stop {s : State} {w : Word} {dev : DevNum} {reason : StopReason}
    (hskip : (s.ioReply (wordCall s w dev)).skip = true)
    (hstop : (s.ioReply (wordCall s w dev)).stop = some reason) :
    s.transfer (transferOf w) dev = .halt ((s.afterIo (wordCall s w dev)).stop reason) := by
  simp only [State.transfer, transferCall_eq_wordCall, hskip, hstop, Bool.not_true, Bool.false_eq_true, if_false]
  rfl

/-- A call that is ignored does not skip, so it ends the transfer with DMAER and leaves the state (48_channels.md R355,
R356). -/
theorem transfer_of_ignored {s t : State} {w : Word} {dev : DevNum} (h : CallIgnored s (wordCall s w dev) t) :
    s.transfer (transferOf w) dev = .halt (s.stop .dmaer) := by
  rw [transfer_of_no_skip h.skip, h.state]

/-- An input asks device 0o20 for data, and it has functions for outputs only (48_channels.md R355, 47_io.md R329). -/
theorem wordCall_op_of_input {s : State} {w : Word} {dev : DevNum} (h : w.getLsbD 15 = true) :
    (wordCall s w dev).op = .ina := by
  rw [wordCall, if_pos h]

theorem serviceDma_of_transfer_halt {s t : State} {k : Fin 4} {dev : DevNum}
    (h : s.transfer (transferOf s.dma[k].ad) dev = .halt t) : s.serviceDma k dev = .halt t := by
  rw [State.serviceDma, h, Phase.bind]

theorem serviceDmc_of_transfer_halt {s t : State} {k : Fin 16} {dev : DevNum}
    (h : s.transfer (transferOf (s.chanRead (s.dmcStart k))) dev = .halt t) : s.serviceDmc k dev = .halt t := by
  rw [State.serviceDmc, h, Phase.bind]

/-- A transfer that stops ends the service of its channel before any bookkeeping (48_channels.md R355, R356, R360). -/
theorem serviceFor_of_transfer_halt {s t : State} {i : Fin 20} {dev : DevNum}
    (h : s.transfer (transferOf (startWord s i)) dev = .halt t) : s.serviceFor i dev = .halt t := by
  unfold State.serviceFor
  unfold startWord at h
  split_ifs at h ⊢
  · exact serviceDma_of_transfer_halt h
  · exact serviceDmc_of_transfer_halt h

/-! ### The lowest requested channel -/

section Lowest

variable {s : State} {i : Fin 20}

theorem serviceChannels_of_halt {t : State} (hreq : s.chanReq.getLsbD i.val = true) (hlow : NoRequest s 0 i.val)
    (h : s.serviceChannel i = .halt t) : s.serviceChannels = .halt t :=
  (serviceEnds_of_serviceChannel h).2 hreq hlow fun _ hgo => Phase.noConfusion hgo

theorem serviceChannels_of_unmapped (hreq : s.chanReq.getLsbD i.val = true) (hlow : NoRequest s 0 i.val)
    (hmap : s.cfg.chanMap[i] = none) : s.serviceChannels = .fault (.unmappedChannel i) := by
  have hservice : s.serviceChannel i = .fault (.unmappedChannel i) := by rw [State.serviceChannel, hmap]
  exact (serviceEnds_of_serviceChannel hservice).2 hreq hlow fun _ hgo => Phase.noConfusion hgo

end Lowest

/-- Settles O57: the lowest requested channel is the first served, its transfer fails, and nothing comes after that. -/
theorem channelFailures : Obligations.ChannelFailures := by
  intro s hrun hcfg
  refine ⟨fun t => step_of_serviceChannels_halt hrun hcfg, fun i q hreq hlow hq => ?_⟩
  have stops : ∀ {dev : DevNum} {t : State}, s.cfg.chanMap[i] = some dev →
      State.transfer { s with chanReq := q } (transferOf (startWord s i)) dev = .halt t → step s = .next t := by
    intro dev t hmap htransfer
    have hservice := (serviceChannel_mapped hmap hq).trans (serviceFor_of_transfer_halt htransfer)
    exact step_of_serviceChannels_halt hrun hcfg (serviceChannels_of_halt hreq hlow hservice)
  refine ⟨fun hmap => ?unmapped, ?registered, ?ignored⟩
  case unmapped =>
    exact step_of_serviceChannels_fault hrun hcfg (serviceChannels_of_unmapped hreq hlow hmap)
  case registered =>
    intro dev a rest reason hmap hdev hreg hans hfails
    obtain ⟨r, x, p, hreqs, hafter, hreply⟩ :=
      registeredCall_ready (s := { s with chanReq := q }) (k := wordCall s (startWord s i) dev)
        (by rwa [wordCall_dev]) (by rwa [wordCall_dev]) hans
    rw [wordCall_dev] at hreqs
    refine ⟨r, x, p, hreqs, stops hmap ?_⟩
    have hstate : (State.afterIo { s with chanReq := q } (wordCall s (startWord s i) dev)).stop reason =
        { afterCall s (wordCall s (startWord s i) dev) r x p with run := .stopped reason } := by
      rw [hafter]
      rfl
    rw [← hstate]
    rcases hfails with ⟨hskip, rfl⟩ | ⟨hskip, hstop⟩
    · exact transfer_of_no_skip ((congrArg IoReply.skip hreply).trans hskip)
    · exact transfer_of_stop ((congrArg IoReply.skip hreply).trans hskip) ((congrArg IoReply.stop hreply).trans hstop)
  case ignored =>
    rintro dev hmap (⟨hdev, hreg⟩ | ⟨rfl, hinput⟩)
    · exact stops hmap (transfer_of_ignored (stubCall_ignored (by rwa [wordCall_dev]) (by rwa [wordCall_dev])))
    · refine stops hmap (transfer_of_ignored (badFunctionCall_ignored (wordCall_dev _ _ _) fun hop => ?_))
      rw [wordCall_op_of_input hinput] at hop
      cases hop

end Sys2Proof.Machine

/-! ## Reset, the edges of the fetch, the start button and interrupts -/

namespace Sys2Proof.Machine

/-! ### The state after reset -/

/-- Settles O7: memory is empty, nothing is requested, and no mode is on. -/
theorem resetSatisfiesInvariant : Obligations.ResetSatisfiesInvariant where
  mem_wf := State.wf_reset
  absent_cells a habsent := absurd a.isLt habsent.not_gt
  channels := BitVec.zero_and
  line_requests := BitVec.zero_and
  line_enables := BitVec.zero_and
  extend _ := rfl
  double _ := rfl

/-! ### The plain fetch -/

/-- Settles O5: with no interrupt and no breakpoint the iteration is the plain fetch. -/
theorem stepRunsDecodedInstruction : Obligations.StepRunsDecodedInstruction := by
  rintro s u i hchannels hstd hext hbkpt rfl
  exact step_of_plainFetch hchannels hstd hext hbkpt

/-- An execute breakpoint at PC ends the iteration before the word is read (60_exceptions.md R403). -/
theorem step_of_execBkpt {s u : State} (h : AfterChannels s u) (hstd : ¬StandardReady u) (hext : ¬ExtendedReady u)
    (hbkpt : u.pc ∈ u.cfg.execBkpt) :
    step s = .next { u with intStart := false, run := .stopped .ibkpt } := by
  have hbreak : u.clearStart.execBreak u.clearStart.pc = true := List.contains_iff_mem.2 hbkpt
  rw [step_of_afterChannels h, State.runInstruction, nextInstruction_plain hstd hext, State.plainFetch, hbreak]
  rfl

/-- The word of a cell that does not exist is a HLT, whatever DP (20_memory.md R72; 43_control.md R210). -/
theorem decode_memRead_of_absent {s : State} {a : Addr} (h : s.cfg.memSize ≤ a.toNat) (dp : Bool) :
    decode dp (s.memRead a) = .hlt 0 := by
  rw [State.memRead, if_neg h.not_gt]
  exact (decode_controlWord dp 0).trans (decodeControl_hlt 0)

/-- Settles O11: the breakpoint comes before the read, and beyond memory the plain fetch runs a HLT. -/
theorem fetchEdges : Obligations.FetchEdges := by
  intro s u hchannels hstd hext
  refine ⟨step_of_execBkpt hchannels hstd hext, fun hbkpt habsent => ?_⟩
  rw [step_of_plainFetch hchannels hstd hext hbkpt, decode_memRead_of_absent habsent]
  exact (haltAndEmptyControlWords 0 _).1

/-! ### The start button -/

/-- What outlives every write of an iteration and holds once the start button is cleared, the iteration leaves so
after its channel phase, whatever the button was (60_exceptions.md R414). -/
theorem StepKeeps.runInstruction_of_clearStart {P : State → Prop} {s : State} (h : StepKeeps P)
    (hs : P s.clearStart) : NextHolds P s.runInstruction := by
  have hfetch : FetchHolds P s.nextInstruction := by
    unfold State.nextInstruction
    split_ifs
    · exact h.interruptEntry _ hs
    · split
      · exact h.interruptEntry _ (h.clearLine _ _ hs)
      · exact h.plainFetch hs
    · exact h.plainFetch hs
  unfold State.runInstruction
  split
  · next e => rw [e] at hfetch; exact hfetch
  · next e => rw [e] at hfetch; exact exec_keeps (h.instr _) hfetch

/-- A step that passes its channel phase began in a running CPU under an accepted configuration. -/
theorem afterChannels_of_step {s u t : State} (hgo : s.serviceChannels = .go u) (hstep : step s = .next t) :
    AfterChannels s u := by
  cases hrun : s.run with
  | stopped reason => rw [step_of_stopped hrun] at hstep; cases hstep
  | running =>
    cases hcfg : s.cfg.wf with
    | false => rw [step_of_badConfiguration hrun hcfg] at hstep; cases hstep
    | true => exact ⟨hrun, hcfg, hgo⟩

/-- Settles O13: the check that follows the channel phase clears the button, and nothing after it sets it. -/
theorem startButtonCleared : Obligations.StartButtonCleared := by
  intro s u t hgo hstep
  have keeps : StepKeeps fun v => v.intStart = false := { clearStart := fun _ _ => rfl }
  rw [step_of_afterChannels (afterChannels_of_step hgo hstep)] at hstep
  exact nextHolds_of_eq (keeps.runInstruction_of_clearStart rfl) hstep

/-! ### Interrupts taken -/

/-- A configuration in the ranges of 00_scope.md R9 lets an indirection make one hop and keeps every vector in the
first 0o1000 words (49_main_loop.md R374). -/
theorem Config.bounds_of_wf {k : Config} (h : k.wf = true) :
    1 ≤ k.indMax ∧ k.stdVec.toNat < 0o1000 ∧ k.xintBase.toNat + 15 < 0o1000 := by
  simp only [Config.wf, Bool.and_eq_true, decide_eq_true_eq] at h
  obtain ⟨⟨⟨-, hind⟩, hstd⟩, hxint⟩ := h
  exact ⟨hind, hstd, hxint⟩

theorem AfterChannels.wf {s u : State} (h : AfterChannels s u) : u.cfg.wf = true := by
  obtain ⟨-, hcfg⟩ := h.running
  obtain ⟨-, hwf, -⟩ := h
  rwa [hcfg]

theorem toNat_lineVector_lt {s : State} (h : s.cfg.wf = true) (i : Fin 16) : (s.lineVector i).toNat < 0o1000 := by
  obtain ⟨-, -, hxint⟩ := Config.bounds_of_wf h
  have hi := i.isLt
  rw [State.lineVector, BitVec.toNat_add, BitVec.toNat_ofNat]
  omega

/-- An interrupt entry runs JST* through its vector (60_exceptions.md R422). -/
theorem step_of_interrupt {s u v : State} {vec : Addr} (h : AfterChannels s u) (hvec : vec.toNat < 0o1000)
    (hnext : u.nextInstruction = .execute (interruptWord vec) v) : step s = exec (vectorJump vec) v := by
  rw [step_of_afterChannels h, State.runInstruction, hnext, ← decode_interruptWord v.dp vec hvec]

theorem step_of_standardReady {s u : State} (h : AfterChannels s u) (hstd : StandardReady u) :
    step s = exec (vectorJump u.cfg.stdVec) u.clearStart.interruptEntry := by
  obtain ⟨-, hvec, -⟩ := Config.bounds_of_wf h.wf
  refine step_of_interrupt h hvec ?_
  rw [State.nextInstruction, if_pos ((stdReady_iff u).2 hstd)]

/-- The line taken is the lowest ready one (60_exceptions.md R413, R416). -/
theorem readyLine_of_lowest {s : State} {i : Fin 16} (hi : (s.xintReq &&& s.xintEnb).getLsbD i.val = true)
    (hlow : ∀ j : Fin 16, j < i → (s.xintReq &&& s.xintEnb).getLsbD j.val = false) : s.readyLine = some i := by
  have hsplit : ∀ j : Fin 16, lineOrder = lineOrder.take j.val ++ j :: lineOrder.drop (j.val + 1) := by decide
  have hbelow : ∀ j : Fin 16, ∀ k ∈ lineOrder.take j.val, k < j := by decide
  refine List.find?_eq_some_iff_append.2 ⟨hi, _, _, hsplit i, fun k hk => ?_⟩
  rw [hlow k (hbelow i k hk)]
  rfl

theorem step_of_extendedReady {s u : State} {i : Fin 16} (h : AfterChannels s u) (hext : ExtendedReady u)
    (hline : u.readyLine = some i) :
    step s = exec (vectorJump (u.lineVector i)) (u.clearStart.clearLine i).interruptEntry := by
  have hstd : ¬u.stdReady = true := (stdReady_iff u).not.2 hext.1
  refine step_of_interrupt h (toNat_lineVector_lt h.wf i) ?_
  rw [State.nextInstruction, if_neg hstd, if_pos ((extReady_iff u).2 hext), hline]

/-- Taking a line clears its request alone (60_exceptions.md R416). -/
theorem getLsbD_clearLine (s : State) (i j : Fin 16) :
    (s.clearLine i).xintReq.getLsbD j.val = (s.xintReq.getLsbD j.val && decide (j ≠ i)) := by
  have hbit : (1#16 <<< i.val).getLsbD j.val = decide (j = i) := by revert i j; decide
  rw [State.clearLine_xintReq, BitVec.getLsbD_and, BitVec.getLsbD_not, hbit]
  simp

/-- Settles O9: the scan of the lines finds the lowest, and its entry runs JST* through its vector. -/
theorem extendedInterruptTaken : Obligations.ExtendedInterruptTaken := by
  intro s u i hchannels hext hi hlow
  exact ⟨_, getLsbD_clearLine u i, step_of_extendedReady hchannels hext (readyLine_of_lowest hi hlow)⟩

/-! ### The link of a standard interrupt -/

/-- The operand of JST* through a vector (60_exceptions.md R422). -/
def vectorOperand (vec : Addr) : MemOp :=
  { indirect := true, indexed := false, sector := false, disp := vec.setWidth 9 }

theorem vectorJump_eq_jst (vec : Addr) : vectorJump vec = .jst (vectorOperand vec) := rfl

/-- In extended mode a handler's address in the vector cell is where JST* stores its link: the one hop from the vector
to a direct word (40_effective_address.md R142). -/
theorem ea_vectorOperand {s : State} {vec y : Addr} (hext : s.ext = true) (hwf : s.cfg.wf = true)
    (hvec : vec.toNat < 0o1000) (hcell : s.memRead vec = y.setWidth 16) : s.ea (vectorOperand vec) = some y := by
  have hfirst : s.initialAddress (vectorOperand vec) = 1#1 ++ vec := by
    apply BitVec.eq_of_toNat_eq
    rw [toNat_initialAddress, toNat_append_eq_add]
    simp only [vectorOperand, if_true, Bool.false_eq_true, if_false, BitVec.toNat_setWidth, BitVec.toNat_ofNat]
    omega
  have hind : (1#1 ++ vec).getLsbD 15 = true := BitVec.getLsbD_append
  have haddr : (1#1 ++ vec).setWidth 15 = vec := BitVec.setWidth_append_eq_right
  have hdirect : (y.setWidth 16).getLsbD 15 = false := by simp
  obtain ⟨hmax, -⟩ := Config.bounds_of_wf hwf
  obtain ⟨hops, hhops⟩ := Nat.exists_eq_add_of_le' hmax
  rw [ea_extended hext, hfirst, hhops, chaseExtended_succ_of_indirect hind, haddr, hcell,
    chaseExtended_of_direct hdirect]
  simp [vectorOperand]

/-- JST in extended mode, with no extend-off pending and no write breakpoint, stores PC and goes on behind it
(42_memory_reference.md R178). -/
theorem exec_jst_extended {s : State} {op : MemOp} {y : Addr} (hext : s.ext = true) (hoff : s.extoff = false)
    (hy : s.ea op = some y) (hbkpt : y ∉ s.cfg.writeBkpt) :
    ∃ m, StoresWord s m y (s.pc.setWidth 16) ∧ exec (.jst op) s = .next { s with mem := m, pc := y + 1 } := by
  obtain ⟨m, link, hstores, hlink, hrun⟩ := (jumpAndStore op s).2 y hy
  have hpc : link = s.pc.setWidth 16 := by
    apply BitVec.eq_of_toNat_eq
    rw [hlink, if_pos hext, BitVec.toNat_setWidth_of_le (by decide)]
  have hbehind : s.newa s.pc (y.setWidth 16 + 1) = y + 1 := by
    rw [State.newa_extended hext]
    bv_omega
  rw [if_neg hbkpt, if_neg (ne_true_of_eq_false hoff), hbehind] at hrun
  exact ⟨m, hpc ▸ hstores, hrun⟩

/-- Settles O8: the entry, then JST* through the vector; with the extend option the entry leaves extended mode on, in
which the jump is the store of PC at the handler's address. -/
theorem standardInterruptTaken : Obligations.StandardInterruptTaken := by
  intro s u hchannels hstd
  have hstep := step_of_standardReady hchannels hstd
  refine ⟨hstep, fun y hopt hcell hbkpt => ?_⟩
  have hon : u.clearStart.interruptEntry.ext = true := by simp [hopt]
  obtain ⟨-, hvec, -⟩ := Config.bounds_of_wf hchannels.wf
  have hea : u.clearStart.interruptEntry.ea (vectorOperand u.cfg.stdVec) = some y :=
    ea_vectorOperand hon hchannels.wf hvec hcell
  obtain ⟨m, hstores, hexec⟩ := exec_jst_extended hon rfl hea hbkpt
  refine ⟨m, hstores, ?_⟩
  rw [hstep, vectorJump_eq_jst, hexec]
  simp [State.interruptEntry, State.clearStart, hopt]

end Sys2Proof.Machine
